-- ==== Sys2Proof/Word.lean ====
section
/-!
DEFINITION. The words of the block: stream bytes, codes, command words, symbols (spec/00_scope.md R6, R13, R14).
-/
namespace Sys2Proof

/-- A stream byte: `BYTE_BITS` = 8 bits, unsigned (00_scope.md R6, R13). -/
abbrev Byte := BitVec 8

/-- A code: `CODE_BITS` = 12 bits, unsigned, 0..4095 (00_scope.md R6, 30_encoding.md R70). -/
abbrev Code := BitVec 12

/-- A command word: 16 bits, delivered whole (30_encoding.md R80, 20_memory.md R59). -/
abbrev CmdWord := BitVec 16

/-- A byte sequence (00_scope.md R14). A Symbol of the spec is a non-empty one; `Dict.wf` carries that. -/
abbrev Symbol := List Byte

end Sys2Proof
end

