-- ==== Sys2Proof/Config.lean ====
section
/-!
DEFINITION. What an implementation fixes: the protocol constants, the open symbol bound, and the free sink answers
(spec/00_scope.md R6, R7; spec/60_exceptions.md R227).
-/
namespace Sys2Proof

/-- `BASE_SIZE`: entries after any reset; codes 0..255 (00_scope.md R6). -/
def Config.baseSize : Nat := 256

/-- `CEILING`: the table size that triggers a reset (00_scope.md R6). -/
def Config.ceiling : Nat := 4096

/-- `MAX_SYMBOL_BYTES`: `none` is the spec's default, unbounded (00_scope.md R7, 92_eei_decisions.md D24).
The meanings take the bound as an argument, so that R236 is modelled for every bound. DESIGN CHOICE, unsafe for an
implementation with a finite bound: log 8. -/
def Config.maxSymbolBytes : Option Nat := none

/-- FREE VALUE. Whether the sink accepts its `n`-th freely answered write (60_exceptions.md R227:
each sink write is accepted or fails, a free draw). It has no body: nothing can be proved about its values. Log 7. -/
opaque Config.sinkAccepts : Nat → Bool

end Sys2Proof
end

