-- ==== Sys2Proof/Machine/Dict.lean ====
section
/-!
DEFINITION. The dictionary as data: a code-indexed table of optional symbols (spec/10_state.md R24, spec/20_memory.md R50
to R52), held as a list in one canonical form.
-/
namespace Sys2Proof.Machine

/-- The table `dict[0..4095]`: the pairs (code, symbol) of its present entries, codes strictly rising.
A code not listed is `None`, the spec's "no entry" (10_state.md R24). DESIGN CHOICE, safe: log 9. -/
abbrev Dict := List (Nat × Symbol)

/-- The canonical form: every listed code is at least `lo`, the codes rise strictly and stay below 4096, and every entry
is a Symbol, that is, not empty (10_state.md R24, 00_scope.md R14). -/
def Dict.wfFrom (lo : Nat) : Dict → Bool
  | [] => true
  | (k, w) :: d => decide (lo ≤ k) && decide (k < Config.ceiling) && !w.isEmpty && Dict.wfFrom (k + 1) d

/-- The canonical form of a whole table. -/
def Dict.wf (d : Dict) : Bool := Dict.wfFrom 0 d

/-- `DictRead(k)` (20_memory.md R52). -/
def Dict.read : Dict → Nat → Option Symbol
  | [], _ => none
  | (j, w) :: d, k => if j = k then some w else Dict.read d k

/-- `DictWrite(k, w)`: `dict[k] <- Some w` (20_memory.md R52), keeping the canonical form. -/
def Dict.write : Dict → Nat → Symbol → Dict
  | [], k, w => [(k, w)]
  | (j, v) :: d, k, w =>
    if k < j then (k, w) :: (j, v) :: d
    else if k = j then (k, w) :: d
    else (j, v) :: Dict.write d k w

/-- The base table that `DictReset` leaves: `dict[k] = Some [k]` for k in 0..255, every other entry `None`
(40_dictionary.md R101). -/
def Dict.base : Dict := (List.range Config.baseSize).map fun k => (k, [BitVec.ofNat 8 k])

/-- The codes below `n` whose entry is exactly `w`, in rising order: the set K of 40_dictionary.md R107. -/
def Dict.codesOf (n : Nat) (w : Symbol) : Dict → List Nat
  | [] => []
  | (k, v) :: d => if k < n ∧ v = w then k :: Dict.codesOf n w d else Dict.codesOf n w d

end Sys2Proof.Machine
end

