-- ==== Sys2Proof/Machine/State.lean ====
section
/-!
DEFINITION. The state of the block (spec/10_state.md R20 to R42), the host's side of its interface as plain data, and
the state after power-on reset (spec/70_reset_and_hazards.md R250).
-/
namespace Sys2Proof.Machine

/-- Operating modes (10_state.md R21, 00_scope.md R10). -/
inductive Mode where
  /-- no stream yet -/
  | idle
  /-- the encoder's ACCUMULATING state -/
  | enc
  /-- the decoder running -/
  | dec
  /-- the packer driven alone -/
  | pk
  /-- the unpacker driven alone -/
  | up
  /-- a stream ended normally; the encoder's TERMINAL state -/
  | done
  /-- a stream ended by a fault -/
  | fault
deriving DecidableEq, Repr

/-- Fault codes recorded in the 2-bit field `fault` (10_state.md R22, 60_exceptions.md R221). -/
inductive FaultCode where
  /-- 0 NONE -/
  | none
  /-- 1 IO_FAILURE -/
  | ioFailure
  /-- 2 MALFORMED_STREAM -/
  | malformedStream
  /-- 3 PROTOCOL_INVARIANT -/
  | protocolInvariant
deriving DecidableEq, Repr

/-- `upFill`: how many bytes of the current unit the unpacker holds, 0, 1 or 2; the value 3 never occurs
(10_state.md R31; log 14). -/
inductive Fill where
  /-- 0: nothing held -/
  | zero
  /-- 1: byte0 held -/
  | one
  /-- 2: byte0 and byte1 held -/
  | two
deriving DecidableEq, Repr

/-- What the host sends the block: a command word, or the event `io_fail` between two commands
(30_encoding.md R80, 60_exceptions.md R226). -/
inductive HostEvent where
  /-- one command word, delivered whole (20_memory.md R59) -/
  | command (w : CmdWord)
  /-- the host reports that its byte source failed (60_exceptions.md R226) -/
  | ioFail
deriving DecidableEq, Repr

/-- The state record of 10_state.md R20, then three fields of the MODEL's own that hold the host's side of the interface
(log 1, log 7). -/
structure State where
  /-- operating mode (R21) -/
  mode : Mode
  /-- fault code of the current or last stream (R22) -/
  fault : FaultCode
  /-- the model's refusal mark (R23) -/
  refused : Bool
  /-- dictionary entries (R24) -/
  dict : Dict
  /-- next code to assign, 256..4096 (R25) -/
  nextCode : BitVec 13
  /-- encoder prefix `s`, possibly empty (R26) -/
  encS : List Byte
  /-- code of `encS` (R27) -/
  encSCode : Code
  /-- packer parity: true when one code is staged (R28) -/
  pkOdd : Bool
  /-- packer scratch byte 0 (R29) -/
  pkStage0 : Byte
  /-- packer scratch byte 1 (R29) -/
  pkStage1 : Byte
  /-- unpacker bytes held (R31) -/
  upFill : Fill
  /-- unpacker held byte 0 (R32) -/
  upHold0 : Byte
  /-- unpacker held byte 1 (R32) -/
  upHold1 : Byte
  /-- the decoder has decoded a code (R33) -/
  decHavePrior : Bool
  /-- decoder `priorCode` (R34) -/
  decPriorCode : Code
  /-- symbol of `priorCode` (R34) -/
  decPriorSym : List Byte
  /-- byte output stream (R35) -/
  outBytes : List Byte
  /-- code output stream, `UP` mode only (R35) -/
  outCodes : List Code
  /-- MODEL: the host events not yet taken, oldest first (log 1) -/
  pending : List HostEvent
  /-- MODEL: the sink answers the host has already fixed, next one first (log 7) -/
  sinkAnswers : List Bool
  /-- MODEL: how many free sink answers have been drawn (log 7) -/
  sinkDraws : Nat
deriving DecidableEq, Repr

/-- Reasons for the machine to stop with a fault. There are none: every fault of this block is recorded in its state
and leaves it ready for a START (60_exceptions.md R225, R228), so a faulting command has a next state. Safe: log 10. -/
inductive Fault : Type
deriving DecidableEq, Repr

/-- Reasons for a command to have no meaning in the model. -/
inductive Refusal where
  /-- Raised by an arm of `exec` whose command has no meaning yet. No arm is: every refusal of the spec has a
  next state (60_exceptions.md R235). Safe: the model stops. -/
  | notModelled (mnemonic : String)
deriving DecidableEq, Repr

/-- The block right after power-on (70_reset_and_hazards.md R250, 10_state.md R42): IDLE, no fault, not refused, outputs
empty. Every other field of the spec is unspecified there; the values are the model's (DESIGN CHOICE, unsafe: log 5), taken
inside the ranges of R24, R25, R31. The model's own fields: no event and no fixed sink answer (log 1, log 7). -/
def State.reset : State where
  mode := .idle
  fault := .none
  refused := false
  dict := Dict.base
  nextCode := 256
  encS := []
  encSCode := 0
  pkOdd := false
  pkStage0 := 0
  pkStage1 := 0
  upFill := .zero
  upHold0 := 0
  upHold1 := 0
  decHavePrior := false
  decPriorCode := 0
  decPriorSym := []
  outBytes := []
  outCodes := []
  pending := []
  sinkAnswers := []
  sinkDraws := 0

end Sys2Proof.Machine
end

