-- ==== Sys2Proof/Machine/Operands.lean ====
section
/-!
DEFINITION. The operand forms and bit fields: codes within the bytes of a packing unit (spec/30_encoding.md R72, R73, R82;
spec/41_packer.md R132, R133, R138) and codes as indexes (spec/20_memory.md R60).
-/
namespace Sys2Proof.Machine

/-- A byte operand as the base code that names it (30_encoding.md R70, R82): zero extension, nothing is signed (R13). -/
def codeOfByte (c : Byte) : Code := c.zeroExtend 12

/-- byte0 of a unit: `a[11:4]`, the high 8 bits of the first code (30_encoding.md R72, 41_packer.md R132). -/
def firstByte0 (a : Code) : Byte := a.extractLsb' 4 8

/-- byte1 while one code is staged: `a[3:0] << 4`, low nibble 0 (30_encoding.md R73, 41_packer.md R132). -/
def firstByte1 (a : Code) : Byte := (a.extractLsb' 0 4).zeroExtend 8 <<< 4

/-- byte1 of a unit: the staged byte with the high 4 bits of the second code OR-ed in (41_packer.md R133). -/
def secondByte1 (stage1 : Byte) (b : Code) : Byte := stage1 ||| (b.extractLsb' 8 4).zeroExtend 8

/-- byte2 of a unit: `b[7:0]` (30_encoding.md R72, 41_packer.md R133). -/
def secondByte2 (b : Code) : Byte := b.extractLsb' 0 8

/-- The first code of a unit: `(byte0 << 4) | byte1[7:4]` (41_packer.md R138, 30_encoding.md R72). -/
def firstCode (b0 b1 : Byte) : Code := (b0.zeroExtend 12 <<< 4) ||| (b1.extractLsb' 4 4).zeroExtend 12

/-- The second code of a unit: `(byte1[3:0] << 8) | byte2` (41_packer.md R138, 30_encoding.md R72). -/
def secondCode (b1 b2 : Byte) : Code := ((b1.extractLsb' 0 4).zeroExtend 12 <<< 8) ||| b2.zeroExtend 12

/-- The padding nibble `byte1[3:0]` of a tail (30_encoding.md R73, 41_packer.md R139). -/
def tailPadding (b1 : Byte) : BitVec 4 := b1.extractLsb' 0 4

end Sys2Proof.Machine
end

