-- ==== Sys2Proof/Machine/Ops.lean ====
section
/-!
DEFINITION. The operations every command is built from: refusing, raising a fault, writing to the sink, starting a stream,
and the dictionary interface (spec/00_scope.md R15; spec/60_exceptions.md R225, R227, R235; spec/70_reset_and_hazards.md
R251; spec/40_dictionary.md).
-/
namespace Sys2Proof.Machine

/-- What a part of a step leaves: it ran to its end with a result, or it raised a fault and the step ends there
(60_exceptions.md R220, R225). Both hold the state as it then stands. -/
inductive Eff (α : Type) where
  /-- the part ran to its end -/
  | ok (a : α) (s : State)
  /-- the step has raised a fault: fault entry is already in `s` -/
  | raised (s : State)
deriving DecidableEq, Repr

/-- Go on with the next part of the step, unless a fault was raised: nothing after the raise point runs
(60_exceptions.md R225). -/
def Eff.andThen {α β : Type} (e : Eff α) (f : α → State → Eff β) : Eff β :=
  match e with
  | .ok a s => f a s
  | .raised s => .raised s

/-- The state a part of a step leaves, raised or not. -/
def Eff.state {α : Type} : Eff α → State
  | .ok _ s => s
  | .raised s => s

/-- The end of a step: every accepted command has a next state, whether it completed or raised (60_exceptions.md R220). -/
def Eff.finish {α : Type} (e : Eff α) : Host.Outcome State Fault Refusal := .next e.state

/-! ### Refusal and fault entry -/

/-- `refuse`: the refusal mark is set and nothing else changes (60_exceptions.md R235, 10_state.md R23). Log 3. -/
def State.refuse (s : State) : State := { s with refused := true }

/-- Fault entry, the one place where `fault` becomes non-zero: `fault <- code(F); mode <- FAULT`
(60_exceptions.md R225, 10_state.md R22). Every earlier write of the step is already in `s` and stands. -/
def State.raise (f : FaultCode) (s : State) : State := { s with fault := f, mode := .fault }

/-- The acceptance table for a command accepted in one mode only: refused in every other (30_encoding.md R81). -/
def acceptIn (m : Mode) (s : State) (body : Host.Outcome State Fault Refusal) : Host.Outcome State Fault Refusal :=
  if s.mode = m then body else .next s.refuse

/-- The normal end of a stream: `mode <- DONE` (10_state.md R21). -/
def State.finishStream (s : State) : State := { s with mode := .done }

/-! ### The sink -/

/-- The sink's answer to the next write (60_exceptions.md R227): the next one the host has fixed, else a free draw. Log 7. -/
def State.sinkAnswer (s : State) : Bool :=
  match s.sinkAnswers with
  | a :: _ => a
  | [] => Config.sinkAccepts s.sinkDraws

/-- The state once that answer has been taken. -/
def State.sinkNext (s : State) : State :=
  match s.sinkAnswers with
  | _ :: rest => { s with sinkAnswers := rest }
  | [] => { s with sinkDraws := s.sinkDraws + 1 }

/-- Bytes appended to the byte stream, which is append only (10_state.md R35). -/
def State.emit (w : List Byte) (s : State) : State := { s with outBytes := s.outBytes ++ w }

/-- A code appended to the code stream, which is append only (10_state.md R35). -/
def State.emitCode (k : Code) (s : State) : State := { s with outCodes := s.outCodes ++ [k] }

/-- `Out(b)`: append to `outBytes`; on a failed write nothing is appended and the step raises IOFailure at this point
(00_scope.md R15, 60_exceptions.md R227). -/
def out (b : Byte) (s : State) : Eff Unit :=
  if s.sinkAnswer then .ok () (s.sinkNext.emit [b]) else .raised (s.sinkNext.raise .ioFailure)

/-- `OutCode(k)`: append to `outCodes`, likewise (00_scope.md R15, 60_exceptions.md R227). -/
def outCode (k : Code) (s : State) : Eff Unit :=
  if s.sinkAnswer then .ok () (s.sinkNext.emitCode k) else .raised (s.sinkNext.raise .ioFailure)

/-- `OutSeq(w)`: the bytes of `w` in order, `w[0]` first (00_scope.md R15, 20_memory.md R54). -/
def outSeq : List Byte → State → Eff Unit
  | [], s => .ok () s
  | b :: w, s => (out b s).andThen fun _ t => outSeq w t

/-! ### The dictionary interface -/

/-- `DictReset()` (40_dictionary.md R101). -/
def State.dictReset (s : State) : State := { s with dict := Dict.base, nextCode := 256 }

/-- `DictCeilingCheck()` (40_dictionary.md R103). -/
def dictCeilingCheck (s : State) : State :=
  if s.nextCode.toNat = Config.ceiling then s.dictReset else s

/-- `DictLookupSym(w)`, the encoder direction: by exact content, over the codes below `nextCode`. Two codes for one symbol
raise ProtocolInvariantViolation (40_dictionary.md R107). -/
def dictLookupSym (w : Symbol) (s : State) : Eff (Option Code) :=
  match s.dict.codesOf s.nextCode.toNat w with
  | [] => .ok none s
  | [k] => .ok (some (BitVec.ofNat 12 k)) s
  | _ :: _ :: _ => .raised (s.raise .protocolInvariant)

/-- `DictLookupCode(k)`, the decoder direction, with its check that `k` is a 12-bit code (40_dictionary.md R108). -/
def dictLookupCode (k : Nat) (s : State) : Eff (Option Symbol) :=
  if 4095 < k then .raised (s.raise .protocolInvariant)
  else if k < s.nextCode.toNat then .ok (s.dict.read k) s
  else .ok none s

/-- `DictWrite(k, w)` and the increment of `nextCode`: the two writes of `DictInsert` (40_dictionary.md R104). -/
def State.dictAppend (w : Symbol) (k : BitVec 13) (s : State) : State :=
  { s with dict := s.dict.write k.toNat w, nextCode := s.nextCode + 1 }

/-- `DictInsert(w, k)` with both of its checks (40_dictionary.md R104). -/
def dictInsert (w : Symbol) (k : BitVec 13) (s : State) : Eff Unit :=
  if k ≠ s.nextCode ∨ Config.ceiling ≤ s.nextCode.toNat then .raised (s.raise .protocolInvariant)
  else if s.mode = .enc then
    (dictLookupSym w s).andThen fun r t =>
      match r with
      | some _ => .raised (t.raise .protocolInvariant)
      | none => .ok () (t.dictAppend w k)
  else .ok () (s.dictAppend w k)

/-- Whether a symbol is longer than a finite bound (00_scope.md R7, 60_exceptions.md R236). -/
def tooLong (bound : Option Nat) (w : Symbol) : Bool :=
  match bound with
  | none => false
  | some n => decide (n < w.length)

/-! ### Starting a stream -/

/-- `PackerInit()` (41_packer.md R131). -/
def State.packerInit (s : State) : State := { s with pkOdd := false, pkStage0 := 0, pkStage1 := 0 }

/-- `UnpackerInit()` (41_packer.md R137). -/
def State.unpackerInit (s : State) : State := { s with upFill := .zero, upHold0 := 0, upHold1 := 0 }

/-- The writes of `StreamStart(m)` that no other operation makes (70_reset_and_hazards.md R251). `encSCode`,
`decPriorCode` and `decPriorSym` are left as they are (10_state.md R42; log 6). -/
def State.openStream (m : Mode) (s : State) : State :=
  { s with mode := m, fault := .none, outBytes := [], outCodes := [], encS := [], decHavePrior := false }

/-- `StreamStart(m)`: the whole of every START command (70_reset_and_hazards.md R251). -/
def streamStart (m : Mode) (s : State) : State :=
  (s.openStream m).dictReset.packerInit.unpackerInit

end Sys2Proof.Machine
end

