-- ==== Sys2Proof/Machine/Packer.lean ====
section
/-!
DEFINITION. The Bit Packer's internal functions and the six commands that drive it alone, in modes PK and UP
(spec/41_packer.md).
-/
namespace Sys2Proof.Machine

/-- The first code of a pair is staged and nothing is written (41_packer.md R132). -/
def State.packFirst (k : Code) (s : State) : State :=
  { s with pkStage0 := firstByte0 k, pkStage1 := firstByte1 k, pkOdd := true }

/-- `Pack(k)`: staged at even parity (41_packer.md R132); at odd parity the three bytes of the unit are written, in order,
and the packer is cleared after the last of them (41_packer.md R133). -/
def pack (k : Code) (s : State) : Eff Unit :=
  if s.pkOdd then
    (outSeq [s.pkStage0, secondByte1 s.pkStage1 k, secondByte2 k] s).andThen fun _ t => .ok () t.packerInit
  else .ok () (s.packFirst k)

/-- `Flush()`: conditioned on the parity alone (41_packer.md R134, 70_reset_and_hazards.md R257). -/
def flush (s : State) : Eff Unit :=
  if s.pkOdd then (outSeq [s.pkStage0, s.pkStage1] s).andThen fun _ t => .ok () t.packerInit
  else .ok () s

/-- The code, if any, that the byte `b` completes (41_packer.md R138). -/
def unpackCode (b : Byte) (s : State) : Option Code :=
  match s.upFill with
  | .zero => none
  | .one => some (firstCode s.upHold0 b)
  | .two => some (secondCode s.upHold1 b)

/-- The unpacker's registers after the byte `b` (41_packer.md R138). -/
def State.unpackNext (b : Byte) (s : State) : State :=
  match s.upFill with
  | .zero => { s with upHold0 := b, upFill := .one }
  | .one => { s with upHold1 := b, upFill := .two }
  | .two => s.unpackerInit

/-- `Unpack(b)`: its result with the state it leaves. It never raises (41_packer.md R138). -/
def unpack (b : Byte) (s : State) : Option Code × State := (unpackCode b s, s.unpackNext b)

/-- `UnpackEnd()`: the end of the stream reaching the unpacker (41_packer.md R139, 60_exceptions.md R222 (a), (b)). -/
def unpackEnd (s : State) : Eff Unit :=
  match s.upFill with
  | .zero => .ok () s
  | .one => .raised (s.raise .malformedStream)
  | .two => if tailPadding s.upHold1 = 0 then .ok () s else .raised (s.raise .malformedStream)

/-- `PK.START` (41_packer.md R141). -/
def execPkStart (s : State) : Host.Outcome State Fault Refusal := .next (streamStart .pk s)

/-- `PK.CODE k` (41_packer.md R142). -/
def execPkCode (k : Code) (s : State) : Host.Outcome State Fault Refusal :=
  acceptIn .pk s (pack k s).finish

/-- `PK.FLUSH` (41_packer.md R143). -/
def execPkFlush (s : State) : Host.Outcome State Fault Refusal :=
  acceptIn .pk s ((flush s).andThen fun _ t => .ok () t.finishStream).finish

/-- `UP.START` (41_packer.md R144). -/
def execUpStart (s : State) : Host.Outcome State Fault Refusal := .next (streamStart .up s)

/-- `UP.BYTE b`: a completed code goes to `outCodes`; none is rejected (41_packer.md R145). -/
def execUpByte (b : Byte) (s : State) : Host.Outcome State Fault Refusal :=
  acceptIn .up s
    (match unpack b s with
      | (none, t) => Eff.ok () t
      | (some k, t) => outCode k t).finish

/-- `UP.END` (41_packer.md R146). -/
def execUpEnd (s : State) : Host.Outcome State Fault Refusal :=
  acceptIn .up s ((unpackEnd s).andThen fun _ t => .ok () t.finishStream).finish

end Sys2Proof.Machine
end

