-- ==== Sys2Proof/Machine/Decoder.lean ====
section
/-!
DEFINITION. The decoder state machine: DEC.START, DEC.BYTE, DEC.END, and the decoding of one code (spec/43_decoder.md).
-/
namespace Sys2Proof.Machine

/-- What a code decodes to: the symbol to emit, and the entry to insert, if the code is not the stream's first. -/
structure Decoded where
  /-- the code's symbol -/
  cur : Symbol
  /-- the entry the encoder made one step earlier; none for the first code -/
  new : Option Symbol
deriving DecidableEq, Repr

/-- The first code of a stream must be a base code; its symbol is read from the table and nothing is inserted
(43_decoder.md R193). An absent entry would break R39 I2, which is checked (60_exceptions.md R223; log 11). -/
def decodeFirst (k : Code) (s : State) : Eff Decoded :=
  if Config.baseSize ≤ k.toNat then .raised (s.raise .malformedStream)
  else
    match s.dict.read k.toNat with
    | some cur => .ok { cur := cur, new := none } s
    | none => .raised (s.raise .protocolInvariant)

/-- `Present(k)` (43_decoder.md R195). An absent or empty entry would break R39 I1, I2 or I4, which is checked
(60_exceptions.md R223; log 11). -/
def decodePresent (k : Code) (s : State) : Eff Decoded :=
  (dictLookupCode k.toNat s).andThen fun r t =>
    match r with
    | some (b :: w) => .ok { cur := b :: w, new := some (t.decPriorSym ++ [b]) } t
    | some [] => .raised (t.raise .protocolInvariant)
    | none => .raised (t.raise .protocolInvariant)

/-- `AboutToBeCreated()` (43_decoder.md R196). An empty prior symbol would break R39 I8, which is checked
(60_exceptions.md R223; log 11). -/
def decodeAboutToBeCreated (s : State) : Eff Decoded :=
  match s.decPriorSym with
  | b :: w => .ok { cur := b :: w ++ [b], new := some (b :: w ++ [b]) } s
  | [] => .raised (s.raise .protocolInvariant)

/-- A later code, classified against the table as it stands after the ceiling check (30_encoding.md R71,
43_decoder.md R194, R197). -/
def decodeLater (k : Code) (s : State) : Eff Decoded :=
  if k.toNat < s.nextCode.toNat then decodePresent k s
  else if k.toNat = s.nextCode.toNat then decodeAboutToBeCreated s
  else .raised (s.raise .malformedStream)

/-- The checks of a code and its symbols, before any insertion or output: the first-code rule, or the ceiling check and
then the classification (43_decoder.md R193, R194; the order is 70_reset_and_hazards.md R258). -/
def decodeSymbols (k : Code) (s : State) : Eff Decoded :=
  if s.decHavePrior then decodeLater k (dictCeilingCheck s) else decodeFirst k s

/-- The decoder's registers after a code (10_state.md R33, R34). -/
def State.setPrior (k : Code) (cur : Symbol) (s : State) : State :=
  { s with decPriorCode := k, decPriorSym := cur, decHavePrior := true }

/-- The insertion that decoding a later code makes (43_decoder.md R194). -/
def decodeInsert (new : Option Symbol) (s : State) : Eff Unit :=
  match new with
  | none => .ok () s
  | some w => dictInsert w s.nextCode s

/-- `DecodeCode(k)`: checks, insertion, output, registers, in that order (43_decoder.md R193, R194). -/
def decodeCode (k : Code) (s : State) : Eff Unit :=
  (decodeSymbols k s).andThen fun d t =>
    (decodeInsert d.new t).andThen fun _ u =>
      (outSeq d.cur u).andThen fun _ v => .ok () (v.setPrior k d.cur)

/-- Whether decoding `k` would hold a symbol beyond the bound: its `cur` or its `new` (60_exceptions.md R236,
43_decoder.md R201; log 15). -/
def decodeTooLong (bound : Option Nat) (k : Code) (s : State) : Bool :=
  match decodeSymbols k s with
  | .ok d _ => tooLong bound d.cur || d.new.any (tooLong bound)
  | .raised _ => false

/-- `DEC.BYTE b` under a symbol bound: refused whole when the code that `b` completes would hold a symbol that is too long
(43_decoder.md R192, 60_exceptions.md R230 (1), R236). -/
def decByteWithin (bound : Option Nat) (b : Byte) (s : State) : Host.Outcome State Fault Refusal :=
  acceptIn .dec s
    (match unpack b s with
      | (none, t) => .next t
      | (some k, t) => if decodeTooLong bound k t then .next s.refuse else (decodeCode k t).finish)

/-- `DEC.START` (43_decoder.md R191). -/
def execDecStart (s : State) : Host.Outcome State Fault Refusal := .next (streamStart .dec s)

/-- `DEC.BYTE b` (43_decoder.md R192), with the configured symbol bound (00_scope.md R7). -/
def execDecByte (b : Byte) (s : State) : Host.Outcome State Fault Refusal :=
  decByteWithin Config.maxSymbolBytes b s

/-- `DEC.END` (43_decoder.md R198). -/
def execDecEnd (s : State) : Host.Outcome State Fault Refusal :=
  acceptIn .dec s ((unpackEnd s).andThen fun _ t => .ok () t.finishStream).finish

end Sys2Proof.Machine
end

