-- ==== Sys2Proof/Machine/Encoder.lean ====
section
/-!
DEFINITION. The encoder state machine: ENC.START, ENC.BYTE, ENC.END (spec/42_encoder.md).
-/
namespace Sys2Proof.Machine

/-- The encoder's registers: the prefix and its code (10_state.md R26, R27). -/
def State.setPrefix (w : List Byte) (k : Code) (s : State) : State := { s with encS := w, encSCode := k }

/-- The mismatch branch of `ENC.BYTE c`: emit the code of the prefix, then the ceiling check, then insert `w` at
`nextCode`, then start a new prefix at `c` (42_encoder.md R162; the order is 70_reset_and_hazards.md R260). -/
def encMismatch (c : Byte) (w : Symbol) (s : State) : Eff Unit :=
  (pack s.encSCode s).andThen fun _ t =>
    let u := dictCeilingCheck t
    (dictInsert w u.nextCode u).andThen fun _ v => .ok () (v.setPrefix [c] (codeOfByte c))

/-- One step of the longest-match walk (42_encoder.md R162). -/
def encWalk (c : Byte) (s : State) : Eff Unit :=
  let w := s.encS ++ [c]
  (dictLookupSym w s).andThen fun r t =>
    match r with
    | some k => .ok () (t.setPrefix w k)
    | none => encMismatch c w t

/-- `ENC.BYTE c` under a symbol bound: refused whole when `s ++ [c]` is too long (42_encoder.md R162 (d),
60_exceptions.md R230 (1), R236). -/
def encByteWithin (bound : Option Nat) (c : Byte) (s : State) : Host.Outcome State Fault Refusal :=
  acceptIn .enc s (if tooLong bound (s.encS ++ [c]) then .next s.refuse else (encWalk c s).finish)

/-- The final prefix's code, if there is a prefix (42_encoder.md R164). -/
def encLast (s : State) : Eff Unit := if s.encS = [] then .ok () s else pack s.encSCode s

/-- `ENC.START` (42_encoder.md R161). -/
def execEncStart (s : State) : Host.Outcome State Fault Refusal := .next (streamStart .enc s)

/-- `ENC.BYTE c` (42_encoder.md R162), with the configured symbol bound (00_scope.md R7). -/
def execEncByte (c : Byte) (s : State) : Host.Outcome State Fault Refusal :=
  encByteWithin Config.maxSymbolBytes c s

/-- `ENC.END` (42_encoder.md R164). -/
def execEncEnd (s : State) : Host.Outcome State Fault Refusal :=
  acceptIn .enc s
    ((encLast s).andThen fun _ t => (flush t).andThen fun _ u => .ok () u.finishStream).finish

end Sys2Proof.Machine
end

