-- ==== Sys2Proof/Syntax.lean ====
section
/-!
DEFINITION. The commands: one constructor per row of spec/opcode_table.json, in the table's order
(spec/30_encoding.md R81, R82).
-/
namespace Sys2Proof

/-- A command of the block. A reserved opcode spells no command (30_encoding.md R83); its rows are constructors so that
the machine refuses each by name, and they carry the twelve ARG bits so that no bit of the word is dropped (log 4). -/
inductive Instr where
  /-- `ENC.START` (42_encoder.md R161) -/
  | encStart
  /-- `ENC.BYTE c` (42_encoder.md R162) -/
  | encByte (c : Byte)
  /-- `ENC.END` (42_encoder.md R164) -/
  | encEnd
  /-- `DEC.START` (43_decoder.md R191) -/
  | decStart
  /-- `DEC.BYTE b` (43_decoder.md R192) -/
  | decByte (b : Byte)
  /-- `DEC.END` (43_decoder.md R198) -/
  | decEnd
  /-- `PK.START` (41_packer.md R141) -/
  | pkStart
  /-- `PK.CODE k` (41_packer.md R142) -/
  | pkCode (k : Code)
  /-- `PK.FLUSH` (41_packer.md R143) -/
  | pkFlush
  /-- `UP.START` (41_packer.md R144) -/
  | upStart
  /-- `UP.BYTE b` (41_packer.md R145) -/
  | upByte (b : Byte)
  /-- `UP.END` (41_packer.md R146) -/
  | upEnd
  /-- reserved opcode 0x0 (30_encoding.md R83) -/
  | reserved0 (arg : BitVec 12)
  /-- reserved opcode 0x7 (30_encoding.md R83) -/
  | reserved7 (arg : BitVec 12)
  /-- reserved opcode 0xB (30_encoding.md R83) -/
  | reservedB (arg : BitVec 12)
  /-- reserved opcode 0xF (30_encoding.md R83) -/
  | reservedF (arg : BitVec 12)
deriving DecidableEq, Repr

end Sys2Proof
end

