-- ==== Sys2Proof/WellFormed.lean ====
section
/-!
DEFINITION. Which terms of `Instr` are commands (spec/30_encoding.md R83, R85).
-/
namespace Sys2Proof

/-- The operands are typed at the width the spec gives them (R82), so the one thing left to check is that the opcode is
not one of the four reserved ones, which spell no command (30_encoding.md R83). The well-formed terms are the 4872 legal
words of R85. -/
def Instr.wellFormed : Instr → Bool
  | .encStart => true
  | .encByte _ => true
  | .encEnd => true
  | .decStart => true
  | .decByte _ => true
  | .decEnd => true
  | .pkStart => true
  | .pkCode _ => true
  | .pkFlush => true
  | .upStart => true
  | .upByte _ => true
  | .upEnd => true
  | .reserved0 _ => false
  | .reserved7 _ => false
  | .reservedB _ => false
  | .reservedF _ => false

end Sys2Proof
end

