-- ==== Sys2Proof/Decode.lean ====
section
/-!
DEFINITION. The command interface's encoding: decoder, total on every 16-bit word, and the encoder written from the same
map (spec/30_encoding.md R80 to R87).
-/
namespace Sys2Proof

/-- Why a word is no row of the opcode map. -/
inductive DecodeError where
  /-- An operand bit that the command does not use is not 0 (30_encoding.md R84). -/
  | reservedOperandBits (w : CmdWord)
deriving DecidableEq, Repr

/-- `OP = cmd[15:12]` (30_encoding.md R80). -/
def opField (w : CmdWord) : BitVec 4 := w.extractLsb' 12 4

/-- `ARG = cmd[11:0]` (30_encoding.md R80). -/
def argField (w : CmdWord) : BitVec 12 := w.extractLsb' 0 12

/-- The operand `ARG[7:0]` of a `*.BYTE` command (30_encoding.md R82). -/
def argByte (arg : BitVec 12) : Byte := arg.extractLsb' 0 8

/-- `ARG[11:8]`, which must be 0 in a `*.BYTE` command (30_encoding.md R81, R84). -/
def argHigh (arg : BitVec 12) : BitVec 4 := arg.extractLsb' 8 4

/-- A command without an operand: legal when ARG is 0 (30_encoding.md R81, R84). -/
def decodeBare (i : Instr) (w : CmdWord) : Except DecodeError Instr :=
  if argField w = 0 then .ok i else .error (.reservedOperandBits w)

/-- A command with a byte operand: legal when `ARG[11:8]` is 0 (30_encoding.md R81, R84). -/
def decodeByteOp (mk : Byte → Instr) (w : CmdWord) : Except DecodeError Instr :=
  if argHigh (argField w) = 0 then .ok (mk (argByte (argField w))) else .error (.reservedOperandBits w)

/-- The opcode map (30_encoding.md R81). -/
def decode (w : CmdWord) : Except DecodeError Instr :=
  match (opField w).toNat with
  | 0x0 => .ok (.reserved0 (argField w))
  | 0x1 => decodeBare .encStart w
  | 0x2 => decodeByteOp .encByte w
  | 0x3 => decodeBare .encEnd w
  | 0x4 => decodeBare .decStart w
  | 0x5 => decodeByteOp .decByte w
  | 0x6 => decodeBare .decEnd w
  | 0x7 => .ok (.reserved7 (argField w))
  | 0x8 => decodeBare .pkStart w
  | 0x9 => .ok (.pkCode (argField w))
  | 0xA => decodeBare .pkFlush w
  | 0xB => .ok (.reservedB (argField w))
  | 0xC => decodeBare .upStart w
  | 0xD => decodeByteOp .upByte w
  | 0xE => decodeBare .upEnd w
  | _ => .ok (.reservedF (argField w))

/-- The opcode of a command (30_encoding.md R81). -/
def Instr.opcode : Instr → BitVec 4
  | .reserved0 _ => 0x0
  | .encStart => 0x1
  | .encByte _ => 0x2
  | .encEnd => 0x3
  | .decStart => 0x4
  | .decByte _ => 0x5
  | .decEnd => 0x6
  | .reserved7 _ => 0x7
  | .pkStart => 0x8
  | .pkCode _ => 0x9
  | .pkFlush => 0xA
  | .reservedB _ => 0xB
  | .upStart => 0xC
  | .upByte _ => 0xD
  | .upEnd => 0xE
  | .reservedF _ => 0xF

/-- The ARG of a command: its operand, zero-extended; 0 where it has none (30_encoding.md R82). -/
def Instr.arg : Instr → BitVec 12
  | .encByte c => c.zeroExtend 12
  | .decByte b => b.zeroExtend 12
  | .upByte b => b.zeroExtend 12
  | .pkCode k => k
  | .reserved0 a => a
  | .reserved7 a => a
  | .reservedB a => a
  | .reservedF a => a
  | .encStart => 0
  | .encEnd => 0
  | .decStart => 0
  | .decEnd => 0
  | .pkStart => 0
  | .pkFlush => 0
  | .upStart => 0
  | .upEnd => 0

/-- `word = (OP << 12) | ARG` (30_encoding.md R87). -/
def encode (i : Instr) : CmdWord :=
  (i.opcode.zeroExtend 16 <<< 12) ||| i.arg.zeroExtend 16

/-- The word of a row of spec/opcode_table.json whose bits are `w`: every command is one 16-bit word (30_encoding.md R80),
so bits at and above `nbits` are 0 and nothing lies above bit 15. -/
def tableWord (nbits w : Nat) : CmdWord := BitVec.ofNat 16 (w % 2 ^ nbits)

/-- What the decoder reads from a table row's word. -/
def decodeTableWord (nbits w : Nat) : Option Instr :=
  match decode (tableWord nbits w) with
  | .ok i => some i
  | .error _ => none

end Sys2Proof
end

