-- ==== Sys2Proof/Machine/Interface.lean ====
section
/-!
DEFINITION. The command interface's side of a step: taking the host's next event, the `io_fail` event, words that spell no
command, and the reserved opcodes (spec/30_encoding.md R80, R83, R84; spec/60_exceptions.md R226, R235, R240).
-/
namespace Sys2Proof.Machine

/-- The host's next event and the state once it is taken; none when the host has issued nothing (log 1, log 2). -/
def State.takeEvent (s : State) : Option (HostEvent × State) :=
  match s.pending with
  | [] => none
  | e :: rest => some (e, { s with pending := rest })

/-- `io_fail`: raises IOFailure in ENC, DEC, PK and UP; no effect in IDLE, DONE and FAULT (60_exceptions.md R226). -/
def ioFail (s : State) : State :=
  match s.mode with
  | .idle => s
  | .enc => s.raise .ioFailure
  | .dec => s.raise .ioFailure
  | .pk => s.raise .ioFailure
  | .up => s.raise .ioFailure
  | .done => s
  | .fault => s

/-- A word with a reserved operand bit set spells no command and is refused (30_encoding.md R84, 60_exceptions.md R235). -/
def refuseWord (_ : DecodeError) (s : State) : Host.Outcome State Fault Refusal := .next s.refuse

/-- Reserved opcode 0x0: refused in every mode (30_encoding.md R83, 60_exceptions.md R235). -/
def execReserved0 (_ : BitVec 12) (s : State) : Host.Outcome State Fault Refusal := .next s.refuse

/-- Reserved opcode 0x7: refused in every mode (30_encoding.md R83, 60_exceptions.md R235). -/
def execReserved7 (_ : BitVec 12) (s : State) : Host.Outcome State Fault Refusal := .next s.refuse

/-- Reserved opcode 0xB: refused in every mode (30_encoding.md R83, 60_exceptions.md R235). -/
def execReservedB (_ : BitVec 12) (s : State) : Host.Outcome State Fault Refusal := .next s.refuse

/-- Reserved opcode 0xF: refused in every mode (30_encoding.md R83, 60_exceptions.md R235). -/
def execReservedF (_ : BitVec 12) (s : State) : Host.Outcome State Fault Refusal := .next s.refuse

/-- The host issues a command word next: it goes to the head of the queue (log 1). -/
def State.issue (w : CmdWord) (s : State) : State := { s with pending := .command w :: s.pending }

end Sys2Proof.Machine
end

