-- ==== Sys2Proof/Machine/Dispatch.lean ====
section
/-!
DEFINITION. One arm per command: which meaning it has.
-/
namespace Sys2Proof.Machine

def exec (i : Instr) (s : State) : Host.Outcome State Fault Refusal :=
  match i with
  | .encStart => Sys2Proof.Machine.execEncStart s
  | .encByte c => Sys2Proof.Machine.execEncByte c s
  | .encEnd => Sys2Proof.Machine.execEncEnd s
  | .decStart => Sys2Proof.Machine.execDecStart s
  | .decByte b => Sys2Proof.Machine.execDecByte b s
  | .decEnd => Sys2Proof.Machine.execDecEnd s
  | .pkStart => Sys2Proof.Machine.execPkStart s
  | .pkCode k => Sys2Proof.Machine.execPkCode k s
  | .pkFlush => Sys2Proof.Machine.execPkFlush s
  | .upStart => Sys2Proof.Machine.execUpStart s
  | .upByte b => Sys2Proof.Machine.execUpByte b s
  | .upEnd => Sys2Proof.Machine.execUpEnd s
  | .reserved0 arg => Sys2Proof.Machine.execReserved0 arg s
  | .reserved7 arg => Sys2Proof.Machine.execReserved7 arg s
  | .reservedB arg => Sys2Proof.Machine.execReservedB arg s
  | .reservedF arg => Sys2Proof.Machine.execReservedF arg s

end Sys2Proof.Machine
end

