-- ==== Sys2Proof/Machine/Step.lean ====
section
/-!
DEFINITION. One step of the machine: the host's next event, taken and carried out (spec/00_scope.md R8,
spec/30_encoding.md R91).
-/
namespace Sys2Proof.Machine

/-- One step. With no event the block holds its state (60_exceptions.md R240; log 2). `io_fail` is a step of its own
(R226). A command word is decoded and carried out; one that spells no command is refused (R235). -/
def step (s : State) : Host.Outcome State Fault Refusal :=
  match s.takeEvent with
  | none => .next s
  | some (.ioFail, t) => .next (ioFail t)
  | some (.command w, t) =>
    match decode w with
    | .ok i => exec i t
    | .error e => refuseWord e t

/-- The host issues the table word as its next command. -/
def State.withFetchWord (s : State) (nbits w : Nat) : State := s.issue (tableWord nbits w)

end Sys2Proof.Machine
end

