-- ==== Sys2Proof/Machine/Pseudo.lean ====
section
/-!
DEFINITION. The pseudo-instructions as command sequences, and the source's two operations defined through them
(spec/30_encoding.md R90, R91).
-/
namespace Sys2Proof.Machine

/-- `COMPRESS x` (30_encoding.md R90). -/
def compressProgram (x : List Byte) : List CmdWord :=
  encode .encStart :: (x.map (fun c => encode (.encByte c)) ++ [encode .encEnd])

/-- `DECOMPRESS y` (30_encoding.md R90). -/
def decompressProgram (y : List Byte) : List CmdWord :=
  encode .decStart :: (y.map (fun b => encode (.decByte b)) ++ [encode .decEnd])

/-- `PACKCODES K` (30_encoding.md R90). -/
def packProgram (ks : List Code) : List CmdWord :=
  encode .pkStart :: (ks.map (fun k => encode (.pkCode k)) ++ [encode .pkFlush])

/-- `UNPACKBYTES y` (30_encoding.md R90). -/
def unpackProgram (y : List Byte) : List CmdWord :=
  encode .upStart :: (y.map (fun b => encode (.upByte b)) ++ [encode .upEnd])

/-- The host issues a finite sequence of command words next, in order (30_encoding.md R91). -/
def State.issueAll (ws : List CmdWord) (s : State) : State :=
  { s with pending := ws.map HostEvent.command ++ s.pending }

/-- `n` steps of the block. -/
def run (n : Nat) (s : State) : Host.Outcome State Fault Refusal := Host.Core.run Sys2Proof.core n s

/-- The block carries out a command sequence, one step each (30_encoding.md R91). No `io_fail` comes between them. -/
def runProgram (ws : List CmdWord) (s : State) : Host.Outcome State Fault Refusal :=
  run ws.length (s.issueAll ws)

/-- `compress(x)`: the value of `outBytes` after `COMPRESS x` runs (30_encoding.md R90). -/
def compress (x : List Byte) (s : State) : Option (List Byte) :=
  match runProgram (compressProgram x) s with
  | .next t => some t.outBytes
  | .fault _ => none
  | .refused _ => none

/-- `decompress(y)`: the value of `outBytes` after `DECOMPRESS y` runs, if it ends in DONE; else the stream's fault
(30_encoding.md R90). -/
def decompress (y : List Byte) (s : State) : Option (Except FaultCode (List Byte)) :=
  match runProgram (decompressProgram y) s with
  | .next t => some (if t.mode = .done then .ok t.outBytes else .error t.fault)
  | .fault _ => none
  | .refused _ => none

end Sys2Proof.Machine
end

