-- ==== Sys2Proof/Machine/Assembler.lean ====
section
/-!
DEFINITION. The assembler: a line of text to its command word or, for a pseudo-instruction, its command words, and a source
text to a host program (spec/30_encoding.md R86, R87, R90, R91). Where the spec leaves the text's form open: log 13.
-/
namespace Sys2Proof.Machine

/-- How a mnemonic takes its operand (30_encoding.md R81, R82). -/
inductive OperandForm where
  /-- no operand -/
  | bare
  /-- one byte operand -/
  | byte
  /-- one code operand -/
  | code
deriving DecidableEq, Repr

/-- A line's meaning. -/
inductive AsmLine where
  /-- nothing but white space and a comment -/
  | blank
  /-- one command -/
  | word (w : CmdWord)
  /-- not a command of 30_encoding.md R86 -/
  | bad
deriving DecidableEq, Repr

/-- The twelve mnemonics, letter for letter, with opcode and operand form (30_encoding.md R81). -/
def mnemonicTable : List (List Char × BitVec 4 × OperandForm) :=
  [(['E', 'N', 'C', '.', 'S', 'T', 'A', 'R', 'T'], 0x1, .bare),
   (['E', 'N', 'C', '.', 'B', 'Y', 'T', 'E'], 0x2, .byte),
   (['E', 'N', 'C', '.', 'E', 'N', 'D'], 0x3, .bare),
   (['D', 'E', 'C', '.', 'S', 'T', 'A', 'R', 'T'], 0x4, .bare),
   (['D', 'E', 'C', '.', 'B', 'Y', 'T', 'E'], 0x5, .byte),
   (['D', 'E', 'C', '.', 'E', 'N', 'D'], 0x6, .bare),
   (['P', 'K', '.', 'S', 'T', 'A', 'R', 'T'], 0x8, .bare),
   (['P', 'K', '.', 'C', 'O', 'D', 'E'], 0x9, .code),
   (['P', 'K', '.', 'F', 'L', 'U', 'S', 'H'], 0xA, .bare),
   (['U', 'P', '.', 'S', 'T', 'A', 'R', 'T'], 0xC, .bare),
   (['U', 'P', '.', 'B', 'Y', 'T', 'E'], 0xD, .byte),
   (['U', 'P', '.', 'E', 'N', 'D'], 0xE, .bare)]

/-- White space between the parts of a line: space and tab (log 13). -/
def isBlankChar (c : Char) : Bool := c.toNat = 32 || c.toNat = 9

/-- The quote of a character literal. -/
def isQuoteChar (c : Char) : Bool := c.toNat = 39

/-- The quote of a string literal. -/
def isStringChar (c : Char) : Bool := c.toNat = 34

/-- A text without the white space at its ends. -/
def trimBlanks (l : List Char) : List Char :=
  ((l.dropWhile isBlankChar).reverse.dropWhile isBlankChar).reverse

/-- A line without its comment: a `;` outside a character literal and a string literal starts one, and it runs to the end
of the line (30_encoding.md R86; log 13). `quoted` says whether a string literal is open. -/
def dropComment (quoted : Bool) : List Char → List Char
  | [] => []
  | a :: b :: c :: rest =>
    if !quoted && isQuoteChar a && isQuoteChar c then a :: b :: c :: dropComment quoted rest
    else if !quoted && a = ';' then []
    else a :: dropComment (if isStringChar a then !quoted else quoted) (b :: c :: rest)
  | a :: rest =>
    if !quoted && a = ';' then [] else a :: dropComment (if isStringChar a then !quoted else quoted) rest

/-- The value of a digit in a base up to 16; the letters of either case (log 13). -/
def digitValue (base : Nat) (c : Char) : Option Nat :=
  let n := c.toNat
  let v :=
    if 48 ≤ n ∧ n ≤ 57 then n - 48
    else if 97 ≤ n ∧ n ≤ 102 then n - 87
    else if 65 ≤ n ∧ n ≤ 70 then n - 55
    else base
  if v < base then some v else none

/-- A digit string in a base, most significant digit first. -/
def digitsValue (base : Nat) : Nat → List Char → Option Nat
  | acc, [] => some acc
  | acc, c :: rest =>
    match digitValue base c with
    | some v => digitsValue base (acc * base + v) rest
    | none => none

/-- A decimal number, or `0x` and a hexadecimal number (30_encoding.md R86). -/
def numberValue : List Char → Option Nat
  | [] => none
  | '0' :: 'x' :: c :: rest => digitsValue 16 0 (c :: rest)
  | c :: rest => digitsValue 10 0 (c :: rest)

/-- The largest operand of a form (30_encoding.md R82). -/
def operandMax : OperandForm → Nat
  | .bare => 0
  | .byte => 255
  | .code => 4095

/-- An operand's value: a number, or for a byte also a character literal meaning its ASCII code (30_encoding.md R86). A
value too large for its form is no operand (log 13). -/
def operandValue (f : OperandForm) (t : List Char) : Option Nat :=
  let v :=
    match f, t with
    | .byte, [a, c, b] =>
      if isQuoteChar a && isQuoteChar b then (if c.toNat < 128 then some c.toNat else none) else numberValue [a, c, b]
    | _, _ => numberValue t
  v.filter (fun n => decide (n ≤ operandMax f))

/-- A mnemonic's command word, from its operand text (30_encoding.md R86, R87). -/
def commandWord (op : BitVec 4) (f : OperandForm) (operand : List Char) : Option CmdWord :=
  match f with
  | .bare => if operand = [] then some (BitVec.ofNat 16 (op.toNat * 4096)) else none
  | .byte => (operandValue .byte operand).map fun v => BitVec.ofNat 16 (op.toNat * 4096 + v)
  | .code => (operandValue .code operand).map fun v => BitVec.ofNat 16 (op.toNat * 4096 + v)

/-- The parts of a line: its first word, and the rest without white space at its ends. -/
def lineParts (line : List Char) : List Char × List Char :=
  let t := trimBlanks (dropComment false line)
  (t.takeWhile fun c => !isBlankChar c, trimBlanks (t.dropWhile fun c => !isBlankChar c))

/-- One line of the assembler's source that is not a pseudo-instruction (30_encoding.md R86). -/
def assembleLine (line : List Char) : AsmLine :=
  let (m, operand) := lineParts line
  if m = [] then .blank
  else
    match mnemonicTable.find? (fun r => r.1 = m) with
    | none => .bad
    | some (_, op, f) =>
      match commandWord op f operand with
      | some w => .word w
      | none => .bad

/-! ### Pseudo-instructions and programs -/

/-- A text cut at its commas, but not inside a character literal. `cur` is the part being read. -/
def splitCommas : List Char → List Char → List (List Char)
  | cur, [] => [cur]
  | cur, a :: b :: c :: rest =>
    if isQuoteChar a && isQuoteChar c then splitCommas (cur ++ [a, b, c]) rest
    else if a = ',' then cur :: splitCommas [] (b :: c :: rest)
    else splitCommas (cur ++ [a]) (b :: c :: rest)
  | cur, a :: rest => if a = ',' then cur :: splitCommas [] rest else splitCommas (cur ++ [a]) rest

/-- The sequence operand of a pseudo-instruction: `[x0, ..., xn-1]`, or for bytes a string literal of ASCII characters
(30_encoding.md R90; log 13). -/
def sequenceValue (f : OperandForm) (t : List Char) : Option (List Nat) :=
  match t with
  | [] => none
  | a :: rest =>
    match rest.reverse with
    | [] => none
    | z :: mid =>
      let body := mid.reverse
      if a = '[' ∧ z = ']' then
        if trimBlanks body = [] then some []
        else (splitCommas [] body).mapM fun item => operandValue f (trimBlanks item)
      else if f = .byte ∧ isStringChar a = true ∧ isStringChar z = true then
        body.mapM fun c => if c.toNat < 128 ∧ isStringChar c = false then some c.toNat else none
      else none

/-- A pseudo-instruction's expansion (30_encoding.md R90); none where the line is not one. -/
def expandLine (line : List Char) : Option (List CmdWord) :=
  let (m, operand) := lineParts line
  if m = ['C', 'O', 'M', 'P', 'R', 'E', 'S', 'S'] then
    (sequenceValue .byte operand).map fun x => compressProgram (x.map (BitVec.ofNat 8))
  else if m = ['D', 'E', 'C', 'O', 'M', 'P', 'R', 'E', 'S', 'S'] then
    (sequenceValue .byte operand).map fun y => decompressProgram (y.map (BitVec.ofNat 8))
  else if m = ['P', 'A', 'C', 'K', 'C', 'O', 'D', 'E', 'S'] then
    (sequenceValue .code operand).map fun ks => packProgram (ks.map (BitVec.ofNat 12))
  else if m = ['U', 'N', 'P', 'A', 'C', 'K', 'B', 'Y', 'T', 'E', 'S'] then
    (sequenceValue .byte operand).map fun y => unpackProgram (y.map (BitVec.ofNat 8))
  else none

/-- The command words of one line. -/
def lineWords (line : List Char) : Option (List CmdWord) :=
  match expandLine line with
  | some ws => some ws
  | none =>
    match assembleLine line with
    | .blank => some []
    | .word w => some [w]
    | .bad => none

/-- A source text to a host program: the words of its lines, in order (30_encoding.md R86, R90, R91). -/
def assemble (source : List (List Char)) : Option (List CmdWord) :=
  (source.mapM lineWords).map List.flatten

end Sys2Proof.Machine
end

