-- ==== Sys2Proof/Machine/Flags.lean ====
section
/-!
DEFINITION. STATUS and the numbers it shows (spec/10_state.md R21, R22, R31, R37, R40, R41).
-/
namespace Sys2Proof.Machine

/-- The number of a mode in STATUS (10_state.md R21, R40). -/
def modeBits : Mode → BitVec 3
  | .idle => 0
  | .enc => 1
  | .dec => 2
  | .pk => 3
  | .up => 4
  | .done => 5
  | .fault => 6

/-- The number of a fault (60_exceptions.md R221, 10_state.md R40). -/
def faultBits : FaultCode → BitVec 2
  | .none => 0
  | .ioFailure => 1
  | .malformedStream => 2
  | .protocolInvariant => 3

/-- The number of bytes the unpacker holds (10_state.md R31, R40). -/
def fillBits : Fill → BitVec 2
  | .zero => 0
  | .one => 1
  | .two => 2

/-- STATUS, bit 31 first: reserved [31:22], NEXT_CODE [21:9], DEC_PRIOR [8], UP_FILL [7:6], PK_ODD [5], FAULT [4:3],
MODE [2:0] (10_state.md R40); all 0 in IDLE (R41). The host reads it between steps, with no side effect. -/
def State.status (s : State) : BitVec 32 :=
  if s.mode = .idle then 0
  else
    0#10 ++ s.nextCode ++ BitVec.ofBool s.decHavePrior ++ fillBits s.upFill ++ BitVec.ofBool s.pkOdd ++
      faultBits s.fault ++ modeBits s.mode

end Sys2Proof.Machine
end

