-- ==== Sys2Proof/Machine/Wire.lean ====
section
/-!
DEFINITION. The wire format as the spec describes whole streams, without the packer's state: the bit string of a code
sequence, and the codes of a byte stream unit by unit (spec/20_memory.md R55 to R58; spec/30_encoding.md R72 to R76).
-/
namespace Sys2Proof.Machine

/-- `bits12(k)`: the 12 bits of `k` from bit 11 down to bit 0 (20_memory.md R56). -/
def bits12 (k : Code) : List Bool := (List.range 12).map k.getMsbD

/-- A byte from 8 bits, its first bit being its bit 7 (20_memory.md R56). -/
def byteOfBits (b7 b6 b5 b4 b3 b2 b1 b0 : Bool) : Byte :=
  BitVec.ofNat 8 (b7.toNat * 128 + b6.toNat * 64 + b5.toNat * 32 + b4.toNat * 16 + b3.toNat * 8 + b2.toNat * 4 +
    b1.toNat * 2 + b0.toNat)

/-- A bit string cut into bytes from the front (20_memory.md R56). -/
def cutBytes : List Bool → List Byte
  | b7 :: b6 :: b5 :: b4 :: b3 :: b2 :: b1 :: b0 :: rest => byteOfBits b7 b6 b5 b4 b3 b2 b1 b0 :: cutBytes rest
  | _ => []

/-- The packed byte stream of a code sequence: the codes' bits, then `0b0000` when their number is odd, cut into bytes
(20_memory.md R56). -/
def packedStream (ks : List Code) : List Byte :=
  cutBytes (ks.flatMap bits12 ++ if ks.length % 2 = 1 then [false, false, false, false] else [])

/-- The codes of a byte stream: every 3 bytes are a group of two codes, 2 bytes at the end are a tail when its padding
nibble is 0, and anything else is malformed (30_encoding.md R72 to R76 (a), (b)). -/
def streamCodes : List Byte → Option (List Code)
  | [] => some []
  | [_] => none
  | [b0, b1] => if b1.toNat % 16 = 0 then some [BitVec.ofNat 12 (b0.toNat * 16 + b1.toNat / 16)] else none
  | b0 :: b1 :: b2 :: rest =>
    (streamCodes rest).map fun ks =>
      BitVec.ofNat 12 (b0.toNat * 16 + b1.toNat / 16) :: BitVec.ofNat 12 (b1.toNat % 16 * 256 + b2.toNat) :: ks

end Sys2Proof.Machine
end

