-- ==== Sys2Proof/Safety.lean ====
section
/-!
DEFINITION. The terms claims use: the spec's invariants, the acceptance table, the sink premise, the end of a run
(spec/10_state.md R39; spec/30_encoding.md R81, R85; spec/60_exceptions.md R227, R241).
-/
namespace Sys2Proof.Machine

/-- The acceptance table, row by row (30_encoding.md R81). A reserved opcode is accepted in no mode (R83). -/
def accepts : Instr → Mode → Bool
  | .encStart, _ => true
  | .decStart, _ => true
  | .pkStart, _ => true
  | .upStart, _ => true
  | .encByte _, m => m = .enc
  | .encEnd, m => m = .enc
  | .decByte _, m => m = .dec
  | .decEnd, m => m = .dec
  | .pkCode _, m => m = .pk
  | .pkFlush, m => m = .pk
  | .upByte _, m => m = .up
  | .upEnd, m => m = .up
  | .reserved0 _, _ => false
  | .reserved7 _, _ => false
  | .reservedB _, _ => false
  | .reservedF _, _ => false

/-- The mode a START command begins; none for any other command (30_encoding.md R81, 70_reset_and_hazards.md R251). -/
def startMode : Instr → Option Mode
  | .encStart => some .enc
  | .decStart => some .dec
  | .pkStart => some .pk
  | .upStart => some .up
  | _ => none

/-- A stream is in flight: the modes in which `io_fail` has an effect (60_exceptions.md R226). -/
def Mode.inFlight (m : Mode) : Bool := m = .enc || m = .dec || m = .pk || m = .up

/-- The words of 30_encoding.md R85, by their bits. -/
def legalWord (w : CmdWord) : Bool :=
  w.toNat / 4096 = 0x9 || w.toNat / 256 = 0x20 || w.toNat / 256 = 0x50 || w.toNat / 256 = 0xD0 ||
    [0x1000, 0x3000, 0x4000, 0x6000, 0x8000, 0xA000, 0xC000, 0xE000].contains w.toNat

/-- A stream's run has ended (60_exceptions.md R241). -/
def State.ended (s : State) : Bool := s.mode = .done || s.mode = .fault

/-- The sink's answer to the `i`-th write from now, counting from 0 (60_exceptions.md R227; log 7). -/
def State.sinkAnswerAt (s : State) (i : Nat) : Bool :=
  match s.sinkAnswers[i]? with
  | some a => a
  | none => Config.sinkAccepts (s.sinkDraws + (i - s.sinkAnswers.length))

/-- The premise "no sink failure" for the next `n` writes (60_exceptions.md R227). -/
def State.SinkAccepts (n : Nat) (s : State) : Prop := ∀ i < n, s.sinkAnswerAt i = true

/-- The state once the sink's next `n` answers have been taken (log 7). -/
def State.sinkSkip (n : Nat) (s : State) : State :=
  { s with sinkAnswers := s.sinkAnswers.drop n, sinkDraws := s.sinkDraws + (n - s.sinkAnswers.length) }

/-- The invariants I1 to I8 of 10_state.md R39, with the canonical form of the table (log 9). DONE after ENC.END is a
state with no prior code, and I5 is stated in every such state (log 18). -/
structure State.Inv (s : State) : Prop where
  /-- the table is in canonical form -/
  canonical : s.dict.wf = true
  /-- I1 density -/
  density : ∀ k, (s.dict.read k).isSome = true ↔ k < s.nextCode.toNat
  /-- I2 base -/
  base : ∀ k, k < 256 → s.dict.read k = some [BitVec.ofNat 8 k]
  /-- I3 range -/
  range : 256 ≤ s.nextCode.toNat ∧ s.nextCode.toNat ≤ 4096
  /-- I4 entries -/
  entries : ∀ k w, 256 ≤ k → s.dict.read k = some w → 2 ≤ w.length
  /-- I5's second case: the encoder has no prior code, and ENC.END takes that to DONE (10_state.md R33) -/
  noPrior : s.mode = .enc → s.decHavePrior = false
  /-- I5 encoder injectivity, in ENC mode and in DONE after ENC.END: no two codes hold equal symbols -/
  injective : s.mode = .enc ∨ s.decHavePrior = false →
    ∀ j k w, s.dict.read j = some w → s.dict.read k = some w → j = k
  /-- I6 encoder prefix -/
  encoder : s.mode = .enc → s.encS ≠ [] →
    s.dict.read s.encSCode.toNat = some s.encS ∧ s.encSCode.toNat < s.nextCode.toNat
  /-- I7 packer, even parity -/
  packerEven : s.pkOdd = false → s.pkStage0 = 0 ∧ s.pkStage1 = 0
  /-- I7 packer, odd parity -/
  packerOdd : s.pkOdd = true → s.pkStage1.toNat % 16 = 0
  /-- I8 decoder -/
  decoder : s.mode = .dec → s.decHavePrior = true → s.decPriorSym ≠ []

end Sys2Proof.Machine
end

