-- ==== Sys2Proof/Certificates/Slice0/Obligations.lean ====
section
/-!
DEFINITION. The statements for the provers, from the numbered rules of spec/.
-/

open Sys2Proof Sys2Proof.Machine

/-! ### The command word -/

/-- Decoding an encoded command gives it back, for every command and every reserved row, with every operand bit
(30_encoding.md R80, R81, R82, R83, R87). -/
def Obligations.DecodeOfEncodeIsIdentity : Prop :=
  ∀ i : Instr, decode (encode i) = .ok i

/-- Every word has one meaning: what a word decodes to is encoded by that word and by no other (30_encoding.md R81, R87). -/
def Obligations.EncodeOfDecodeIsTheWord : Prop :=
  ∀ (w : CmdWord) (i : Instr), decode w = .ok i → encode i = w

/-- The legal words, by their bits, are exactly the words that decode to one of the twelve commands
(30_encoding.md R81, R83, R84, R85). -/
def Obligations.LegalWordsAreTheCommandWords : Prop :=
  ∀ w : CmdWord, legalWord w = true ↔ ∃ i, decode w = .ok i ∧ i.wellFormed = true

/-- Words written out from 30_encoding.md R86, R87 and from 95_test_vectors.md section 2.7. -/
def Obligations.SpecWordsDecode : Prop :=
  decode 0x2041 = .ok (.encByte 0x41) ∧ decode 0x9FA0 = .ok (.pkCode 4000) ∧ decode 0x5010 = .ok (.decByte 0x10) ∧
    decode 0xD0FF = .ok (.upByte 255) ∧ decode 0x3000 = .ok .encEnd ∧
    decode 0x2100 = .error (.reservedOperandBits 0x2100) ∧ decode 0x1001 = .error (.reservedOperandBits 0x1001)

/-- A word that spells no command, by its opcode or by its operand bits, only sets the refusal mark
(30_encoding.md R83, R84; 60_exceptions.md R235). -/
def Obligations.IllegalWordOnlySetsTheRefusalMark : Prop :=
  ∀ (s : State) (w : CmdWord) (rest : List HostEvent), s.pending = .command w :: rest → legalWord w = false →
    step s = .next { s with pending := rest, refused := true }

/-- Each reserved opcode completes in every mode by setting the refusal mark and nothing else
(30_encoding.md R83, 60_exceptions.md R235). -/
def Obligations.ReservedOpcodesAreRefused : Prop :=
  ∀ (arg : BitVec 12) (s : State),
    exec (.reserved0 arg) s = .next { s with refused := true } ∧
    exec (.reserved7 arg) s = .next { s with refused := true } ∧
    exec (.reservedB arg) s = .next { s with refused := true } ∧
    exec (.reservedF arg) s = .next { s with refused := true }

/-- Whatever an assembler source says, the words it stands for, its pseudo-instructions' expansions among them, are legal
command words (30_encoding.md R85, R86, R87, R90). -/
def Obligations.AssembledWordsAreLegal : Prop :=
  ∀ (source : List (List Char)) (ws : List CmdWord), assemble source = some ws → ∀ w ∈ ws, legalWord w = true

/-! ### The step -/

/-- When the host's next event is a word that decodes to `i`, the step takes it off the queue and is `exec i`, which
leaves the events still queued as they are; when it is `io_fail`, the step takes it off the queue and is that event
(30_encoding.md R80, R91, 60_exceptions.md R226; the queue is the model's own, log 1, log 12). -/
def Obligations.StepRunsTheDecodedCommand : Prop :=
  (∀ (s : State) (w : CmdWord) (rest : List HostEvent) (i : Instr),
    s.pending = .command w :: rest → decode w = .ok i →
      step s = exec i { s with pending := rest } ∧
      ∀ t, exec i { s with pending := rest } = .next t → t.pending = rest) ∧
  ∀ (s : State) (rest : List HostEvent),
    s.pending = .ioFail :: rest → step s = .next (ioFail { s with pending := rest })

/-- `io_fail` raises IOFailure in ENC, DEC, PK and UP and has no effect in IDLE, DONE and FAULT (60_exceptions.md R226). -/
def Obligations.IoFailRaisesOnlyInAStream : Prop :=
  ∀ s : State,
    ioFail s = if s.mode = .enc ∨ s.mode = .dec ∨ s.mode = .pk ∨ s.mode = .up then
        { s with fault := .ioFailure, mode := .fault }
      else s

/-- Between commands the block holds its state (60_exceptions.md R240; that a step with no event is such a moment is the
model's, log 2). -/
def Obligations.StepWithoutEventHoldsTheState : Prop :=
  ∀ s : State, s.pending = [] → step s = .next s

/-- No step stops: a command is refused, completes or raises one fault, and each has a next state
(60_exceptions.md R220, R225, R235). -/
def Obligations.EveryStepHasANextState : Prop :=
  ∀ s : State, ∃ t, step s = .next t

/-! ### Acceptance and refusal -/

/-- The acceptance table decides refusal: a command not accepted in the current mode sets the refusal mark and changes
nothing else, and an accepted one leaves the mark as it was (30_encoding.md R81; 60_exceptions.md R220, R235; with the
symbol bound unbounded, R236, log 8). -/
def Obligations.AcceptanceTableDecidesRefusal : Prop :=
  ∀ (i : Instr) (s : State),
    (accepts i s.mode = false → exec i s = .next { s with refused := true }) ∧
    (accepts i s.mode = true → ∃ t, exec i s = .next t ∧ t.refused = s.refused)

/-- The refusal mark is never cleared, not even by a START (10_state.md R23). -/
def Obligations.RefusalMarkIsNeverCleared : Prop :=
  ∀ s t : State, step s = .next t → s.refused = true → t.refused = true

/-- In FAULT a START is accepted: it clears the fault and opens its stream, as from any other mode; every other command is
refused, and `io_fail` has no effect, so the fault keeps its code (60_exceptions.md R228). -/
def Obligations.FaultIsStickyUntilAStart : Prop :=
  ∀ s : State, s.mode = .fault →
    (∀ (i : Instr) (m : Mode), startMode i = some m →
      ∃ t, exec i s = .next t ∧ t.mode = m ∧ t.fault = .none ∧ t.refused = s.refused ∧
        t.outBytes = [] ∧ t.outCodes = []) ∧
    (∀ i : Instr, startMode i = none → exec i s = .next { s with refused := true }) ∧
    ioFail s = s

/-! ### Power-on, START, STATUS -/

/-- The spec's power-on values: IDLE, no fault, not refused, empty outputs, STATUS 0; and only the four STARTs are accepted
there (70_reset_and_hazards.md R250, 10_state.md R41, R42). The other fields are unspecified there, and nothing here rests
on the values the model gives them (log 5). -/
def Obligations.PowerOnState : Prop :=
  State.reset.mode = .idle ∧ State.reset.fault = .none ∧ State.reset.refused = false ∧
    State.reset.outBytes = [] ∧ State.reset.outCodes = [] ∧ State.reset.status = 0 ∧
    ∀ i : Instr, if (startMode i).isSome then ∃ t, exec i State.reset = .next t ∧ t.refused = false
      else exec i State.reset = .next { State.reset with refused := true }

/-- Each START completes in every mode and is StreamStart: every per-stream field initialised, the base table built, and
everything else as it was (70_reset_and_hazards.md R251, 40_dictionary.md R101). -/
def Obligations.StartCommandsOpenAFreshStream : Prop :=
  ∀ (i : Instr) (m : Mode) (s : State), startMode i = some m →
    ∃ t, exec i s = .next t ∧ t.mode = m ∧ t.fault = .none ∧ t.outBytes = [] ∧ t.outCodes = [] ∧
      (∀ k, t.dict.read k = if k < 256 then some [BitVec.ofNat 8 k] else none) ∧ t.nextCode.toNat = 256 ∧
      t.pkOdd = false ∧ t.pkStage0 = 0 ∧ t.pkStage1 = 0 ∧ t.upFill = .zero ∧ t.upHold0 = 0 ∧ t.upHold1 = 0 ∧
      t.encS = [] ∧ t.decHavePrior = false ∧
      t.encSCode = s.encSCode ∧ t.decPriorCode = s.decPriorCode ∧ t.decPriorSym = s.decPriorSym ∧
      t.refused = s.refused ∧ t.pending = s.pending ∧ t.sinkAnswers = s.sinkAnswers ∧ t.sinkDraws = s.sinkDraws

/-- STATUS right after a START is `0x00020000 | mode`, from any state (10_state.md R42). -/
def Obligations.StatusAfterStart : Prop :=
  ∀ (i : Instr) (m : Mode) (s t : State), startMode i = some m → exec i s = .next t →
    t.status.toNat = 0x00020000 + (modeBits m).toNat

/-- STATUS: 0 in IDLE, whatever the per-stream fields hold; in every other mode each field stands at its position and the
reserved bits are 0 (10_state.md R40, R41). -/
def Obligations.StatusShowsTheFieldsOutsideIdle : Prop :=
  ∀ s : State, if s.mode = .idle then s.status = 0 else
    s.status.toNat % 8 = (modeBits s.mode).toNat ∧
    s.status.toNat / 2 ^ 3 % 4 = (faultBits s.fault).toNat ∧
    s.status.toNat / 2 ^ 5 % 2 = s.pkOdd.toNat ∧
    s.status.toNat / 2 ^ 6 % 4 = (fillBits s.upFill).toNat ∧
    s.status.toNat / 2 ^ 8 % 2 = s.decHavePrior.toNat ∧
    s.status.toNat / 2 ^ 9 % 2 ^ 13 = s.nextCode.toNat ∧
    s.status.toNat / 2 ^ 22 = 0

/-! ### The dictionary -/

/-- `DictReset`: the base table and nothing else, `nextCode` 256, every other field as it was; a second reset in a row
changes nothing (40_dictionary.md R101, R102). -/
def Obligations.DictResetBuildsTheBaseTable : Prop :=
  ∀ s : State, s.dictReset.nextCode.toNat = 256 ∧
    (∀ k, s.dictReset.dict.read k = if k < 256 then some [BitVec.ofNat 8 k] else none) ∧
    s.dictReset = { s with dict := s.dictReset.dict, nextCode := s.dictReset.nextCode } ∧
    s.dictReset.dictReset = s.dictReset

/-- The ceiling check resets exactly when `nextCode` is 4096, and else does nothing (40_dictionary.md R103). -/
def Obligations.CeilingCheckResetsOnlyAFullTable : Prop :=
  ∀ s : State, (s.nextCode.toNat = 4096 → dictCeilingCheck s = s.dictReset) ∧
    (s.nextCode.toNat ≠ 4096 → dictCeilingCheck s = s)

/-- `DictInsert(w, k)`: a violation when `k` is not `nextCode` or the table is full, or in ENC mode when the table already
holds `w`; otherwise `dict[k] = Some w`, every other entry as before, `nextCode` one higher, and nothing else written
(40_dictionary.md R104). The table is in canonical form (log 9). -/
def Obligations.DictInsertChecksAndWrites : Prop :=
  ∀ (w : Symbol) (k : BitVec 13) (s : State), s.dict.wf = true →
    if k ≠ s.nextCode ∨ 4096 ≤ s.nextCode.toNat ∨
        (s.mode = .enc ∧ ∃ j, j < s.nextCode.toNat ∧ s.dict.read j = some w) then
      dictInsert w k s = .raised { s with fault := .protocolInvariant, mode := .fault }
    else ∃ t, dictInsert w k s = .ok () t ∧ t.nextCode.toNat = s.nextCode.toNat + 1 ∧
      (∀ j, t.dict.read j = if j = k.toNat then some w else s.dict.read j) ∧
      t = { s with dict := t.dict, nextCode := t.nextCode }

/-- `DictLookupSym(w)`: by exact content over the codes below `nextCode`; none, the one code, or a violation
(40_dictionary.md R107). -/
def Obligations.DictLookupSymIsByContent : Prop :=
  ∀ (w : Symbol) (s : State), s.dict.wf = true →
    ((∀ j, j < s.nextCode.toNat → s.dict.read j ≠ some w) → dictLookupSym w s = .ok none s) ∧
    (∀ k : Code, k.toNat < s.nextCode.toNat → s.dict.read k.toNat = some w →
      (∀ j, j < s.nextCode.toNat → s.dict.read j = some w → j = k.toNat) → dictLookupSym w s = .ok (some k) s) ∧
    (∀ j k, j < k → k < s.nextCode.toNat → s.dict.read j = some w → s.dict.read k = some w →
      dictLookupSym w s = .raised { s with fault := .protocolInvariant, mode := .fault })

/-- `DictLookupCode(k)`: the entry of a code below `nextCode`, none for another 12-bit code, a violation beyond
(40_dictionary.md R108). -/
def Obligations.DictLookupCodeReadsBelowNextCode : Prop :=
  ∀ (k : Nat) (s : State),
    (4095 < k → dictLookupCode k s = .raised { s with fault := .protocolInvariant, mode := .fault }) ∧
    (k ≤ 4095 → k < s.nextCode.toNat → dictLookupCode k s = .ok (s.dict.read k) s) ∧
    (k ≤ 4095 → s.nextCode.toNat ≤ k → dictLookupCode k s = .ok none s)

/-- No entry below `nextCode` is rewritten or removed except by a reset to the base table, and a step inserts at most one
entry, at `nextCode` (40_dictionary.md R105, R106, R110). -/
def Obligations.EntriesChangeOnlyByResetOrOneInsertion : Prop :=
  ∀ s t : State, s.Inv → step s = .next t →
    (t.dict = s.dict ∧ t.nextCode = s.nextCode) ∨
    (s.nextCode.toNat < 4096 ∧ t.nextCode.toNat = s.nextCode.toNat + 1 ∧
      ∀ k, k ≠ s.nextCode.toNat → t.dict.read k = s.dict.read k) ∨
    ((s.nextCode.toNat = 4096 ∨ ∃ w rest i m, s.pending = .command w :: rest ∧ decode w = .ok i ∧ startMode i = some m) ∧
      t.nextCode.toNat = 256 ∧ ∀ k, t.dict.read k = if k < 256 then some [BitVec.ofNat 8 k] else none) ∨
    (s.nextCode.toNat = 4096 ∧ t.nextCode.toNat = 257 ∧
      ∀ k, k ≠ 256 → t.dict.read k = if k < 256 then some [BitVec.ofNat 8 k] else none)

/-! ### Invariants -/

/-- The invariants hold at power-on. The spec claims none before the first START: that they hold rests on the power-on
values the model chose (log 5). -/
def Obligations.InvariantsHoldAtPowerOn : Prop := State.reset.Inv

/-- Every step keeps the invariants I1 to I8, from every state that meets them (10_state.md R39). -/
def Obligations.InvariantsAreKeptByEveryStep : Prop :=
  ∀ s t : State, s.Inv → step s = .next t → t.Inv

/-- I5 in DONE after ENC.END: when ENC.END ends the stream, no two codes below `nextCode` hold equal symbols
(10_state.md R39 I5, 42_encoder.md R164). -/
def Obligations.InjectiveTableAfterEncEnd : Prop :=
  ∀ s t : State, s.Inv → s.mode = .enc → exec .encEnd s = .next t → t.mode = .done →
    ∀ (j k : Nat) (w : Symbol), j < t.nextCode.toNat → k < t.nextCode.toNat →
      t.dict.read j = some w → t.dict.read k = some w → j = k

/-- From a state that meets the invariants no step raises PROTOCOL_INVARIANT (60_exceptions.md R223). -/
def Obligations.ProtocolInvariantIsNeverRaised : Prop :=
  ∀ s t : State, s.Inv → step s = .next t → t.fault = .protocolInvariant → s.fault = .protocolInvariant

/-! ### The packer alone -/

/-- `Pack(k)` at even parity, in any mode, and so `PK.CODE k` in PK, completes by staging the code: its high 8 bits, its low
4 bits in a high nibble, and nothing written (41_packer.md R132, R142). -/
def Obligations.PkCodeStagesTheFirstCode : Prop :=
  ∀ (k : Code) (s : State), s.pkOdd = false →
    ∃ t, (s.mode = .pk → exec (.pkCode k) s = .next t) ∧ pack k s = .ok () t ∧ t.pkStage0.toNat = k.toNat / 16 ∧ t.pkStage1.toNat = k.toNat % 16 * 16 ∧
      t.pkOdd = true ∧ t = { s with pkStage0 := t.pkStage0, pkStage1 := t.pkStage1, pkOdd := t.pkOdd }

/-- `Pack(k)` at odd parity, in any mode, and so `PK.CODE k` in PK, with the sink accepting, completes by writing the unit
and clearing the packer (41_packer.md R133, R142; the staged low nibble is 0 by I7 of 10_state.md R39). -/
def Obligations.PkCodeWritesTheUnit : Prop :=
  ∀ (k : Code) (s : State), s.pkOdd = true → s.pkStage1.toNat % 16 = 0 → s.SinkAccepts 3 →
    ∃ (t : State) (b1 b2 : Byte), (s.mode = .pk → exec (.pkCode k) s = .next t) ∧ pack k s = .ok () t ∧
      b1.toNat = s.pkStage1.toNat + k.toNat / 256 ∧ b2.toNat = k.toNat % 256 ∧
      t = { s.sinkSkip 3 with
        outBytes := s.outBytes ++ [s.pkStage0, b1, b2], pkOdd := false, pkStage0 := 0, pkStage1 := 0 }

/-- `Flush()`, in any mode, with the sink accepting, writes the staged tail, if there is one, and clears the packer; and
so `PK.FLUSH` in PK, which then ends the stream (41_packer.md R134, R143). -/
def Obligations.PkFlushWritesTheTail : Prop :=
  ∀ s : State, (s.pkOdd = true → s.SinkAccepts 2) →
    ∃ t, (s.mode = .pk → exec .pkFlush s = .next { t with mode := .done }) ∧ flush s = .ok () t ∧
      t = if s.pkOdd = true then
          { s.sinkSkip 2 with
            outBytes := s.outBytes ++ [s.pkStage0, s.pkStage1], pkOdd := false, pkStage0 := 0, pkStage1 := 0 }
        else s

/-- `PK.CODE k` at odd parity with the first failing answer at write `m` leaves the first `m` bytes of the unit, raises
IOFailure, and keeps the packer as it was (60_exceptions.md R225, R227; 41_packer.md R133). -/
def Obligations.PkCodeSinkFailureLeavesTheFirstBytes : Prop :=
  ∀ (k : Code) (s : State) (m : Nat), s.mode = .pk → s.pkOdd = true → m < 3 → s.SinkAccepts m →
    s.sinkAnswerAt m = false →
    ∃ t, exec (.pkCode k) s = .next t ∧
      t.outBytes = s.outBytes ++ [s.pkStage0, secondByte1 s.pkStage1 k, secondByte2 k].take m ∧
      t = { s.sinkSkip (m + 1) with outBytes := t.outBytes, fault := .ioFailure, mode := .fault }

/-- `Unpack(b)` by the fill, in any mode: byte0 held; byte1 held and the first code returned; the second code returned and
the unpacker cleared. `UP.BYTE b` completes so in UP, with a returned code written (41_packer.md R138, R145). -/
def Obligations.UpByteDeliversTheCodes : Prop :=
  ∀ (b : Byte) (s : State),
    (s.upFill = .zero → ∃ t, t = { s with upHold0 := b, upFill := .one } ∧ unpack b s = (none, t) ∧
      (s.mode = .up → exec (.upByte b) s = .next t)) ∧
    (s.upFill = .one → ∃ (t : State) (k : Code), k.toNat = s.upHold0.toNat * 16 + b.toNat / 16 ∧
      t = { s with upHold1 := b, upFill := .two } ∧ unpack b s = (some k, t) ∧
      (s.mode = .up → s.SinkAccepts 1 →
        exec (.upByte b) s = .next { t.sinkSkip 1 with outCodes := s.outCodes ++ [k] })) ∧
    (s.upFill = .two → ∃ (t : State) (k : Code), k.toNat = s.upHold1.toNat % 16 * 256 + b.toNat ∧
      t = { s with upFill := .zero, upHold0 := 0, upHold1 := 0 } ∧ unpack b s = (some k, t) ∧
      (s.mode = .up → s.SinkAccepts 1 →
        exec (.upByte b) s = .next { t.sinkSkip 1 with outCodes := s.outCodes ++ [k] }))

/-- `UnpackEnd()`, in any mode: nothing on a unit boundary and on a tail with zero padding, MalformedStream one byte into a
unit and on a tail with non-zero padding. `UP.END` in UP and `DEC.END` in DEC complete so, and without a fault the stream
ends in DONE (41_packer.md R139, R146; 43_decoder.md R198; 60_exceptions.md R222 (a), (b)). -/
def Obligations.EndCommandsCheckTheLastUnit : Prop :=
  ∀ s : State,
    unpackEnd s = (if s.upFill = .zero ∨ (s.upFill = .two ∧ s.upHold1.toNat % 16 = 0) then .ok () s
      else .raised { s with fault := .malformedStream, mode := .fault }) ∧
    ∀ i : Instr, (i = .upEnd ∧ s.mode = .up) ∨ (i = .decEnd ∧ s.mode = .dec) →
      exec i s = .next (
        if s.upFill = .zero ∨ (s.upFill = .two ∧ s.upHold1.toNat % 16 = 0) then { s with mode := .done }
        else { s with fault := .malformedStream, mode := .fault })

/-! ### Whole streams of codes -/

/-- Packing a code sequence from any state, with the sink accepting, ends in DONE with exactly the whole-stream bytes:
the codes' bits, most significant first, then four zero bits when their number is odd
(41_packer.md R140, 20_memory.md R56). -/
def Obligations.PackingGivesTheWholeStream : Prop :=
  ∀ (ks : List Code) (s : State), s.SinkAccepts (2 * ks.length) →
    ∃ t, runProgram (packProgram ks) s = .next t ∧ t.mode = .done ∧ t.fault = .none ∧ t.outBytes = packedStream ks

/-- Unpacking a byte stream from any state, with the sink accepting, ends in DONE with the stream's codes when the stream
is well formed, and in FAULT with MALFORMED_STREAM when it is not (41_packer.md R138, R139; 30_encoding.md R76 (a), (b)). -/
def Obligations.UnpackingReadsTheUnits : Prop :=
  ∀ (y : List Byte) (s : State), s.SinkAccepts y.length →
    ∃ t, runProgram (unpackProgram y) s = .next t ∧
      match streamCodes y with
      | some ks => t.mode = .done ∧ t.fault = .none ∧ t.outCodes = ks
      | none => t.mode = .fault ∧ t.fault = .malformedStream

/-- Packing is a bijection between code sequences and the byte streams the unpacker accepts, and the length of what it
writes is fixed by the number of codes (41_packer.md R140, 20_memory.md R58). -/
def Obligations.PackingIsABijection : Prop :=
  (∀ ks : List Code, streamCodes (packedStream ks) = some ks) ∧
  (∀ (y : List Byte) (ks : List Code), streamCodes y = some ks → packedStream ks = y) ∧
  ∀ ks : List Code, (packedStream ks).length = 3 * (ks.length / 2) + 2 * (ks.length % 2)

/-! ### The encoder -/

/-- `ENC.BYTE c` with `s ++ [c]` in the table completes by extending the prefix, with no output; with an empty prefix it is
always there, under the byte's own code (42_encoder.md R162 and its corner case (a)). -/
def Obligations.EncByteExtendsAKnownSymbol : Prop :=
  ∀ (c : Byte) (s : State), s.Inv → s.mode = .enc →
    (∀ k : Code, s.dict.read k.toNat = some (s.encS ++ [c]) →
      exec (.encByte c) s = .next { s with encS := s.encS ++ [c], encSCode := k }) ∧
    (s.encS = [] → ∃ t, exec (.encByte c) s = .next t ∧ t.encSCode.toNat = c.toNat ∧
      t = { s with encS := [c], encSCode := t.encSCode })

/-- `ENC.BYTE c` with `s ++ [c]` not in the table, and the sink accepting, completes: `code(s)` is packed, a full table is
reset, `s ++ [c]` takes the next code, and the prefix becomes `c` (42_encoder.md R162, 40_dictionary.md R103, R104). -/
def Obligations.EncByteMismatchEmitsAndInserts : Prop :=
  ∀ (c : Byte) (s : State), s.Inv → s.mode = .enc → (∀ k, s.dict.read k ≠ some (s.encS ++ [c])) →
    (s.pkOdd = true → s.SinkAccepts 3) →
    ∃ t, exec (.encByte c) s = .next t ∧ t.encS = [c] ∧ t.encSCode.toNat = c.toNat ∧
      (if s.nextCode.toNat = 4096 then
        t.nextCode.toNat = 257 ∧ ∀ k, t.dict.read k =
          if k = 256 then some (s.encS ++ [c]) else if k < 256 then some [BitVec.ofNat 8 k] else none
       else
        t.nextCode.toNat = s.nextCode.toNat + 1 ∧
          ∀ k, t.dict.read k = if k = s.nextCode.toNat then some (s.encS ++ [c]) else s.dict.read k) ∧
      (if s.pkOdd = true then
        ∃ b1 b2 : Byte, b1.toNat = s.pkStage1.toNat + s.encSCode.toNat / 256 ∧ b2.toNat = s.encSCode.toNat % 256 ∧
          t = { s.sinkSkip 3 with
            outBytes := s.outBytes ++ [s.pkStage0, b1, b2], pkOdd := false, pkStage0 := 0, pkStage1 := 0,
            dict := t.dict, nextCode := t.nextCode, encS := t.encS, encSCode := t.encSCode }
       else
        t.pkStage0.toNat = s.encSCode.toNat / 16 ∧ t.pkStage1.toNat = s.encSCode.toNat % 16 * 16 ∧
          t = { s with
            pkOdd := true, pkStage0 := t.pkStage0, pkStage1 := t.pkStage1,
            dict := t.dict, nextCode := t.nextCode, encS := t.encS, encSCode := t.encSCode })

/-- `ENC.END`, with the sink accepting, completes: the final prefix's code is packed and the tail flushed, whatever the
parity, and the stream ends (42_encoder.md R164, 41_packer.md R134). -/
def Obligations.EncEndEmitsTheFinalPrefix : Prop :=
  ∀ s : State, s.Inv → s.mode = .enc → s.SinkAccepts 3 →
    ∃ (t : State) (p : List Byte), exec .encEnd s = .next t ∧
      t = { s.sinkSkip p.length with
        outBytes := s.outBytes ++ p, pkOdd := false, pkStage0 := 0, pkStage1 := 0, mode := .done } ∧
      (if s.encS = [] then p = if s.pkOdd = true then [s.pkStage0, s.pkStage1] else []
       else if s.pkOdd = true then
        ∃ b1 b2 : Byte, b1.toNat = s.pkStage1.toNat + s.encSCode.toNat / 256 ∧ b2.toNat = s.encSCode.toNat % 256 ∧
          p = [s.pkStage0, b1, b2]
       else
        ∃ b0 b1 : Byte, b0.toNat = s.encSCode.toNat / 16 ∧ b1.toNat = s.encSCode.toNat % 16 * 16 ∧ p = [b0, b1])

/-- Compressing one byte `b` from any state, with the sink accepting, writes the tail `[b >> 4, (b & 0xF) << 4]`
(42_encoder.md R166). -/
def Obligations.SingleByteCompressesToItsCode : Prop :=
  ∀ (b : Byte) (s : State), s.SinkAccepts 2 →
    ∃ t, runProgram (compressProgram [b]) s = .next t ∧ t.mode = .done ∧
      t.outBytes = [b >>> 4, (b &&& 0xF) <<< 4]

/-- Compressing ends in DONE with no fault, from any state, with the sink accepting; `m` codes were emitted with
`1 <= m <= n` (none for the empty input), their number fixes the output's length, and `m - 1` insertions fix `nextCode`
(42_encoder.md R165; 40_dictionary.md R105; 30_encoding.md R90). -/
def Obligations.CompressingCountsCodesAndInsertions : Prop :=
  ∀ (x : List Byte) (s : State), s.SinkAccepts (2 * x.length) →
    ∃ t, runProgram (compressProgram x) s = .next t ∧ t.mode = .done ∧ t.fault = .none ∧
      if x = [] then t.outBytes = []
      else ∃ m, 1 ≤ m ∧ m ≤ x.length ∧ t.outBytes.length = 3 * (m / 2) + 2 * (m % 2) ∧
        t.nextCode.toNat = if m = 1 then 256 else 257 + (m - 2) % 3840

/-! ### The decoder -/

/-- `DEC.BYTE b` at a unit boundary completes by holding byte0 (43_decoder.md R192, 41_packer.md R138). -/
def Obligations.DecByteHoldsTheFirstByte : Prop :=
  ∀ (b : Byte) (s : State), s.mode = .dec → s.upFill = .zero →
    exec (.decByte b) s = .next { s with upHold0 := b, upFill := .one }

/-- `DEC.BYTE b` completing a stream's first code, a base code, with the sink accepting: the byte it names is written, no
entry is inserted, and the code becomes the prior code (43_decoder.md R192, R193). -/
def Obligations.DecFirstCodeIsOutputVerbatim : Prop :=
  ∀ (b : Byte) (k : Code) (s : State), s.Inv → s.mode = .dec → s.decHavePrior = false → unpackCode b s = some k →
    k.toNat < 256 → s.SinkAccepts 1 →
    exec (.decByte b) s = .next { (s.unpackNext b).sinkSkip 1 with
      outBytes := s.outBytes ++ [BitVec.ofNat 8 k.toNat], decPriorCode := k,
      decPriorSym := [BitVec.ofNat 8 k.toNat], decHavePrior := true }

/-- `DEC.BYTE b` completing a later code that is present after the ceiling check, with the sink accepting: the prior
symbol and the code's first byte are inserted, and the code's symbol is written (43_decoder.md R194, R195). -/
def Obligations.DecPresentCodeInsertsAndEmits : Prop :=
  ∀ (b : Byte) (k : Code) (s : State) (cur : Symbol), s.Inv → s.mode = .dec → s.decHavePrior = true →
    unpackCode b s = some k → k.toNat < (dictCeilingCheck s).nextCode.toNat →
    (dictCeilingCheck s).dict.read k.toNat = some cur → s.SinkAccepts cur.length →
    ∃ t, exec (.decByte b) s = .next t ∧ t.outBytes = s.outBytes ++ cur ∧
      t.nextCode.toNat = (dictCeilingCheck s).nextCode.toNat + 1 ∧
      (∀ j, t.dict.read j = if j = (dictCeilingCheck s).nextCode.toNat then some (s.decPriorSym ++ cur.take 1)
        else (dictCeilingCheck s).dict.read j) ∧
      t = { (s.unpackNext b).sinkSkip cur.length with
        outBytes := t.outBytes, dict := t.dict, nextCode := t.nextCode, decPriorCode := k, decPriorSym := cur,
        decHavePrior := true }

/-- `DEC.BYTE b` completing the code about to be created, with the sink accepting: the prior symbol and its own first
byte are inserted and written (43_decoder.md R194, R196). -/
def Obligations.DecCodeAboutToBeCreated : Prop :=
  ∀ (b : Byte) (k : Code) (s : State), s.Inv → s.mode = .dec → s.decHavePrior = true →
    unpackCode b s = some k → k.toNat = (dictCeilingCheck s).nextCode.toNat →
    s.SinkAccepts (s.decPriorSym.length + 1) →
    ∃ (t : State) (cur : Symbol), cur = s.decPriorSym ++ s.decPriorSym.take 1 ∧
      exec (.decByte b) s = .next t ∧ t.outBytes = s.outBytes ++ cur ∧
      t.nextCode.toNat = (dictCeilingCheck s).nextCode.toNat + 1 ∧
      (∀ j, t.dict.read j = if j = (dictCeilingCheck s).nextCode.toNat then some cur
        else (dictCeilingCheck s).dict.read j) ∧
      t = { (s.unpackNext b).sinkSkip cur.length with
        outBytes := t.outBytes, dict := t.dict, nextCode := t.nextCode, decPriorCode := k, decPriorSym := cur,
        decHavePrior := true }

/-- `DEC.BYTE b` completing an underivable code, a first code of 256 or more or a later one above `nextCode` after the
ceiling check, raises MalformedStream with no insertion and no output (43_decoder.md R193, R197). -/
def Obligations.DecUnderivableCodeIsMalformed : Prop :=
  ∀ (b : Byte) (k : Code) (s : State), s.mode = .dec → unpackCode b s = some k →
    (s.decHavePrior = false → 256 ≤ k.toNat →
      exec (.decByte b) s = .next { s.unpackNext b with fault := .malformedStream, mode := .fault }) ∧
    (s.decHavePrior = true → (dictCeilingCheck s).nextCode.toNat < k.toNat →
      exec (.decByte b) s = .next { dictCeilingCheck (s.unpackNext b) with fault := .malformedStream, mode := .fault })

/-- The round trip: what compressing `x` writes, from any state, decompresses to `x`, from any state, each with the sink
accepting (00_scope.md R12, 43_decoder.md R199). -/
def Obligations.DecompressOfCompressIsIdentity : Prop :=
  ∀ (x : List Byte) (s u : State), s.SinkAccepts (2 * x.length) → u.SinkAccepts x.length →
    ∃ y, compress x s = some y ∧ decompress y u = some (.ok x)

/-- Symbol lengths: after DEC.START and `n` stream bytes, with any sink answers, at most `2n/3` codes have been completed,
and no entry above the base and no prior symbol is longer than that count (43_decoder.md R201). -/
def Obligations.DecodedSymbolsAreNoLongerThanTheCodeCount : Prop :=
  ∀ (y : List Byte) (s t : State),
    runProgram (encode .decStart :: y.map fun b => encode (.decByte b)) s = .next t →
      (∀ k w, 256 ≤ k → t.dict.read k = some w → w.length ≤ 2 * y.length / 3) ∧
      (t.decHavePrior = true → t.decPriorSym.length ≤ 2 * y.length / 3)

/-! ### Faults -/

/-- A command raises MalformedStream in exactly the four cases of 60_exceptions.md R222: (a) and (b) at an end command,
(c) and (d) at a decoder byte that completes a code. -/
def Obligations.MalformedStreamExactlyInFourCases : Prop :=
  ∀ (i : Instr) (s t : State), s.fault = .none → exec i s = .next t →
    (t.fault = .malformedStream ↔
      (((i = .upEnd ∧ s.mode = .up) ∨ (i = .decEnd ∧ s.mode = .dec)) ∧
        (s.upFill = .one ∨ (s.upFill = .two ∧ s.upHold1.toNat % 16 ≠ 0))) ∨
      ∃ b k, i = .decByte b ∧ s.mode = .dec ∧ unpackCode b s = some k ∧
        ((s.decHavePrior = false ∧ 256 ≤ k.toNat) ∨
         (s.decHavePrior = true ∧ (dictCeilingCheck s).nextCode.toNat < k.toNat)))

/-- Which command can raise which fault (60_exceptions.md R230 (5)): the two end commands only MalformedStream, `DEC.BYTE`
MalformedStream or IOFailure, the other data commands only IOFailure, a START none. -/
def Obligations.FaultsEachCommandCanRaise : Prop :=
  ∀ (i : Instr) (s t : State), s.Inv → s.mode ≠ .fault → exec i s = .next t → t.mode = .fault →
    startMode i = none ∧ i.wellFormed = true ∧
    (i = .decEnd ∨ i = .upEnd → t.fault = .malformedStream) ∧
    ((∃ b, i = .decByte b) → t.fault = .malformedStream ∨ t.fault = .ioFailure) ∧
    ((∃ c, i = .encByte c) ∨ i = .encEnd ∨ (∃ k, i = .pkCode k) ∨ i = .pkFlush ∨ (∃ b, i = .upByte b) →
      t.fault = .ioFailure)

/-- A byte sequence written to the sink is appended whole, or cut at the first failed write: the bytes before it stand,
none after, and the step raises IOFailure there. A code is appended or, on a failed write, is not and raises IOFailure. So
a command leaves in the outputs a prefix of what it leaves under answers that raise no IOFailure
(60_exceptions.md R225, R227; the sink's answers are a free value, log 7). -/
def Obligations.SinkFailureLeavesAPrefix : Prop :=
  (∀ (w : List Byte) (s : State),
    (s.SinkAccepts w.length → outSeq w s = .ok () { s.sinkSkip w.length with outBytes := s.outBytes ++ w }) ∧
    (∀ m, m < w.length → s.SinkAccepts m → s.sinkAnswerAt m = false →
      outSeq w s = .raised { s.sinkSkip (m + 1) with
        outBytes := s.outBytes ++ w.take m, fault := .ioFailure, mode := .fault })) ∧
  (∀ (k : Code) (s : State), outCode k s =
    if s.sinkAnswerAt 0 = true then .ok () { s.sinkSkip 1 with outCodes := s.outCodes ++ [k] }
    else .raised { s.sinkSkip 1 with fault := .ioFailure, mode := .fault }) ∧
  ∀ (i : Instr) (s t v : State) (answers : List Bool) (draws : Nat), exec i s = .next t →
    exec i { s with sinkAnswers := answers, sinkDraws := draws } = .next v → v.fault ≠ .ioFailure →
    t.outBytes <+: v.outBytes ∧ t.outCodes <+: v.outCodes

/-- The outputs only grow within a stream: any command but a START appends, and only `UP` mode writes codes, one at a time
(10_state.md R35, 60_exceptions.md R231). -/
def Obligations.OutputsOnlyGrowWithinAStream : Prop :=
  ∀ (i : Instr) (s t : State), startMode i = none → exec i s = .next t →
    s.outBytes <+: t.outBytes ∧
    (t.outCodes = s.outCodes ∨ (s.mode = .up ∧ t.outBytes = s.outBytes ∧ ∃ k, t.outCodes = s.outCodes ++ [k]))

/-! ### Frames, for any sink answers -/

/-- `PK.CODE` and `PK.FLUSH` leave alone everything but the packer, the byte stream, the mode, the fault, the refusal mark
and the sink's answers; no dictionary entry changes (41_packer.md R132 to R134, R142, R143; 40_dictionary.md R100). -/
def Obligations.PackerCommandsFrame : Prop :=
  ∀ (i : Instr) (s t : State), (∃ k, i = .pkCode k) ∨ i = .pkFlush → exec i s = .next t →
    t = { s with
      pkOdd := t.pkOdd, pkStage0 := t.pkStage0, pkStage1 := t.pkStage1, outBytes := t.outBytes, mode := t.mode,
      fault := t.fault, refused := t.refused, sinkAnswers := t.sinkAnswers, sinkDraws := t.sinkDraws }

/-- `UP.BYTE` and `UP.END` leave alone everything but the unpacker, the code stream, the mode, the fault, the refusal mark
and the sink's answers; no dictionary entry changes (41_packer.md R138, R139, R145, R146; 40_dictionary.md R100). -/
def Obligations.UnpackerCommandsFrame : Prop :=
  ∀ (i : Instr) (s t : State), (∃ b, i = .upByte b) ∨ i = .upEnd → exec i s = .next t →
    t = { s with
      upFill := t.upFill, upHold0 := t.upHold0, upHold1 := t.upHold1, outCodes := t.outCodes, mode := t.mode,
      fault := t.fault, refused := t.refused, sinkAnswers := t.sinkAnswers, sinkDraws := t.sinkDraws }

/-- `ENC.BYTE` and `ENC.END` leave alone the unpacker, the decoder's registers, the code stream and the queue; `ENC.END`
leaves the dictionary, the prefix and its code alone too (42_encoder.md R162, R164). -/
def Obligations.EncoderCommandsFrame : Prop :=
  ∀ s t : State,
    ((∃ c, exec (.encByte c) s = .next t) →
      t = { s with
        dict := t.dict, nextCode := t.nextCode, encS := t.encS, encSCode := t.encSCode, pkOdd := t.pkOdd,
        pkStage0 := t.pkStage0, pkStage1 := t.pkStage1, outBytes := t.outBytes, mode := t.mode, fault := t.fault,
        refused := t.refused, sinkAnswers := t.sinkAnswers, sinkDraws := t.sinkDraws }) ∧
    (exec .encEnd s = .next t →
      t = { s with
        pkOdd := t.pkOdd, pkStage0 := t.pkStage0, pkStage1 := t.pkStage1, outBytes := t.outBytes, mode := t.mode,
        fault := t.fault, refused := t.refused, sinkAnswers := t.sinkAnswers, sinkDraws := t.sinkDraws })

/-- `DEC.BYTE` and `DEC.END` leave alone the encoder's registers, the packer, the code stream and the queue; `DEC.END`
changes nothing but the mode, the fault and the refusal mark (43_decoder.md R192, R198). -/
def Obligations.DecoderCommandsFrame : Prop :=
  ∀ s t : State,
    ((∃ b, exec (.decByte b) s = .next t) →
      t = { s with
        dict := t.dict, nextCode := t.nextCode, upFill := t.upFill, upHold0 := t.upHold0, upHold1 := t.upHold1,
        decHavePrior := t.decHavePrior, decPriorCode := t.decPriorCode, decPriorSym := t.decPriorSym,
        outBytes := t.outBytes, mode := t.mode, fault := t.fault, refused := t.refused,
        sinkAnswers := t.sinkAnswers, sinkDraws := t.sinkDraws }) ∧
    (exec .decEnd s = .next t → t = { s with mode := t.mode, fault := t.fault, refused := t.refused })

/-! ### Isolation and the open parameter -/

/-- A stream's outcome depends only on its own commands, `io_fail` events and sink answers: after the same START and the
same events, two blocks that differed in anything else show the same outputs and STATUS (70_reset_and_hazards.md R252). -/
def Obligations.StreamOutcomeIgnoresEarlierStreams : Prop :=
  ∀ (i : Instr) (m : Mode) (es : List HostEvent) (s u : State), startMode i = some m →
    s.pending = .command (encode i) :: es → u.pending = s.pending →
    u.sinkAnswers = s.sinkAnswers → u.sinkDraws = s.sinkDraws →
    ∃ s' u', run (es.length + 1) s = .next s' ∧
      run (es.length + 1) u = .next u' ∧
      u'.outBytes = s'.outBytes ∧ u'.outCodes = s'.outCodes ∧ u'.mode = s'.mode ∧ u'.fault = s'.fault ∧
      u'.status = s'.status

/-- With a finite symbol bound `n`: an `ENC.BYTE` whose `s ++ [c]` is longer is refused whole; so is a `DEC.BYTE` that
completes a code whose symbol or new entry is longer, with not even the unpacker advanced; every other command runs as with
no bound, an underivable code among them. With no bound none is refused
(60_exceptions.md R236, 42_encoder.md R162 (d), 43_decoder.md R201, 00_scope.md R7; the order of the checks is log 15). -/
def Obligations.SymbolBoundRefusesTheWholeCommand : Prop :=
  (∀ (n : Nat) (c : Byte) (s : State), s.mode = .enc →
    encByteWithin (some n) c s =
      if n < s.encS.length + 1 then .next { s with refused := true } else exec (.encByte c) s) ∧
  (∀ (n : Nat) (b : Byte) (s : State), s.Inv → s.mode = .dec →
    decByteWithin (some n) b s =
      open Classical in
      if ∃ k, unpackCode b s = some k ∧
          ((s.decHavePrior = false ∧ k.toNat < 256 ∧ n < 1) ∨
           (s.decHavePrior = true ∧ k.toNat ≤ (dictCeilingCheck s).nextCode.toNat ∧ n < s.decPriorSym.length + 1) ∨
           (s.decHavePrior = true ∧ ∃ cur, (dictCeilingCheck s).dict.read k.toNat = some cur ∧ n < cur.length)) then
        .next { s with refused := true }
      else exec (.decByte b) s) ∧
  (∀ (c : Byte) (s : State), encByteWithin none c s = exec (.encByte c) s) ∧
  ∀ (b : Byte) (s : State), decByteWithin none b s = exec (.decByte b) s
end

