-- ==== Sys2Proof/Laws/Dict.lean ====
section
/-!
SUPPORT. The dictionary's laws: read after write, the canonical form kept by every operation, the base table, and the set
of codes that hold a symbol.
-/
namespace Sys2Proof.Machine

@[simp] theorem Dict.read_nil (k : Nat) : Dict.read [] k = none := rfl

theorem Dict.read_cons (j : Nat) (w : Symbol) (d : Dict) (k : Nat) :
    Dict.read ((j, w) :: d) k = if j = k then some w else Dict.read d k := rfl

/-- A read after a write: the written code holds the symbol, every other code is as before. -/
theorem Dict.read_write (d : Dict) (k : Nat) (w : Symbol) (j : Nat) :
    Dict.read (d.write k w) j = if j = k then some w else d.read j := by
  induction d with
  | nil => simp [Dict.write, Dict.read_cons, eq_comm]
  | cons p d ih =>
    obtain ⟨i, v⟩ := p
    simp only [Dict.write]
    split
    · simp only [Dict.read_cons]; by_cases h : j = k
      · subst h; simp
      · simp [h, Ne.symm h]
    · split
      · subst_vars; simp only [Dict.read_cons]; by_cases h : j = i
        · subst h; simp
        · simp [h, Ne.symm h]
      · simp only [Dict.read_cons, ih]
        by_cases h : i = j
        · subst h; simp; intro h'; omega
        · simp [h]

@[simp] theorem Dict.read_write_same (d : Dict) (k : Nat) (w : Symbol) : Dict.read (d.write k w) k = some w := by
  simp [Dict.read_write]

theorem Dict.read_write_other (d : Dict) {j k : Nat} (w : Symbol) (h : j ≠ k) :
    Dict.read (d.write k w) j = d.read j := by
  simp [Dict.read_write, h]

/-- What the canonical form says of one entry. -/
theorem Dict.wfFrom_cons {lo k : Nat} {w : Symbol} {d : Dict} :
    Dict.wfFrom lo ((k, w) :: d) = true ↔ lo ≤ k ∧ k < 4096 ∧ w ≠ [] ∧ Dict.wfFrom (k + 1) d = true := by
  simp only [Dict.wfFrom, Bool.and_eq_true, decide_eq_true_eq, Bool.not_eq_true', List.isEmpty_eq_false_iff, and_assoc,
    show Config.ceiling = 4096 from rfl]

theorem Dict.wfFrom_mono {lo lo' : Nat} {d : Dict} (h : lo' ≤ lo) (hd : Dict.wfFrom lo d = true) :
    Dict.wfFrom lo' d = true := by
  cases d with
  | nil => rfl
  | cons p d => obtain ⟨k, w⟩ := p; rw [Dict.wfFrom_cons] at hd ⊢; exact ⟨h.trans hd.1, hd.2⟩

/-- Below the first possible code nothing is listed. -/
theorem Dict.read_below {lo : Nat} {d : Dict} (hd : Dict.wfFrom lo d = true) {k : Nat} (hk : k < lo) :
    d.read k = none := by
  induction d generalizing lo with
  | nil => rfl
  | cons p d ih =>
    obtain ⟨j, w⟩ := p
    rw [Dict.wfFrom_cons] at hd
    rw [Dict.read_cons, if_neg (by omega)]
    exact ih hd.2.2.2 (by omega)

/-- An entry of a canonical table is a Symbol under a 12-bit code. -/
theorem Dict.read_wfFrom {lo : Nat} {d : Dict} (hd : Dict.wfFrom lo d = true) {k : Nat} {w : Symbol}
    (h : d.read k = some w) : lo ≤ k ∧ k < 4096 ∧ w ≠ [] := by
  induction d generalizing lo with
  | nil => simp at h
  | cons p d ih =>
    obtain ⟨j, v⟩ := p
    rw [Dict.wfFrom_cons] at hd
    rw [Dict.read_cons] at h
    split at h
    · cases h; subst_vars; exact ⟨hd.1, hd.2.1, hd.2.2.1⟩
    · have := ih hd.2.2.2 h; exact ⟨by omega, this.2⟩

theorem Dict.read_wf {d : Dict} (hd : d.wf = true) {k : Nat} {w : Symbol} (h : d.read k = some w) :
    k < 4096 ∧ w ≠ [] := (Dict.read_wfFrom hd h).2

theorem Dict.wfFrom_write {lo : Nat} {d : Dict} (hd : Dict.wfFrom lo d = true) {k : Nat} {w : Symbol}
    (hlo : lo ≤ k) (hk : k < 4096) (hw : w ≠ []) : Dict.wfFrom lo (d.write k w) = true := by
  induction d generalizing lo with
  | nil => simp only [Dict.write, Dict.wfFrom_cons]; exact ⟨hlo, hk, hw, rfl⟩
  | cons p d ih =>
    obtain ⟨j, v⟩ := p
    have h := hd
    rw [Dict.wfFrom_cons] at h
    simp only [Dict.write]
    split
    · rw [Dict.wfFrom_cons]
      exact ⟨hlo, hk, hw, by rw [Dict.wfFrom_cons]; exact ⟨by omega, h.2⟩⟩
    · split
      · subst_vars; rw [Dict.wfFrom_cons]; exact ⟨hlo, hk, hw, h.2.2.2⟩
      · rw [Dict.wfFrom_cons]; exact ⟨h.1, h.2.1, h.2.2.1, ih h.2.2.2 (by omega)⟩

/-- A write of a Symbol at a 12-bit code keeps the canonical form. -/
theorem Dict.wf_write {d : Dict} (hd : d.wf = true) {k : Nat} {w : Symbol} (hk : k < 4096) (hw : w ≠ []) :
    (d.write k w).wf = true := Dict.wfFrom_write hd (Nat.zero_le _) hk hw

theorem Dict.ext_wfFrom {lo : Nat} {d e : Dict} (hd : Dict.wfFrom lo d = true) (he : Dict.wfFrom lo e = true)
    (h : ∀ k, d.read k = e.read k) : d = e := by
  induction d generalizing lo e with
  | nil =>
    cases e with
    | nil => rfl
    | cons p e => obtain ⟨j, v⟩ := p; have := h j; simp [Dict.read_cons] at this
  | cons p d ih =>
    obtain ⟨j, v⟩ := p
    cases e with
    | nil => have := h j; simp [Dict.read_cons] at this
    | cons q e =>
      obtain ⟨i, u⟩ := q
      rw [Dict.wfFrom_cons] at hd he
      have hj := h j
      have hi := h i
      simp only [Dict.read_cons, if_true] at hj hi
      have hij : i = j := by
        by_contra hne
        rw [if_neg hne] at hj
        rw [if_neg (Ne.symm hne)] at hi
        have h1 := (Dict.read_wfFrom he.2.2.2 hj.symm).1
        have h2 := (Dict.read_wfFrom hd.2.2.2 hi).1
        omega
      subst hij
      simp only [if_true, Option.some.injEq] at hj
      subst hj
      have hde : d = e := by
        refine ih hd.2.2.2 he.2.2.2 fun k => ?_
        have hk := h k
        simp only [Dict.read_cons] at hk
        by_cases hik : i = k
        · subst hik
          rw [Dict.read_below hd.2.2.2 (Nat.lt_succ_self _), Dict.read_below he.2.2.2 (Nat.lt_succ_self _)]
        · simpa [hik] using hk
      rw [hde]

/-- Equal contents are equal data: the form is canonical. -/
theorem Dict.ext_wf {d e : Dict} (hd : d.wf = true) (he : e.wf = true) (h : ∀ k, d.read k = e.read k) : d = e :=
  Dict.ext_wfFrom hd he h

/-! ### The base table -/

theorem Dict.wfFrom_map_range' (f : Nat → Symbol) (hf : ∀ k, f k ≠ []) (n : Nat) :
    ∀ lo, lo + n ≤ 4096 → Dict.wfFrom lo ((List.range' lo n).map fun k => (k, f k)) = true := by
  induction n with
  | zero => intro lo _; rfl
  | succ n ih =>
    intro lo h
    rw [List.range'_succ, List.map_cons, Dict.wfFrom_cons]
    exact ⟨le_rfl, by omega, hf lo, ih (lo + 1) (by omega)⟩

theorem Dict.base_wf : Dict.base.wf = true := by
  have := Dict.wfFrom_map_range' (fun k => [BitVec.ofNat 8 k]) (by simp) 256 0 (by omega)
  simpa [Dict.wf, Dict.base, Config.baseSize, List.range_eq_range'] using this

theorem Dict.read_map_range' (f : Nat → Symbol) (n : Nat) :
    ∀ lo k, Dict.read ((List.range' lo n).map fun k => (k, f k)) k = if lo ≤ k ∧ k < lo + n then some (f k) else none := by
  induction n with
  | zero => intro lo k; simp
  | succ n ih =>
    intro lo k
    simp only [List.range'_succ, List.map_cons, Dict.read_cons, ih]
    by_cases h : lo = k
    · subst h; simp
    · simp only [h, if_false]
      split <;> split <;> first | rfl | omega

/-- The base table holds each byte's own symbol and nothing else (40_dictionary.md R101). -/
theorem Dict.read_base (k : Nat) : Dict.base.read k = if k < 256 then some [BitVec.ofNat 8 k] else none := by
  have := Dict.read_map_range' (fun k => [BitVec.ofNat 8 k]) 256 0 k
  simpa [Dict.base, Config.baseSize, List.range_eq_range'] using this

/-! ### The codes that hold a symbol -/

theorem Dict.mem_codesOf_wfFrom {lo : Nat} {d : Dict} (hd : Dict.wfFrom lo d = true) {n : Nat} {w : Symbol} {k : Nat} :
    k ∈ d.codesOf n w ↔ k < n ∧ d.read k = some w := by
  induction d generalizing lo with
  | nil => simp [Dict.codesOf]
  | cons p d ih =>
    obtain ⟨j, v⟩ := p
    rw [Dict.wfFrom_cons] at hd
    have hb : Dict.read d j = none := Dict.read_below hd.2.2.2 (Nat.lt_succ_self _)
    simp only [Dict.codesOf, Dict.read_cons]
    by_cases hjk : j = k
    · subst hjk
      split
      · rename_i h; simp [h]
      · rename_i h; rw [ih hd.2.2.2, hb]; simp only [if_true, Option.some.injEq]; simp; intro h1 h2; exact h ⟨h1, h2⟩
    · rw [if_neg hjk]
      split
      · rw [List.mem_cons, ih hd.2.2.2]; simp [Ne.symm hjk]
      · exact ih hd.2.2.2

/-- In a canonical table, the codes found for a symbol are exactly the codes below `n` that hold it. -/
theorem Dict.mem_codesOf {d : Dict} (hd : d.wf = true) {n : Nat} {w : Symbol} {k : Nat} :
    k ∈ d.codesOf n w ↔ k < n ∧ d.read k = some w := Dict.mem_codesOf_wfFrom hd

theorem Dict.codesOf_sorted {lo : Nat} {d : Dict} (hd : Dict.wfFrom lo d = true) (n : Nat) (w : Symbol) :
    (d.codesOf n w).Pairwise (· < ·) := by
  induction d generalizing lo with
  | nil => simp [Dict.codesOf]
  | cons p d ih =>
    obtain ⟨j, v⟩ := p
    rw [Dict.wfFrom_cons] at hd
    simp only [Dict.codesOf]
    split
    · rw [List.pairwise_cons]
      refine ⟨fun a ha => ?_, ih hd.2.2.2⟩
      have := (Dict.mem_codesOf_wfFrom hd.2.2.2).1 ha
      have := (Dict.read_wfFrom hd.2.2.2 this.2).1
      omega
    · exact ih hd.2.2.2

/-- No code is found exactly when no code below `n` holds the symbol. -/
theorem Dict.codesOf_eq_nil {d : Dict} (hd : d.wf = true) {n : Nat} {w : Symbol} :
    d.codesOf n w = [] ↔ ∀ k, k < n → d.read k ≠ some w := by
  rw [List.eq_nil_iff_forall_not_mem]
  simp only [Dict.mem_codesOf hd, not_and, ne_eq]

/-- One code is found exactly when it alone holds the symbol. -/
theorem Dict.codesOf_eq_singleton {d : Dict} (hd : d.wf = true) {n : Nat} {w : Symbol} {k : Nat} :
    d.codesOf n w = [k] ↔ (k < n ∧ d.read k = some w) ∧ ∀ j, j < n → d.read j = some w → j = k := by
  constructor
  · intro h
    refine ⟨(Dict.mem_codesOf hd).1 (h ▸ List.mem_singleton_self k), fun j hj hw => ?_⟩
    have : j ∈ d.codesOf n w := (Dict.mem_codesOf hd).2 ⟨hj, hw⟩
    rw [h] at this
    exact List.mem_singleton.1 this
  · rintro ⟨hk, hu⟩
    have hm : k ∈ d.codesOf n w := (Dict.mem_codesOf hd).2 hk
    have hs := Dict.codesOf_sorted hd n w
    match hc : d.codesOf n w with
    | [] => rw [hc] at hm; simp at hm
    | [j] => rw [hc] at hm; simp at hm; rw [hm]
    | i :: j :: t =>
      have hi := (Dict.mem_codesOf hd).1 (show i ∈ d.codesOf n w by rw [hc]; simp)
      have hj := (Dict.mem_codesOf hd).1 (show j ∈ d.codesOf n w by rw [hc]; simp)
      rw [hc] at hs
      have hlt : i < j := by simp at hs; exact hs.1.1
      have := hu i hi.1 hi.2
      have := hu j hj.1 hj.2
      omega

end Sys2Proof.Machine
end

