-- ==== Sys2Proof/Laws/Operands.lean ====
section
/-!
SUPPORT. The bit fields of a packing unit as arithmetic, and that the packing fields and the unpacking fields are inverse
(spec/30_encoding.md R72, R73).
-/
namespace Sys2Proof.Machine

theorem codeOfByte_toNat (c : Byte) : (codeOfByte c).toNat = c.toNat := by
  simp [codeOfByte]; omega

theorem firstByte0_toNat (a : Code) : (firstByte0 a).toNat = a.toNat / 16 := by
  simp [firstByte0, Nat.shiftRight_eq_div_pow]; omega

theorem firstByte1_toNat (a : Code) : (firstByte1 a).toNat = a.toNat % 16 * 16 := by
  simp [firstByte1, Nat.shiftLeft_eq]; omega

theorem secondByte1_toNat {st : Byte} (h : st.toNat % 16 = 0) (b : Code) :
    (secondByte1 st b).toNat = st.toNat + b.toNat / 256 := by
  have hb : b.toNat / 256 < 2 ^ 4 := by omega
  have := Nat.shiftLeft_add_eq_or_of_lt hb (st.toNat / 16)
  rw [Nat.shiftLeft_eq, show st.toNat / 16 * 2 ^ 4 = st.toNat by omega] at this
  have h2 : ((b.extractLsb' 8 4).zeroExtend 8 : Byte).toNat = b.toNat / 256 := by
    simp [Nat.shiftRight_eq_div_pow]; omega
  rw [secondByte1, BitVec.toNat_or, h2, this]

theorem secondByte2_toNat (b : Code) : (secondByte2 b).toNat = b.toNat % 256 := by
  simp [secondByte2]

theorem firstCode_toNat (b0 b1 : Byte) : (firstCode b0 b1).toNat = b0.toNat * 16 + b1.toNat / 16 := by
  have hb : b1.toNat / 16 < 2 ^ 4 := by omega
  have := Nat.shiftLeft_add_eq_or_of_lt hb b0.toNat
  have h1 : ((b0.zeroExtend 12 <<< 4 : Code)).toNat = b0.toNat <<< 4 := by
    simp [Nat.shiftLeft_eq]; omega
  have h2 : ((b1.extractLsb' 4 4).zeroExtend 12 : Code).toNat = b1.toNat / 16 := by
    simp [Nat.shiftRight_eq_div_pow]; omega
  rw [firstCode, BitVec.toNat_or, h1, h2, ← this, Nat.shiftLeft_eq]

theorem secondCode_toNat (b1 b2 : Byte) : (secondCode b1 b2).toNat = b1.toNat % 16 * 256 + b2.toNat := by
  have hb : b2.toNat < 2 ^ 8 := b2.isLt
  have := Nat.shiftLeft_add_eq_or_of_lt hb (b1.toNat % 16)
  have h1 : (((b1.extractLsb' 0 4).zeroExtend 12 <<< 8 : Code)).toNat = (b1.toNat % 16) <<< 8 := by
    simp [Nat.shiftLeft_eq]; omega
  have h2 : (b2.zeroExtend 12 : Code).toNat = b2.toNat := by simp; omega
  rw [secondCode, BitVec.toNat_or, h1, h2, ← this, Nat.shiftLeft_eq]

theorem tailPadding_toNat (b1 : Byte) : (tailPadding b1).toNat = b1.toNat % 16 := by
  simp [tailPadding]

theorem tailPadding_eq_zero (b1 : Byte) : tailPadding b1 = 0 ↔ b1.toNat % 16 = 0 := by
  rw [← tailPadding_toNat, ← BitVec.toNat_inj]; rfl

theorem firstByte1_low (a : Code) : (firstByte1 a).toNat % 16 = 0 := by rw [firstByte1_toNat]; omega

/-- The first code of a group is read back. -/
theorem firstCode_group (a b : Code) : firstCode (firstByte0 a) (secondByte1 (firstByte1 a) b) = a := by
  apply BitVec.eq_of_toNat_eq
  rw [firstCode_toNat, firstByte0_toNat, secondByte1_toNat (firstByte1_low a), firstByte1_toNat]
  omega

/-- The second code of a group is read back. -/
theorem secondCode_group (a b : Code) : secondCode (secondByte1 (firstByte1 a) b) (secondByte2 b) = b := by
  apply BitVec.eq_of_toNat_eq
  rw [secondCode_toNat, secondByte2_toNat, secondByte1_toNat (firstByte1_low a), firstByte1_toNat]
  omega

/-- The code of a tail is read back. -/
theorem firstCode_tail (a : Code) : firstCode (firstByte0 a) (firstByte1 a) = a := by
  apply BitVec.eq_of_toNat_eq
  rw [firstCode_toNat, firstByte0_toNat, firstByte1_toNat]
  omega

end Sys2Proof.Machine
end

