-- ==== Sys2Proof/Laws/State.lean ====
section
/-!
SUPPORT. What each named update of the state does to each field: one lemma per field per update.
-/
namespace Sys2Proof.Machine

/-! ### State.refuse -/

@[simp] theorem State.refuse_mode (s : State) : (s.refuse).mode = s.mode := rfl
@[simp] theorem State.refuse_fault (s : State) : (s.refuse).fault = s.fault := rfl
@[simp] theorem State.refuse_refused (s : State) : (s.refuse).refused = true := rfl
@[simp] theorem State.refuse_dict (s : State) : (s.refuse).dict = s.dict := rfl
@[simp] theorem State.refuse_nextCode (s : State) : (s.refuse).nextCode = s.nextCode := rfl
@[simp] theorem State.refuse_encS (s : State) : (s.refuse).encS = s.encS := rfl
@[simp] theorem State.refuse_encSCode (s : State) : (s.refuse).encSCode = s.encSCode := rfl
@[simp] theorem State.refuse_pkOdd (s : State) : (s.refuse).pkOdd = s.pkOdd := rfl
@[simp] theorem State.refuse_pkStage0 (s : State) : (s.refuse).pkStage0 = s.pkStage0 := rfl
@[simp] theorem State.refuse_pkStage1 (s : State) : (s.refuse).pkStage1 = s.pkStage1 := rfl
@[simp] theorem State.refuse_upFill (s : State) : (s.refuse).upFill = s.upFill := rfl
@[simp] theorem State.refuse_upHold0 (s : State) : (s.refuse).upHold0 = s.upHold0 := rfl
@[simp] theorem State.refuse_upHold1 (s : State) : (s.refuse).upHold1 = s.upHold1 := rfl
@[simp] theorem State.refuse_decHavePrior (s : State) : (s.refuse).decHavePrior = s.decHavePrior := rfl
@[simp] theorem State.refuse_decPriorCode (s : State) : (s.refuse).decPriorCode = s.decPriorCode := rfl
@[simp] theorem State.refuse_decPriorSym (s : State) : (s.refuse).decPriorSym = s.decPriorSym := rfl
@[simp] theorem State.refuse_outBytes (s : State) : (s.refuse).outBytes = s.outBytes := rfl
@[simp] theorem State.refuse_outCodes (s : State) : (s.refuse).outCodes = s.outCodes := rfl
@[simp] theorem State.refuse_pending (s : State) : (s.refuse).pending = s.pending := rfl
@[simp] theorem State.refuse_sinkAnswers (s : State) : (s.refuse).sinkAnswers = s.sinkAnswers := rfl
@[simp] theorem State.refuse_sinkDraws (s : State) : (s.refuse).sinkDraws = s.sinkDraws := rfl

/-! ### State.raise -/

@[simp] theorem State.raise_mode (f : FaultCode) (s : State) : (s.raise f).mode = .fault := rfl
@[simp] theorem State.raise_fault (f : FaultCode) (s : State) : (s.raise f).fault = f := rfl
@[simp] theorem State.raise_refused (f : FaultCode) (s : State) : (s.raise f).refused = s.refused := rfl
@[simp] theorem State.raise_dict (f : FaultCode) (s : State) : (s.raise f).dict = s.dict := rfl
@[simp] theorem State.raise_nextCode (f : FaultCode) (s : State) : (s.raise f).nextCode = s.nextCode := rfl
@[simp] theorem State.raise_encS (f : FaultCode) (s : State) : (s.raise f).encS = s.encS := rfl
@[simp] theorem State.raise_encSCode (f : FaultCode) (s : State) : (s.raise f).encSCode = s.encSCode := rfl
@[simp] theorem State.raise_pkOdd (f : FaultCode) (s : State) : (s.raise f).pkOdd = s.pkOdd := rfl
@[simp] theorem State.raise_pkStage0 (f : FaultCode) (s : State) : (s.raise f).pkStage0 = s.pkStage0 := rfl
@[simp] theorem State.raise_pkStage1 (f : FaultCode) (s : State) : (s.raise f).pkStage1 = s.pkStage1 := rfl
@[simp] theorem State.raise_upFill (f : FaultCode) (s : State) : (s.raise f).upFill = s.upFill := rfl
@[simp] theorem State.raise_upHold0 (f : FaultCode) (s : State) : (s.raise f).upHold0 = s.upHold0 := rfl
@[simp] theorem State.raise_upHold1 (f : FaultCode) (s : State) : (s.raise f).upHold1 = s.upHold1 := rfl
@[simp] theorem State.raise_decHavePrior (f : FaultCode) (s : State) : (s.raise f).decHavePrior = s.decHavePrior := rfl
@[simp] theorem State.raise_decPriorCode (f : FaultCode) (s : State) : (s.raise f).decPriorCode = s.decPriorCode := rfl
@[simp] theorem State.raise_decPriorSym (f : FaultCode) (s : State) : (s.raise f).decPriorSym = s.decPriorSym := rfl
@[simp] theorem State.raise_outBytes (f : FaultCode) (s : State) : (s.raise f).outBytes = s.outBytes := rfl
@[simp] theorem State.raise_outCodes (f : FaultCode) (s : State) : (s.raise f).outCodes = s.outCodes := rfl
@[simp] theorem State.raise_pending (f : FaultCode) (s : State) : (s.raise f).pending = s.pending := rfl
@[simp] theorem State.raise_sinkAnswers (f : FaultCode) (s : State) : (s.raise f).sinkAnswers = s.sinkAnswers := rfl
@[simp] theorem State.raise_sinkDraws (f : FaultCode) (s : State) : (s.raise f).sinkDraws = s.sinkDraws := rfl

/-! ### State.finishStream -/

@[simp] theorem State.finishStream_mode (s : State) : (s.finishStream).mode = .done := rfl
@[simp] theorem State.finishStream_fault (s : State) : (s.finishStream).fault = s.fault := rfl
@[simp] theorem State.finishStream_refused (s : State) : (s.finishStream).refused = s.refused := rfl
@[simp] theorem State.finishStream_dict (s : State) : (s.finishStream).dict = s.dict := rfl
@[simp] theorem State.finishStream_nextCode (s : State) : (s.finishStream).nextCode = s.nextCode := rfl
@[simp] theorem State.finishStream_encS (s : State) : (s.finishStream).encS = s.encS := rfl
@[simp] theorem State.finishStream_encSCode (s : State) : (s.finishStream).encSCode = s.encSCode := rfl
@[simp] theorem State.finishStream_pkOdd (s : State) : (s.finishStream).pkOdd = s.pkOdd := rfl
@[simp] theorem State.finishStream_pkStage0 (s : State) : (s.finishStream).pkStage0 = s.pkStage0 := rfl
@[simp] theorem State.finishStream_pkStage1 (s : State) : (s.finishStream).pkStage1 = s.pkStage1 := rfl
@[simp] theorem State.finishStream_upFill (s : State) : (s.finishStream).upFill = s.upFill := rfl
@[simp] theorem State.finishStream_upHold0 (s : State) : (s.finishStream).upHold0 = s.upHold0 := rfl
@[simp] theorem State.finishStream_upHold1 (s : State) : (s.finishStream).upHold1 = s.upHold1 := rfl
@[simp] theorem State.finishStream_decHavePrior (s : State) : (s.finishStream).decHavePrior = s.decHavePrior := rfl
@[simp] theorem State.finishStream_decPriorCode (s : State) : (s.finishStream).decPriorCode = s.decPriorCode := rfl
@[simp] theorem State.finishStream_decPriorSym (s : State) : (s.finishStream).decPriorSym = s.decPriorSym := rfl
@[simp] theorem State.finishStream_outBytes (s : State) : (s.finishStream).outBytes = s.outBytes := rfl
@[simp] theorem State.finishStream_outCodes (s : State) : (s.finishStream).outCodes = s.outCodes := rfl
@[simp] theorem State.finishStream_pending (s : State) : (s.finishStream).pending = s.pending := rfl
@[simp] theorem State.finishStream_sinkAnswers (s : State) : (s.finishStream).sinkAnswers = s.sinkAnswers := rfl
@[simp] theorem State.finishStream_sinkDraws (s : State) : (s.finishStream).sinkDraws = s.sinkDraws := rfl

/-! ### State.dictReset -/

@[simp] theorem State.dictReset_mode (s : State) : (s.dictReset).mode = s.mode := rfl
@[simp] theorem State.dictReset_fault (s : State) : (s.dictReset).fault = s.fault := rfl
@[simp] theorem State.dictReset_refused (s : State) : (s.dictReset).refused = s.refused := rfl
@[simp] theorem State.dictReset_dict (s : State) : (s.dictReset).dict = Dict.base := rfl
@[simp] theorem State.dictReset_nextCode (s : State) : (s.dictReset).nextCode = 256 := rfl
@[simp] theorem State.dictReset_encS (s : State) : (s.dictReset).encS = s.encS := rfl
@[simp] theorem State.dictReset_encSCode (s : State) : (s.dictReset).encSCode = s.encSCode := rfl
@[simp] theorem State.dictReset_pkOdd (s : State) : (s.dictReset).pkOdd = s.pkOdd := rfl
@[simp] theorem State.dictReset_pkStage0 (s : State) : (s.dictReset).pkStage0 = s.pkStage0 := rfl
@[simp] theorem State.dictReset_pkStage1 (s : State) : (s.dictReset).pkStage1 = s.pkStage1 := rfl
@[simp] theorem State.dictReset_upFill (s : State) : (s.dictReset).upFill = s.upFill := rfl
@[simp] theorem State.dictReset_upHold0 (s : State) : (s.dictReset).upHold0 = s.upHold0 := rfl
@[simp] theorem State.dictReset_upHold1 (s : State) : (s.dictReset).upHold1 = s.upHold1 := rfl
@[simp] theorem State.dictReset_decHavePrior (s : State) : (s.dictReset).decHavePrior = s.decHavePrior := rfl
@[simp] theorem State.dictReset_decPriorCode (s : State) : (s.dictReset).decPriorCode = s.decPriorCode := rfl
@[simp] theorem State.dictReset_decPriorSym (s : State) : (s.dictReset).decPriorSym = s.decPriorSym := rfl
@[simp] theorem State.dictReset_outBytes (s : State) : (s.dictReset).outBytes = s.outBytes := rfl
@[simp] theorem State.dictReset_outCodes (s : State) : (s.dictReset).outCodes = s.outCodes := rfl
@[simp] theorem State.dictReset_pending (s : State) : (s.dictReset).pending = s.pending := rfl
@[simp] theorem State.dictReset_sinkAnswers (s : State) : (s.dictReset).sinkAnswers = s.sinkAnswers := rfl
@[simp] theorem State.dictReset_sinkDraws (s : State) : (s.dictReset).sinkDraws = s.sinkDraws := rfl

/-! ### State.dictAppend -/

@[simp] theorem State.dictAppend_mode (w : Symbol) (k : BitVec 13) (s : State) : (s.dictAppend w k).mode = s.mode := rfl
@[simp] theorem State.dictAppend_fault (w : Symbol) (k : BitVec 13) (s : State) : (s.dictAppend w k).fault = s.fault := rfl
@[simp] theorem State.dictAppend_refused (w : Symbol) (k : BitVec 13) (s : State) : (s.dictAppend w k).refused = s.refused := rfl
@[simp] theorem State.dictAppend_dict (w : Symbol) (k : BitVec 13) (s : State) : (s.dictAppend w k).dict = s.dict.write k.toNat w := rfl
@[simp] theorem State.dictAppend_nextCode (w : Symbol) (k : BitVec 13) (s : State) : (s.dictAppend w k).nextCode = s.nextCode + 1 := rfl
@[simp] theorem State.dictAppend_encS (w : Symbol) (k : BitVec 13) (s : State) : (s.dictAppend w k).encS = s.encS := rfl
@[simp] theorem State.dictAppend_encSCode (w : Symbol) (k : BitVec 13) (s : State) : (s.dictAppend w k).encSCode = s.encSCode := rfl
@[simp] theorem State.dictAppend_pkOdd (w : Symbol) (k : BitVec 13) (s : State) : (s.dictAppend w k).pkOdd = s.pkOdd := rfl
@[simp] theorem State.dictAppend_pkStage0 (w : Symbol) (k : BitVec 13) (s : State) : (s.dictAppend w k).pkStage0 = s.pkStage0 := rfl
@[simp] theorem State.dictAppend_pkStage1 (w : Symbol) (k : BitVec 13) (s : State) : (s.dictAppend w k).pkStage1 = s.pkStage1 := rfl
@[simp] theorem State.dictAppend_upFill (w : Symbol) (k : BitVec 13) (s : State) : (s.dictAppend w k).upFill = s.upFill := rfl
@[simp] theorem State.dictAppend_upHold0 (w : Symbol) (k : BitVec 13) (s : State) : (s.dictAppend w k).upHold0 = s.upHold0 := rfl
@[simp] theorem State.dictAppend_upHold1 (w : Symbol) (k : BitVec 13) (s : State) : (s.dictAppend w k).upHold1 = s.upHold1 := rfl
@[simp] theorem State.dictAppend_decHavePrior (w : Symbol) (k : BitVec 13) (s : State) : (s.dictAppend w k).decHavePrior = s.decHavePrior := rfl
@[simp] theorem State.dictAppend_decPriorCode (w : Symbol) (k : BitVec 13) (s : State) : (s.dictAppend w k).decPriorCode = s.decPriorCode := rfl
@[simp] theorem State.dictAppend_decPriorSym (w : Symbol) (k : BitVec 13) (s : State) : (s.dictAppend w k).decPriorSym = s.decPriorSym := rfl
@[simp] theorem State.dictAppend_outBytes (w : Symbol) (k : BitVec 13) (s : State) : (s.dictAppend w k).outBytes = s.outBytes := rfl
@[simp] theorem State.dictAppend_outCodes (w : Symbol) (k : BitVec 13) (s : State) : (s.dictAppend w k).outCodes = s.outCodes := rfl
@[simp] theorem State.dictAppend_pending (w : Symbol) (k : BitVec 13) (s : State) : (s.dictAppend w k).pending = s.pending := rfl
@[simp] theorem State.dictAppend_sinkAnswers (w : Symbol) (k : BitVec 13) (s : State) : (s.dictAppend w k).sinkAnswers = s.sinkAnswers := rfl
@[simp] theorem State.dictAppend_sinkDraws (w : Symbol) (k : BitVec 13) (s : State) : (s.dictAppend w k).sinkDraws = s.sinkDraws := rfl

/-! ### State.packerInit -/

@[simp] theorem State.packerInit_mode (s : State) : (s.packerInit).mode = s.mode := rfl
@[simp] theorem State.packerInit_fault (s : State) : (s.packerInit).fault = s.fault := rfl
@[simp] theorem State.packerInit_refused (s : State) : (s.packerInit).refused = s.refused := rfl
@[simp] theorem State.packerInit_dict (s : State) : (s.packerInit).dict = s.dict := rfl
@[simp] theorem State.packerInit_nextCode (s : State) : (s.packerInit).nextCode = s.nextCode := rfl
@[simp] theorem State.packerInit_encS (s : State) : (s.packerInit).encS = s.encS := rfl
@[simp] theorem State.packerInit_encSCode (s : State) : (s.packerInit).encSCode = s.encSCode := rfl
@[simp] theorem State.packerInit_pkOdd (s : State) : (s.packerInit).pkOdd = false := rfl
@[simp] theorem State.packerInit_pkStage0 (s : State) : (s.packerInit).pkStage0 = 0 := rfl
@[simp] theorem State.packerInit_pkStage1 (s : State) : (s.packerInit).pkStage1 = 0 := rfl
@[simp] theorem State.packerInit_upFill (s : State) : (s.packerInit).upFill = s.upFill := rfl
@[simp] theorem State.packerInit_upHold0 (s : State) : (s.packerInit).upHold0 = s.upHold0 := rfl
@[simp] theorem State.packerInit_upHold1 (s : State) : (s.packerInit).upHold1 = s.upHold1 := rfl
@[simp] theorem State.packerInit_decHavePrior (s : State) : (s.packerInit).decHavePrior = s.decHavePrior := rfl
@[simp] theorem State.packerInit_decPriorCode (s : State) : (s.packerInit).decPriorCode = s.decPriorCode := rfl
@[simp] theorem State.packerInit_decPriorSym (s : State) : (s.packerInit).decPriorSym = s.decPriorSym := rfl
@[simp] theorem State.packerInit_outBytes (s : State) : (s.packerInit).outBytes = s.outBytes := rfl
@[simp] theorem State.packerInit_outCodes (s : State) : (s.packerInit).outCodes = s.outCodes := rfl
@[simp] theorem State.packerInit_pending (s : State) : (s.packerInit).pending = s.pending := rfl
@[simp] theorem State.packerInit_sinkAnswers (s : State) : (s.packerInit).sinkAnswers = s.sinkAnswers := rfl
@[simp] theorem State.packerInit_sinkDraws (s : State) : (s.packerInit).sinkDraws = s.sinkDraws := rfl

/-! ### State.unpackerInit -/

@[simp] theorem State.unpackerInit_mode (s : State) : (s.unpackerInit).mode = s.mode := rfl
@[simp] theorem State.unpackerInit_fault (s : State) : (s.unpackerInit).fault = s.fault := rfl
@[simp] theorem State.unpackerInit_refused (s : State) : (s.unpackerInit).refused = s.refused := rfl
@[simp] theorem State.unpackerInit_dict (s : State) : (s.unpackerInit).dict = s.dict := rfl
@[simp] theorem State.unpackerInit_nextCode (s : State) : (s.unpackerInit).nextCode = s.nextCode := rfl
@[simp] theorem State.unpackerInit_encS (s : State) : (s.unpackerInit).encS = s.encS := rfl
@[simp] theorem State.unpackerInit_encSCode (s : State) : (s.unpackerInit).encSCode = s.encSCode := rfl
@[simp] theorem State.unpackerInit_pkOdd (s : State) : (s.unpackerInit).pkOdd = s.pkOdd := rfl
@[simp] theorem State.unpackerInit_pkStage0 (s : State) : (s.unpackerInit).pkStage0 = s.pkStage0 := rfl
@[simp] theorem State.unpackerInit_pkStage1 (s : State) : (s.unpackerInit).pkStage1 = s.pkStage1 := rfl
@[simp] theorem State.unpackerInit_upFill (s : State) : (s.unpackerInit).upFill = .zero := rfl
@[simp] theorem State.unpackerInit_upHold0 (s : State) : (s.unpackerInit).upHold0 = 0 := rfl
@[simp] theorem State.unpackerInit_upHold1 (s : State) : (s.unpackerInit).upHold1 = 0 := rfl
@[simp] theorem State.unpackerInit_decHavePrior (s : State) : (s.unpackerInit).decHavePrior = s.decHavePrior := rfl
@[simp] theorem State.unpackerInit_decPriorCode (s : State) : (s.unpackerInit).decPriorCode = s.decPriorCode := rfl
@[simp] theorem State.unpackerInit_decPriorSym (s : State) : (s.unpackerInit).decPriorSym = s.decPriorSym := rfl
@[simp] theorem State.unpackerInit_outBytes (s : State) : (s.unpackerInit).outBytes = s.outBytes := rfl
@[simp] theorem State.unpackerInit_outCodes (s : State) : (s.unpackerInit).outCodes = s.outCodes := rfl
@[simp] theorem State.unpackerInit_pending (s : State) : (s.unpackerInit).pending = s.pending := rfl
@[simp] theorem State.unpackerInit_sinkAnswers (s : State) : (s.unpackerInit).sinkAnswers = s.sinkAnswers := rfl
@[simp] theorem State.unpackerInit_sinkDraws (s : State) : (s.unpackerInit).sinkDraws = s.sinkDraws := rfl

/-! ### State.openStream -/

@[simp] theorem State.openStream_mode (m : Mode) (s : State) : (s.openStream m).mode = m := rfl
@[simp] theorem State.openStream_fault (m : Mode) (s : State) : (s.openStream m).fault = .none := rfl
@[simp] theorem State.openStream_refused (m : Mode) (s : State) : (s.openStream m).refused = s.refused := rfl
@[simp] theorem State.openStream_dict (m : Mode) (s : State) : (s.openStream m).dict = s.dict := rfl
@[simp] theorem State.openStream_nextCode (m : Mode) (s : State) : (s.openStream m).nextCode = s.nextCode := rfl
@[simp] theorem State.openStream_encS (m : Mode) (s : State) : (s.openStream m).encS = [] := rfl
@[simp] theorem State.openStream_encSCode (m : Mode) (s : State) : (s.openStream m).encSCode = s.encSCode := rfl
@[simp] theorem State.openStream_pkOdd (m : Mode) (s : State) : (s.openStream m).pkOdd = s.pkOdd := rfl
@[simp] theorem State.openStream_pkStage0 (m : Mode) (s : State) : (s.openStream m).pkStage0 = s.pkStage0 := rfl
@[simp] theorem State.openStream_pkStage1 (m : Mode) (s : State) : (s.openStream m).pkStage1 = s.pkStage1 := rfl
@[simp] theorem State.openStream_upFill (m : Mode) (s : State) : (s.openStream m).upFill = s.upFill := rfl
@[simp] theorem State.openStream_upHold0 (m : Mode) (s : State) : (s.openStream m).upHold0 = s.upHold0 := rfl
@[simp] theorem State.openStream_upHold1 (m : Mode) (s : State) : (s.openStream m).upHold1 = s.upHold1 := rfl
@[simp] theorem State.openStream_decHavePrior (m : Mode) (s : State) : (s.openStream m).decHavePrior = false := rfl
@[simp] theorem State.openStream_decPriorCode (m : Mode) (s : State) : (s.openStream m).decPriorCode = s.decPriorCode := rfl
@[simp] theorem State.openStream_decPriorSym (m : Mode) (s : State) : (s.openStream m).decPriorSym = s.decPriorSym := rfl
@[simp] theorem State.openStream_outBytes (m : Mode) (s : State) : (s.openStream m).outBytes = [] := rfl
@[simp] theorem State.openStream_outCodes (m : Mode) (s : State) : (s.openStream m).outCodes = [] := rfl
@[simp] theorem State.openStream_pending (m : Mode) (s : State) : (s.openStream m).pending = s.pending := rfl
@[simp] theorem State.openStream_sinkAnswers (m : Mode) (s : State) : (s.openStream m).sinkAnswers = s.sinkAnswers := rfl
@[simp] theorem State.openStream_sinkDraws (m : Mode) (s : State) : (s.openStream m).sinkDraws = s.sinkDraws := rfl

/-! ### State.packFirst -/

@[simp] theorem State.packFirst_mode (k : Code) (s : State) : (s.packFirst k).mode = s.mode := rfl
@[simp] theorem State.packFirst_fault (k : Code) (s : State) : (s.packFirst k).fault = s.fault := rfl
@[simp] theorem State.packFirst_refused (k : Code) (s : State) : (s.packFirst k).refused = s.refused := rfl
@[simp] theorem State.packFirst_dict (k : Code) (s : State) : (s.packFirst k).dict = s.dict := rfl
@[simp] theorem State.packFirst_nextCode (k : Code) (s : State) : (s.packFirst k).nextCode = s.nextCode := rfl
@[simp] theorem State.packFirst_encS (k : Code) (s : State) : (s.packFirst k).encS = s.encS := rfl
@[simp] theorem State.packFirst_encSCode (k : Code) (s : State) : (s.packFirst k).encSCode = s.encSCode := rfl
@[simp] theorem State.packFirst_pkOdd (k : Code) (s : State) : (s.packFirst k).pkOdd = true := rfl
@[simp] theorem State.packFirst_pkStage0 (k : Code) (s : State) : (s.packFirst k).pkStage0 = firstByte0 k := rfl
@[simp] theorem State.packFirst_pkStage1 (k : Code) (s : State) : (s.packFirst k).pkStage1 = firstByte1 k := rfl
@[simp] theorem State.packFirst_upFill (k : Code) (s : State) : (s.packFirst k).upFill = s.upFill := rfl
@[simp] theorem State.packFirst_upHold0 (k : Code) (s : State) : (s.packFirst k).upHold0 = s.upHold0 := rfl
@[simp] theorem State.packFirst_upHold1 (k : Code) (s : State) : (s.packFirst k).upHold1 = s.upHold1 := rfl
@[simp] theorem State.packFirst_decHavePrior (k : Code) (s : State) : (s.packFirst k).decHavePrior = s.decHavePrior := rfl
@[simp] theorem State.packFirst_decPriorCode (k : Code) (s : State) : (s.packFirst k).decPriorCode = s.decPriorCode := rfl
@[simp] theorem State.packFirst_decPriorSym (k : Code) (s : State) : (s.packFirst k).decPriorSym = s.decPriorSym := rfl
@[simp] theorem State.packFirst_outBytes (k : Code) (s : State) : (s.packFirst k).outBytes = s.outBytes := rfl
@[simp] theorem State.packFirst_outCodes (k : Code) (s : State) : (s.packFirst k).outCodes = s.outCodes := rfl
@[simp] theorem State.packFirst_pending (k : Code) (s : State) : (s.packFirst k).pending = s.pending := rfl
@[simp] theorem State.packFirst_sinkAnswers (k : Code) (s : State) : (s.packFirst k).sinkAnswers = s.sinkAnswers := rfl
@[simp] theorem State.packFirst_sinkDraws (k : Code) (s : State) : (s.packFirst k).sinkDraws = s.sinkDraws := rfl

/-! ### State.setPrefix -/

@[simp] theorem State.setPrefix_mode (w : List Byte) (k : Code) (s : State) : (s.setPrefix w k).mode = s.mode := rfl
@[simp] theorem State.setPrefix_fault (w : List Byte) (k : Code) (s : State) : (s.setPrefix w k).fault = s.fault := rfl
@[simp] theorem State.setPrefix_refused (w : List Byte) (k : Code) (s : State) : (s.setPrefix w k).refused = s.refused := rfl
@[simp] theorem State.setPrefix_dict (w : List Byte) (k : Code) (s : State) : (s.setPrefix w k).dict = s.dict := rfl
@[simp] theorem State.setPrefix_nextCode (w : List Byte) (k : Code) (s : State) : (s.setPrefix w k).nextCode = s.nextCode := rfl
@[simp] theorem State.setPrefix_encS (w : List Byte) (k : Code) (s : State) : (s.setPrefix w k).encS = w := rfl
@[simp] theorem State.setPrefix_encSCode (w : List Byte) (k : Code) (s : State) : (s.setPrefix w k).encSCode = k := rfl
@[simp] theorem State.setPrefix_pkOdd (w : List Byte) (k : Code) (s : State) : (s.setPrefix w k).pkOdd = s.pkOdd := rfl
@[simp] theorem State.setPrefix_pkStage0 (w : List Byte) (k : Code) (s : State) : (s.setPrefix w k).pkStage0 = s.pkStage0 := rfl
@[simp] theorem State.setPrefix_pkStage1 (w : List Byte) (k : Code) (s : State) : (s.setPrefix w k).pkStage1 = s.pkStage1 := rfl
@[simp] theorem State.setPrefix_upFill (w : List Byte) (k : Code) (s : State) : (s.setPrefix w k).upFill = s.upFill := rfl
@[simp] theorem State.setPrefix_upHold0 (w : List Byte) (k : Code) (s : State) : (s.setPrefix w k).upHold0 = s.upHold0 := rfl
@[simp] theorem State.setPrefix_upHold1 (w : List Byte) (k : Code) (s : State) : (s.setPrefix w k).upHold1 = s.upHold1 := rfl
@[simp] theorem State.setPrefix_decHavePrior (w : List Byte) (k : Code) (s : State) : (s.setPrefix w k).decHavePrior = s.decHavePrior := rfl
@[simp] theorem State.setPrefix_decPriorCode (w : List Byte) (k : Code) (s : State) : (s.setPrefix w k).decPriorCode = s.decPriorCode := rfl
@[simp] theorem State.setPrefix_decPriorSym (w : List Byte) (k : Code) (s : State) : (s.setPrefix w k).decPriorSym = s.decPriorSym := rfl
@[simp] theorem State.setPrefix_outBytes (w : List Byte) (k : Code) (s : State) : (s.setPrefix w k).outBytes = s.outBytes := rfl
@[simp] theorem State.setPrefix_outCodes (w : List Byte) (k : Code) (s : State) : (s.setPrefix w k).outCodes = s.outCodes := rfl
@[simp] theorem State.setPrefix_pending (w : List Byte) (k : Code) (s : State) : (s.setPrefix w k).pending = s.pending := rfl
@[simp] theorem State.setPrefix_sinkAnswers (w : List Byte) (k : Code) (s : State) : (s.setPrefix w k).sinkAnswers = s.sinkAnswers := rfl
@[simp] theorem State.setPrefix_sinkDraws (w : List Byte) (k : Code) (s : State) : (s.setPrefix w k).sinkDraws = s.sinkDraws := rfl

/-! ### State.setPrior -/

@[simp] theorem State.setPrior_mode (k : Code) (cur : Symbol) (s : State) : (s.setPrior k cur).mode = s.mode := rfl
@[simp] theorem State.setPrior_fault (k : Code) (cur : Symbol) (s : State) : (s.setPrior k cur).fault = s.fault := rfl
@[simp] theorem State.setPrior_refused (k : Code) (cur : Symbol) (s : State) : (s.setPrior k cur).refused = s.refused := rfl
@[simp] theorem State.setPrior_dict (k : Code) (cur : Symbol) (s : State) : (s.setPrior k cur).dict = s.dict := rfl
@[simp] theorem State.setPrior_nextCode (k : Code) (cur : Symbol) (s : State) : (s.setPrior k cur).nextCode = s.nextCode := rfl
@[simp] theorem State.setPrior_encS (k : Code) (cur : Symbol) (s : State) : (s.setPrior k cur).encS = s.encS := rfl
@[simp] theorem State.setPrior_encSCode (k : Code) (cur : Symbol) (s : State) : (s.setPrior k cur).encSCode = s.encSCode := rfl
@[simp] theorem State.setPrior_pkOdd (k : Code) (cur : Symbol) (s : State) : (s.setPrior k cur).pkOdd = s.pkOdd := rfl
@[simp] theorem State.setPrior_pkStage0 (k : Code) (cur : Symbol) (s : State) : (s.setPrior k cur).pkStage0 = s.pkStage0 := rfl
@[simp] theorem State.setPrior_pkStage1 (k : Code) (cur : Symbol) (s : State) : (s.setPrior k cur).pkStage1 = s.pkStage1 := rfl
@[simp] theorem State.setPrior_upFill (k : Code) (cur : Symbol) (s : State) : (s.setPrior k cur).upFill = s.upFill := rfl
@[simp] theorem State.setPrior_upHold0 (k : Code) (cur : Symbol) (s : State) : (s.setPrior k cur).upHold0 = s.upHold0 := rfl
@[simp] theorem State.setPrior_upHold1 (k : Code) (cur : Symbol) (s : State) : (s.setPrior k cur).upHold1 = s.upHold1 := rfl
@[simp] theorem State.setPrior_decHavePrior (k : Code) (cur : Symbol) (s : State) : (s.setPrior k cur).decHavePrior = true := rfl
@[simp] theorem State.setPrior_decPriorCode (k : Code) (cur : Symbol) (s : State) : (s.setPrior k cur).decPriorCode = k := rfl
@[simp] theorem State.setPrior_decPriorSym (k : Code) (cur : Symbol) (s : State) : (s.setPrior k cur).decPriorSym = cur := rfl
@[simp] theorem State.setPrior_outBytes (k : Code) (cur : Symbol) (s : State) : (s.setPrior k cur).outBytes = s.outBytes := rfl
@[simp] theorem State.setPrior_outCodes (k : Code) (cur : Symbol) (s : State) : (s.setPrior k cur).outCodes = s.outCodes := rfl
@[simp] theorem State.setPrior_pending (k : Code) (cur : Symbol) (s : State) : (s.setPrior k cur).pending = s.pending := rfl
@[simp] theorem State.setPrior_sinkAnswers (k : Code) (cur : Symbol) (s : State) : (s.setPrior k cur).sinkAnswers = s.sinkAnswers := rfl
@[simp] theorem State.setPrior_sinkDraws (k : Code) (cur : Symbol) (s : State) : (s.setPrior k cur).sinkDraws = s.sinkDraws := rfl

/-! ### State.sinkSkip -/

@[simp] theorem State.sinkSkip_mode (n : Nat) (s : State) : (s.sinkSkip n).mode = s.mode := rfl
@[simp] theorem State.sinkSkip_fault (n : Nat) (s : State) : (s.sinkSkip n).fault = s.fault := rfl
@[simp] theorem State.sinkSkip_refused (n : Nat) (s : State) : (s.sinkSkip n).refused = s.refused := rfl
@[simp] theorem State.sinkSkip_dict (n : Nat) (s : State) : (s.sinkSkip n).dict = s.dict := rfl
@[simp] theorem State.sinkSkip_nextCode (n : Nat) (s : State) : (s.sinkSkip n).nextCode = s.nextCode := rfl
@[simp] theorem State.sinkSkip_encS (n : Nat) (s : State) : (s.sinkSkip n).encS = s.encS := rfl
@[simp] theorem State.sinkSkip_encSCode (n : Nat) (s : State) : (s.sinkSkip n).encSCode = s.encSCode := rfl
@[simp] theorem State.sinkSkip_pkOdd (n : Nat) (s : State) : (s.sinkSkip n).pkOdd = s.pkOdd := rfl
@[simp] theorem State.sinkSkip_pkStage0 (n : Nat) (s : State) : (s.sinkSkip n).pkStage0 = s.pkStage0 := rfl
@[simp] theorem State.sinkSkip_pkStage1 (n : Nat) (s : State) : (s.sinkSkip n).pkStage1 = s.pkStage1 := rfl
@[simp] theorem State.sinkSkip_upFill (n : Nat) (s : State) : (s.sinkSkip n).upFill = s.upFill := rfl
@[simp] theorem State.sinkSkip_upHold0 (n : Nat) (s : State) : (s.sinkSkip n).upHold0 = s.upHold0 := rfl
@[simp] theorem State.sinkSkip_upHold1 (n : Nat) (s : State) : (s.sinkSkip n).upHold1 = s.upHold1 := rfl
@[simp] theorem State.sinkSkip_decHavePrior (n : Nat) (s : State) : (s.sinkSkip n).decHavePrior = s.decHavePrior := rfl
@[simp] theorem State.sinkSkip_decPriorCode (n : Nat) (s : State) : (s.sinkSkip n).decPriorCode = s.decPriorCode := rfl
@[simp] theorem State.sinkSkip_decPriorSym (n : Nat) (s : State) : (s.sinkSkip n).decPriorSym = s.decPriorSym := rfl
@[simp] theorem State.sinkSkip_outBytes (n : Nat) (s : State) : (s.sinkSkip n).outBytes = s.outBytes := rfl
@[simp] theorem State.sinkSkip_outCodes (n : Nat) (s : State) : (s.sinkSkip n).outCodes = s.outCodes := rfl
@[simp] theorem State.sinkSkip_pending (n : Nat) (s : State) : (s.sinkSkip n).pending = s.pending := rfl
@[simp] theorem State.sinkSkip_sinkAnswers (n : Nat) (s : State) : (s.sinkSkip n).sinkAnswers = s.sinkAnswers.drop n := rfl
@[simp] theorem State.sinkSkip_sinkDraws (n : Nat) (s : State) : (s.sinkSkip n).sinkDraws = s.sinkDraws + (n - s.sinkAnswers.length) := rfl

/-! ### State.issue -/

@[simp] theorem State.issue_mode (w : CmdWord) (s : State) : (s.issue w).mode = s.mode := rfl
@[simp] theorem State.issue_fault (w : CmdWord) (s : State) : (s.issue w).fault = s.fault := rfl
@[simp] theorem State.issue_refused (w : CmdWord) (s : State) : (s.issue w).refused = s.refused := rfl
@[simp] theorem State.issue_dict (w : CmdWord) (s : State) : (s.issue w).dict = s.dict := rfl
@[simp] theorem State.issue_nextCode (w : CmdWord) (s : State) : (s.issue w).nextCode = s.nextCode := rfl
@[simp] theorem State.issue_encS (w : CmdWord) (s : State) : (s.issue w).encS = s.encS := rfl
@[simp] theorem State.issue_encSCode (w : CmdWord) (s : State) : (s.issue w).encSCode = s.encSCode := rfl
@[simp] theorem State.issue_pkOdd (w : CmdWord) (s : State) : (s.issue w).pkOdd = s.pkOdd := rfl
@[simp] theorem State.issue_pkStage0 (w : CmdWord) (s : State) : (s.issue w).pkStage0 = s.pkStage0 := rfl
@[simp] theorem State.issue_pkStage1 (w : CmdWord) (s : State) : (s.issue w).pkStage1 = s.pkStage1 := rfl
@[simp] theorem State.issue_upFill (w : CmdWord) (s : State) : (s.issue w).upFill = s.upFill := rfl
@[simp] theorem State.issue_upHold0 (w : CmdWord) (s : State) : (s.issue w).upHold0 = s.upHold0 := rfl
@[simp] theorem State.issue_upHold1 (w : CmdWord) (s : State) : (s.issue w).upHold1 = s.upHold1 := rfl
@[simp] theorem State.issue_decHavePrior (w : CmdWord) (s : State) : (s.issue w).decHavePrior = s.decHavePrior := rfl
@[simp] theorem State.issue_decPriorCode (w : CmdWord) (s : State) : (s.issue w).decPriorCode = s.decPriorCode := rfl
@[simp] theorem State.issue_decPriorSym (w : CmdWord) (s : State) : (s.issue w).decPriorSym = s.decPriorSym := rfl
@[simp] theorem State.issue_outBytes (w : CmdWord) (s : State) : (s.issue w).outBytes = s.outBytes := rfl
@[simp] theorem State.issue_outCodes (w : CmdWord) (s : State) : (s.issue w).outCodes = s.outCodes := rfl
@[simp] theorem State.issue_pending (w : CmdWord) (s : State) : (s.issue w).pending = .command w :: s.pending := rfl
@[simp] theorem State.issue_sinkAnswers (w : CmdWord) (s : State) : (s.issue w).sinkAnswers = s.sinkAnswers := rfl
@[simp] theorem State.issue_sinkDraws (w : CmdWord) (s : State) : (s.issue w).sinkDraws = s.sinkDraws := rfl

/-! ### State.issueAll -/

@[simp] theorem State.issueAll_mode (ws : List CmdWord) (s : State) : (s.issueAll ws).mode = s.mode := rfl
@[simp] theorem State.issueAll_fault (ws : List CmdWord) (s : State) : (s.issueAll ws).fault = s.fault := rfl
@[simp] theorem State.issueAll_refused (ws : List CmdWord) (s : State) : (s.issueAll ws).refused = s.refused := rfl
@[simp] theorem State.issueAll_dict (ws : List CmdWord) (s : State) : (s.issueAll ws).dict = s.dict := rfl
@[simp] theorem State.issueAll_nextCode (ws : List CmdWord) (s : State) : (s.issueAll ws).nextCode = s.nextCode := rfl
@[simp] theorem State.issueAll_encS (ws : List CmdWord) (s : State) : (s.issueAll ws).encS = s.encS := rfl
@[simp] theorem State.issueAll_encSCode (ws : List CmdWord) (s : State) : (s.issueAll ws).encSCode = s.encSCode := rfl
@[simp] theorem State.issueAll_pkOdd (ws : List CmdWord) (s : State) : (s.issueAll ws).pkOdd = s.pkOdd := rfl
@[simp] theorem State.issueAll_pkStage0 (ws : List CmdWord) (s : State) : (s.issueAll ws).pkStage0 = s.pkStage0 := rfl
@[simp] theorem State.issueAll_pkStage1 (ws : List CmdWord) (s : State) : (s.issueAll ws).pkStage1 = s.pkStage1 := rfl
@[simp] theorem State.issueAll_upFill (ws : List CmdWord) (s : State) : (s.issueAll ws).upFill = s.upFill := rfl
@[simp] theorem State.issueAll_upHold0 (ws : List CmdWord) (s : State) : (s.issueAll ws).upHold0 = s.upHold0 := rfl
@[simp] theorem State.issueAll_upHold1 (ws : List CmdWord) (s : State) : (s.issueAll ws).upHold1 = s.upHold1 := rfl
@[simp] theorem State.issueAll_decHavePrior (ws : List CmdWord) (s : State) : (s.issueAll ws).decHavePrior = s.decHavePrior := rfl
@[simp] theorem State.issueAll_decPriorCode (ws : List CmdWord) (s : State) : (s.issueAll ws).decPriorCode = s.decPriorCode := rfl
@[simp] theorem State.issueAll_decPriorSym (ws : List CmdWord) (s : State) : (s.issueAll ws).decPriorSym = s.decPriorSym := rfl
@[simp] theorem State.issueAll_outBytes (ws : List CmdWord) (s : State) : (s.issueAll ws).outBytes = s.outBytes := rfl
@[simp] theorem State.issueAll_outCodes (ws : List CmdWord) (s : State) : (s.issueAll ws).outCodes = s.outCodes := rfl
@[simp] theorem State.issueAll_pending (ws : List CmdWord) (s : State) : (s.issueAll ws).pending = ws.map HostEvent.command ++ s.pending := rfl
@[simp] theorem State.issueAll_sinkAnswers (ws : List CmdWord) (s : State) : (s.issueAll ws).sinkAnswers = s.sinkAnswers := rfl
@[simp] theorem State.issueAll_sinkDraws (ws : List CmdWord) (s : State) : (s.issueAll ws).sinkDraws = s.sinkDraws := rfl

/-! ### State.emit -/

@[simp] theorem State.emit_mode (w : List Byte) (s : State) : (s.emit w).mode = s.mode := rfl
@[simp] theorem State.emit_fault (w : List Byte) (s : State) : (s.emit w).fault = s.fault := rfl
@[simp] theorem State.emit_refused (w : List Byte) (s : State) : (s.emit w).refused = s.refused := rfl
@[simp] theorem State.emit_dict (w : List Byte) (s : State) : (s.emit w).dict = s.dict := rfl
@[simp] theorem State.emit_nextCode (w : List Byte) (s : State) : (s.emit w).nextCode = s.nextCode := rfl
@[simp] theorem State.emit_encS (w : List Byte) (s : State) : (s.emit w).encS = s.encS := rfl
@[simp] theorem State.emit_encSCode (w : List Byte) (s : State) : (s.emit w).encSCode = s.encSCode := rfl
@[simp] theorem State.emit_pkOdd (w : List Byte) (s : State) : (s.emit w).pkOdd = s.pkOdd := rfl
@[simp] theorem State.emit_pkStage0 (w : List Byte) (s : State) : (s.emit w).pkStage0 = s.pkStage0 := rfl
@[simp] theorem State.emit_pkStage1 (w : List Byte) (s : State) : (s.emit w).pkStage1 = s.pkStage1 := rfl
@[simp] theorem State.emit_upFill (w : List Byte) (s : State) : (s.emit w).upFill = s.upFill := rfl
@[simp] theorem State.emit_upHold0 (w : List Byte) (s : State) : (s.emit w).upHold0 = s.upHold0 := rfl
@[simp] theorem State.emit_upHold1 (w : List Byte) (s : State) : (s.emit w).upHold1 = s.upHold1 := rfl
@[simp] theorem State.emit_decHavePrior (w : List Byte) (s : State) : (s.emit w).decHavePrior = s.decHavePrior := rfl
@[simp] theorem State.emit_decPriorCode (w : List Byte) (s : State) : (s.emit w).decPriorCode = s.decPriorCode := rfl
@[simp] theorem State.emit_decPriorSym (w : List Byte) (s : State) : (s.emit w).decPriorSym = s.decPriorSym := rfl
@[simp] theorem State.emit_outBytes (w : List Byte) (s : State) : (s.emit w).outBytes = s.outBytes ++ w := rfl
@[simp] theorem State.emit_outCodes (w : List Byte) (s : State) : (s.emit w).outCodes = s.outCodes := rfl
@[simp] theorem State.emit_pending (w : List Byte) (s : State) : (s.emit w).pending = s.pending := rfl
@[simp] theorem State.emit_sinkAnswers (w : List Byte) (s : State) : (s.emit w).sinkAnswers = s.sinkAnswers := rfl
@[simp] theorem State.emit_sinkDraws (w : List Byte) (s : State) : (s.emit w).sinkDraws = s.sinkDraws := rfl

/-! ### State.emitCode -/

@[simp] theorem State.emitCode_mode (k : Code) (s : State) : (s.emitCode k).mode = s.mode := rfl
@[simp] theorem State.emitCode_fault (k : Code) (s : State) : (s.emitCode k).fault = s.fault := rfl
@[simp] theorem State.emitCode_refused (k : Code) (s : State) : (s.emitCode k).refused = s.refused := rfl
@[simp] theorem State.emitCode_dict (k : Code) (s : State) : (s.emitCode k).dict = s.dict := rfl
@[simp] theorem State.emitCode_nextCode (k : Code) (s : State) : (s.emitCode k).nextCode = s.nextCode := rfl
@[simp] theorem State.emitCode_encS (k : Code) (s : State) : (s.emitCode k).encS = s.encS := rfl
@[simp] theorem State.emitCode_encSCode (k : Code) (s : State) : (s.emitCode k).encSCode = s.encSCode := rfl
@[simp] theorem State.emitCode_pkOdd (k : Code) (s : State) : (s.emitCode k).pkOdd = s.pkOdd := rfl
@[simp] theorem State.emitCode_pkStage0 (k : Code) (s : State) : (s.emitCode k).pkStage0 = s.pkStage0 := rfl
@[simp] theorem State.emitCode_pkStage1 (k : Code) (s : State) : (s.emitCode k).pkStage1 = s.pkStage1 := rfl
@[simp] theorem State.emitCode_upFill (k : Code) (s : State) : (s.emitCode k).upFill = s.upFill := rfl
@[simp] theorem State.emitCode_upHold0 (k : Code) (s : State) : (s.emitCode k).upHold0 = s.upHold0 := rfl
@[simp] theorem State.emitCode_upHold1 (k : Code) (s : State) : (s.emitCode k).upHold1 = s.upHold1 := rfl
@[simp] theorem State.emitCode_decHavePrior (k : Code) (s : State) : (s.emitCode k).decHavePrior = s.decHavePrior := rfl
@[simp] theorem State.emitCode_decPriorCode (k : Code) (s : State) : (s.emitCode k).decPriorCode = s.decPriorCode := rfl
@[simp] theorem State.emitCode_decPriorSym (k : Code) (s : State) : (s.emitCode k).decPriorSym = s.decPriorSym := rfl
@[simp] theorem State.emitCode_outBytes (k : Code) (s : State) : (s.emitCode k).outBytes = s.outBytes := rfl
@[simp] theorem State.emitCode_outCodes (k : Code) (s : State) : (s.emitCode k).outCodes = s.outCodes ++ [k] := rfl
@[simp] theorem State.emitCode_pending (k : Code) (s : State) : (s.emitCode k).pending = s.pending := rfl
@[simp] theorem State.emitCode_sinkAnswers (k : Code) (s : State) : (s.emitCode k).sinkAnswers = s.sinkAnswers := rfl
@[simp] theorem State.emitCode_sinkDraws (k : Code) (s : State) : (s.emitCode k).sinkDraws = s.sinkDraws := rfl

/-! ### State.sinkNext -/

@[simp] theorem State.sinkNext_mode (s : State) : s.sinkNext.mode = s.mode := by unfold State.sinkNext; split <;> rfl
@[simp] theorem State.sinkNext_fault (s : State) : s.sinkNext.fault = s.fault := by unfold State.sinkNext; split <;> rfl
@[simp] theorem State.sinkNext_refused (s : State) : s.sinkNext.refused = s.refused := by unfold State.sinkNext; split <;> rfl
@[simp] theorem State.sinkNext_dict (s : State) : s.sinkNext.dict = s.dict := by unfold State.sinkNext; split <;> rfl
@[simp] theorem State.sinkNext_nextCode (s : State) : s.sinkNext.nextCode = s.nextCode := by unfold State.sinkNext; split <;> rfl
@[simp] theorem State.sinkNext_encS (s : State) : s.sinkNext.encS = s.encS := by unfold State.sinkNext; split <;> rfl
@[simp] theorem State.sinkNext_encSCode (s : State) : s.sinkNext.encSCode = s.encSCode := by unfold State.sinkNext; split <;> rfl
@[simp] theorem State.sinkNext_pkOdd (s : State) : s.sinkNext.pkOdd = s.pkOdd := by unfold State.sinkNext; split <;> rfl
@[simp] theorem State.sinkNext_pkStage0 (s : State) : s.sinkNext.pkStage0 = s.pkStage0 := by unfold State.sinkNext; split <;> rfl
@[simp] theorem State.sinkNext_pkStage1 (s : State) : s.sinkNext.pkStage1 = s.pkStage1 := by unfold State.sinkNext; split <;> rfl
@[simp] theorem State.sinkNext_upFill (s : State) : s.sinkNext.upFill = s.upFill := by unfold State.sinkNext; split <;> rfl
@[simp] theorem State.sinkNext_upHold0 (s : State) : s.sinkNext.upHold0 = s.upHold0 := by unfold State.sinkNext; split <;> rfl
@[simp] theorem State.sinkNext_upHold1 (s : State) : s.sinkNext.upHold1 = s.upHold1 := by unfold State.sinkNext; split <;> rfl
@[simp] theorem State.sinkNext_decHavePrior (s : State) : s.sinkNext.decHavePrior = s.decHavePrior := by unfold State.sinkNext; split <;> rfl
@[simp] theorem State.sinkNext_decPriorCode (s : State) : s.sinkNext.decPriorCode = s.decPriorCode := by unfold State.sinkNext; split <;> rfl
@[simp] theorem State.sinkNext_decPriorSym (s : State) : s.sinkNext.decPriorSym = s.decPriorSym := by unfold State.sinkNext; split <;> rfl
@[simp] theorem State.sinkNext_outBytes (s : State) : s.sinkNext.outBytes = s.outBytes := by unfold State.sinkNext; split <;> rfl
@[simp] theorem State.sinkNext_outCodes (s : State) : s.sinkNext.outCodes = s.outCodes := by unfold State.sinkNext; split <;> rfl
@[simp] theorem State.sinkNext_pending (s : State) : s.sinkNext.pending = s.pending := by unfold State.sinkNext; split <;> rfl

/-! ### State.unpackNext -/

@[simp] theorem State.unpackNext_mode (b : Byte) (s : State) : (s.unpackNext b).mode = s.mode := by unfold State.unpackNext; split <;> rfl
@[simp] theorem State.unpackNext_fault (b : Byte) (s : State) : (s.unpackNext b).fault = s.fault := by unfold State.unpackNext; split <;> rfl
@[simp] theorem State.unpackNext_refused (b : Byte) (s : State) : (s.unpackNext b).refused = s.refused := by unfold State.unpackNext; split <;> rfl
@[simp] theorem State.unpackNext_dict (b : Byte) (s : State) : (s.unpackNext b).dict = s.dict := by unfold State.unpackNext; split <;> rfl
@[simp] theorem State.unpackNext_nextCode (b : Byte) (s : State) : (s.unpackNext b).nextCode = s.nextCode := by unfold State.unpackNext; split <;> rfl
@[simp] theorem State.unpackNext_encS (b : Byte) (s : State) : (s.unpackNext b).encS = s.encS := by unfold State.unpackNext; split <;> rfl
@[simp] theorem State.unpackNext_encSCode (b : Byte) (s : State) : (s.unpackNext b).encSCode = s.encSCode := by unfold State.unpackNext; split <;> rfl
@[simp] theorem State.unpackNext_pkOdd (b : Byte) (s : State) : (s.unpackNext b).pkOdd = s.pkOdd := by unfold State.unpackNext; split <;> rfl
@[simp] theorem State.unpackNext_pkStage0 (b : Byte) (s : State) : (s.unpackNext b).pkStage0 = s.pkStage0 := by unfold State.unpackNext; split <;> rfl
@[simp] theorem State.unpackNext_pkStage1 (b : Byte) (s : State) : (s.unpackNext b).pkStage1 = s.pkStage1 := by unfold State.unpackNext; split <;> rfl
@[simp] theorem State.unpackNext_decHavePrior (b : Byte) (s : State) : (s.unpackNext b).decHavePrior = s.decHavePrior := by unfold State.unpackNext; split <;> rfl
@[simp] theorem State.unpackNext_decPriorCode (b : Byte) (s : State) : (s.unpackNext b).decPriorCode = s.decPriorCode := by unfold State.unpackNext; split <;> rfl
@[simp] theorem State.unpackNext_decPriorSym (b : Byte) (s : State) : (s.unpackNext b).decPriorSym = s.decPriorSym := by unfold State.unpackNext; split <;> rfl
@[simp] theorem State.unpackNext_outBytes (b : Byte) (s : State) : (s.unpackNext b).outBytes = s.outBytes := by unfold State.unpackNext; split <;> rfl
@[simp] theorem State.unpackNext_outCodes (b : Byte) (s : State) : (s.unpackNext b).outCodes = s.outCodes := by unfold State.unpackNext; split <;> rfl
@[simp] theorem State.unpackNext_pending (b : Byte) (s : State) : (s.unpackNext b).pending = s.pending := by unfold State.unpackNext; split <;> rfl
@[simp] theorem State.unpackNext_sinkAnswers (b : Byte) (s : State) : (s.unpackNext b).sinkAnswers = s.sinkAnswers := by unfold State.unpackNext; split <;> rfl
@[simp] theorem State.unpackNext_sinkDraws (b : Byte) (s : State) : (s.unpackNext b).sinkDraws = s.sinkDraws := by unfold State.unpackNext; split <;> rfl

/-! ### dictCeilingCheck and streamStart -/

@[simp] theorem dictCeilingCheck_mode (s : State) : (dictCeilingCheck s).mode = s.mode := by unfold dictCeilingCheck; split <;> rfl
@[simp] theorem dictCeilingCheck_fault (s : State) : (dictCeilingCheck s).fault = s.fault := by unfold dictCeilingCheck; split <;> rfl
@[simp] theorem dictCeilingCheck_refused (s : State) : (dictCeilingCheck s).refused = s.refused := by unfold dictCeilingCheck; split <;> rfl
@[simp] theorem dictCeilingCheck_encS (s : State) : (dictCeilingCheck s).encS = s.encS := by unfold dictCeilingCheck; split <;> rfl
@[simp] theorem dictCeilingCheck_encSCode (s : State) : (dictCeilingCheck s).encSCode = s.encSCode := by unfold dictCeilingCheck; split <;> rfl
@[simp] theorem dictCeilingCheck_pkOdd (s : State) : (dictCeilingCheck s).pkOdd = s.pkOdd := by unfold dictCeilingCheck; split <;> rfl
@[simp] theorem dictCeilingCheck_pkStage0 (s : State) : (dictCeilingCheck s).pkStage0 = s.pkStage0 := by unfold dictCeilingCheck; split <;> rfl
@[simp] theorem dictCeilingCheck_pkStage1 (s : State) : (dictCeilingCheck s).pkStage1 = s.pkStage1 := by unfold dictCeilingCheck; split <;> rfl
@[simp] theorem dictCeilingCheck_upFill (s : State) : (dictCeilingCheck s).upFill = s.upFill := by unfold dictCeilingCheck; split <;> rfl
@[simp] theorem dictCeilingCheck_upHold0 (s : State) : (dictCeilingCheck s).upHold0 = s.upHold0 := by unfold dictCeilingCheck; split <;> rfl
@[simp] theorem dictCeilingCheck_upHold1 (s : State) : (dictCeilingCheck s).upHold1 = s.upHold1 := by unfold dictCeilingCheck; split <;> rfl
@[simp] theorem dictCeilingCheck_decHavePrior (s : State) : (dictCeilingCheck s).decHavePrior = s.decHavePrior := by unfold dictCeilingCheck; split <;> rfl
@[simp] theorem dictCeilingCheck_decPriorCode (s : State) : (dictCeilingCheck s).decPriorCode = s.decPriorCode := by unfold dictCeilingCheck; split <;> rfl
@[simp] theorem dictCeilingCheck_decPriorSym (s : State) : (dictCeilingCheck s).decPriorSym = s.decPriorSym := by unfold dictCeilingCheck; split <;> rfl
@[simp] theorem dictCeilingCheck_outBytes (s : State) : (dictCeilingCheck s).outBytes = s.outBytes := by unfold dictCeilingCheck; split <;> rfl
@[simp] theorem dictCeilingCheck_outCodes (s : State) : (dictCeilingCheck s).outCodes = s.outCodes := by unfold dictCeilingCheck; split <;> rfl
@[simp] theorem dictCeilingCheck_pending (s : State) : (dictCeilingCheck s).pending = s.pending := by unfold dictCeilingCheck; split <;> rfl
@[simp] theorem dictCeilingCheck_sinkAnswers (s : State) : (dictCeilingCheck s).sinkAnswers = s.sinkAnswers := by unfold dictCeilingCheck; split <;> rfl
@[simp] theorem dictCeilingCheck_sinkDraws (s : State) : (dictCeilingCheck s).sinkDraws = s.sinkDraws := by unfold dictCeilingCheck; split <;> rfl

@[simp] theorem streamStart_mode (m : Mode) (s : State) : (streamStart m s).mode = m := rfl
@[simp] theorem streamStart_fault (m : Mode) (s : State) : (streamStart m s).fault = .none := rfl
@[simp] theorem streamStart_refused (m : Mode) (s : State) : (streamStart m s).refused = s.refused := rfl
@[simp] theorem streamStart_dict (m : Mode) (s : State) : (streamStart m s).dict = Dict.base := rfl
@[simp] theorem streamStart_nextCode (m : Mode) (s : State) : (streamStart m s).nextCode = 256 := rfl
@[simp] theorem streamStart_encS (m : Mode) (s : State) : (streamStart m s).encS = [] := rfl
@[simp] theorem streamStart_encSCode (m : Mode) (s : State) : (streamStart m s).encSCode = s.encSCode := rfl
@[simp] theorem streamStart_pkOdd (m : Mode) (s : State) : (streamStart m s).pkOdd = false := rfl
@[simp] theorem streamStart_pkStage0 (m : Mode) (s : State) : (streamStart m s).pkStage0 = 0 := rfl
@[simp] theorem streamStart_pkStage1 (m : Mode) (s : State) : (streamStart m s).pkStage1 = 0 := rfl
@[simp] theorem streamStart_upFill (m : Mode) (s : State) : (streamStart m s).upFill = .zero := rfl
@[simp] theorem streamStart_upHold0 (m : Mode) (s : State) : (streamStart m s).upHold0 = 0 := rfl
@[simp] theorem streamStart_upHold1 (m : Mode) (s : State) : (streamStart m s).upHold1 = 0 := rfl
@[simp] theorem streamStart_decHavePrior (m : Mode) (s : State) : (streamStart m s).decHavePrior = false := rfl
@[simp] theorem streamStart_decPriorCode (m : Mode) (s : State) : (streamStart m s).decPriorCode = s.decPriorCode := rfl
@[simp] theorem streamStart_decPriorSym (m : Mode) (s : State) : (streamStart m s).decPriorSym = s.decPriorSym := rfl
@[simp] theorem streamStart_outBytes (m : Mode) (s : State) : (streamStart m s).outBytes = [] := rfl
@[simp] theorem streamStart_outCodes (m : Mode) (s : State) : (streamStart m s).outCodes = [] := rfl
@[simp] theorem streamStart_pending (m : Mode) (s : State) : (streamStart m s).pending = s.pending := rfl
@[simp] theorem streamStart_sinkAnswers (m : Mode) (s : State) : (streamStart m s).sinkAnswers = s.sinkAnswers := rfl
@[simp] theorem streamStart_sinkDraws (m : Mode) (s : State) : (streamStart m s).sinkDraws = s.sinkDraws := rfl

end Sys2Proof.Machine
end

