-- ==== Sys2Proof/Laws/Sink.lean ====
section
/-!
SUPPORT. Everything a write to the sink can do, said once: `out`, `outCode`, `outSeq`, and how the sink's answers are
consumed (spec/60_exceptions.md R227).
-/
namespace Sys2Proof.Machine

/-! ### Sequencing -/

@[simp] theorem Eff.andThen_ok {α β : Type} (a : α) (s : State) (f : α → State → Eff β) :
    (Eff.ok a s).andThen f = f a s := rfl

@[simp] theorem Eff.andThen_raised {α β : Type} (s : State) (f : α → State → Eff β) :
    (Eff.raised s : Eff α).andThen f = .raised s := rfl

@[simp] theorem Eff.state_ok {α : Type} (a : α) (s : State) : (Eff.ok a s).state = s := rfl

@[simp] theorem Eff.state_raised {α : Type} (s : State) : (Eff.raised s : Eff α).state = s := rfl

@[simp] theorem Eff.finish_eq {α : Type} (e : Eff α) : e.finish = .next e.state := rfl

/-- A reflexive-transitive relation that each part of a step keeps is kept by the whole. -/
theorem Eff.rel_andThen {α β : Type} {R : State → State → Prop} (htr : ∀ {a b c}, R a b → R b c → R a c)
    {s : State} {e : Eff α} {f : α → State → Eff β} (he : R s e.state)
    (hf : ∀ a t, e = .ok a t → R t (f a t).state) : R s (e.andThen f).state := by
  cases e with
  | ok a t => exact htr he (hf a t rfl)
  | raised t => exact he

/-- A predicate of states that each part of a step keeps is kept by the whole. -/
theorem Eff.pred_andThen {α β : Type} {P : State → Prop} {e : Eff α} {f : α → State → Eff β}
    (he : P e.state) (hf : ∀ a t, e = .ok a t → P t → P (f a t).state) : P (e.andThen f).state := by
  cases e with
  | ok a t => exact hf a t rfl he
  | raised t => exact he

/-! ### The sink's answers -/

theorem State.sinkNext_eq (s : State) : s.sinkNext = s.sinkSkip 1 := by
  unfold State.sinkNext State.sinkSkip
  split
  · rename_i h; simp [h]
  · rename_i h; simp [h]

theorem State.sinkAnswer_eq (s : State) : s.sinkAnswer = s.sinkAnswerAt 0 := by
  unfold State.sinkAnswer State.sinkAnswerAt
  split
  · rename_i h; simp [h]
  · rename_i h; simp [h]

@[simp] theorem State.sinkSkip_zero (s : State) : s.sinkSkip 0 = s := by simp [State.sinkSkip]

theorem State.sinkSkip_sinkSkip (m n : Nat) (s : State) : (s.sinkSkip m).sinkSkip n = s.sinkSkip (m + n) := by
  simp only [State.sinkSkip, List.drop_drop, List.length_drop, State.mk.injEq, true_and]
  omega

theorem State.sinkAnswerAt_sinkSkip (m i : Nat) (s : State) :
    (s.sinkSkip m).sinkAnswerAt i = s.sinkAnswerAt (m + i) := by
  simp only [State.sinkAnswerAt, State.sinkSkip_sinkAnswers, State.sinkSkip_sinkDraws, List.getElem?_drop,
    List.length_drop]
  split
  · rfl
  · rename_i h
    have : s.sinkAnswers.length ≤ m + i := by simpa using h
    congr 1
    omega

/-- Only the two sink fields decide the sink's answers. -/
theorem State.sinkAnswerAt_congr {s t : State} (ha : t.sinkAnswers = s.sinkAnswers) (hd : t.sinkDraws = s.sinkDraws)
    (i : Nat) : t.sinkAnswerAt i = s.sinkAnswerAt i := by
  simp [State.sinkAnswerAt, ha, hd]

theorem State.SinkAccepts.congr {s t : State} (ha : t.sinkAnswers = s.sinkAnswers) (hd : t.sinkDraws = s.sinkDraws)
    {n : Nat} (h : s.SinkAccepts n) : t.SinkAccepts n := fun i hi => by
  rw [State.sinkAnswerAt_congr ha hd]; exact h i hi

theorem State.SinkAccepts.mono {s : State} {m n : Nat} (h : s.SinkAccepts n) (hmn : m ≤ n) : s.SinkAccepts m :=
  fun i hi => h i (by omega)

theorem State.SinkAccepts.skip {s : State} {m n : Nat} (h : s.SinkAccepts (m + n)) : (s.sinkSkip m).SinkAccepts n :=
  fun i hi => by rw [State.sinkAnswerAt_sinkSkip]; exact h (m + i) (by omega)

/-- A witness: fixed answers that accept. -/
theorem State.SinkAccepts.of_replicate {s : State} {n m : Nat} (h : s.sinkAnswers = List.replicate m true) (hn : n ≤ m) :
    s.SinkAccepts n := fun i hi => by
  have : i < m := by omega
  simp [State.sinkAnswerAt, h, this]

/-! ### Writes -/

theorem out_accepted {b : Byte} {s : State} (h : s.sinkAnswerAt 0 = true) :
    out b s = .ok () ((s.sinkSkip 1).emit [b]) := by
  simp [out, State.sinkAnswer_eq, State.sinkNext_eq, h]

theorem out_failed {b : Byte} {s : State} (h : s.sinkAnswerAt 0 = false) :
    out b s = .raised ((s.sinkSkip 1).raise .ioFailure) := by
  simp [out, State.sinkAnswer_eq, State.sinkNext_eq, h]

theorem outCode_accepted {k : Code} {s : State} (h : s.sinkAnswerAt 0 = true) :
    outCode k s = .ok () ((s.sinkSkip 1).emitCode k) := by
  simp [outCode, State.sinkAnswer_eq, State.sinkNext_eq, h]

theorem outCode_failed {k : Code} {s : State} (h : s.sinkAnswerAt 0 = false) :
    outCode k s = .raised ((s.sinkSkip 1).raise .ioFailure) := by
  simp [outCode, State.sinkAnswer_eq, State.sinkNext_eq, h]

theorem State.emit_emit (v w : List Byte) (s : State) : (s.emit v).emit w = s.emit (v ++ w) := by
  simp [State.emit]

theorem State.emit_nil (s : State) : s.emit [] = s := by simp [State.emit]

theorem State.sinkSkip_emit (n : Nat) (w : List Byte) (s : State) :
    (s.emit w).sinkSkip n = (s.sinkSkip n).emit w := rfl

theorem State.sinkAnswerAt_emit_sinkSkip (v : List Byte) (i : Nat) (s : State) :
    ((s.sinkSkip 1).emit v).sinkAnswerAt i = s.sinkAnswerAt (i + 1) := by
  rw [State.sinkAnswerAt_congr (s := s.sinkSkip 1) (t := (s.sinkSkip 1).emit v) rfl rfl, State.sinkAnswerAt_sinkSkip,
    Nat.add_comm]

/-- With the sink accepting, a byte sequence is appended whole. -/
theorem outSeq_accepted {w : List Byte} {s : State} (h : s.SinkAccepts w.length) :
    outSeq w s = .ok () ((s.sinkSkip w.length).emit w) := by
  induction w generalizing s with
  | nil => simp [outSeq, State.emit_nil]
  | cons b w ih =>
    rw [outSeq, out_accepted (h 0 (by simp)), Eff.andThen_ok, ih]
    · rw [State.sinkSkip_emit, State.sinkSkip_sinkSkip, State.emit_emit, List.length_cons, Nat.add_comm 1]
      rfl
    · have h1 : s.SinkAccepts (1 + w.length) := h.mono (by simp; omega)
      exact h1.skip.congr rfl rfl

/-- Everything a byte sequence's output can do: appended whole, or cut at the first failed write, which raises
IOFailure (60_exceptions.md R227). -/
theorem outSeq_cases (w : List Byte) (s : State) :
    (s.SinkAccepts w.length ∧ outSeq w s = .ok () ((s.sinkSkip w.length).emit w)) ∨
    ∃ m, m < w.length ∧ s.SinkAccepts m ∧ s.sinkAnswerAt m = false ∧
      outSeq w s = .raised (((s.sinkSkip (m + 1)).emit (w.take m)).raise .ioFailure) := by
  induction w generalizing s with
  | nil => exact .inl ⟨fun i hi => by simp at hi, outSeq_accepted fun i hi => by simp at hi⟩
  | cons b w ih =>
    by_cases h0 : s.sinkAnswerAt 0 = true
    · rcases ih ((s.sinkSkip 1).emit [b]) with ⟨ha, -⟩ | ⟨m, hm, ha, hf, he⟩
      · left
        have hall : s.SinkAccepts (b :: w).length := fun i hi => by
          cases i with
          | zero => exact h0
          | succ i =>
            have := ha i (by simpa using hi)
            rwa [State.sinkAnswerAt_emit_sinkSkip] at this
        exact ⟨hall, outSeq_accepted hall⟩
      · right
        refine ⟨m + 1, by simpa using hm, fun i hi => ?_, ?_, ?_⟩
        · cases i with
          | zero => exact h0
          | succ i =>
            have := ha i (by omega)
            rwa [State.sinkAnswerAt_emit_sinkSkip] at this
        · rwa [State.sinkAnswerAt_emit_sinkSkip] at hf
        · rw [outSeq, out_accepted h0, Eff.andThen_ok, he, State.sinkSkip_emit, State.sinkSkip_sinkSkip, State.emit_emit,
            Nat.add_comm 1 (m + 1)]
          rfl
    · rw [Bool.not_eq_true] at h0
      right
      refine ⟨0, by simp, fun i hi => by omega, h0, ?_⟩
      rw [outSeq, out_failed h0, Eff.andThen_raised, List.take_zero, State.emit_nil]

end Sys2Proof.Machine
end

