-- ==== Sys2Proof/Laws/Packer.lean ====
section
/-!
SUPPORT. Everything the packer and the unpacker can do, said once (spec/41_packer.md R132 to R139).
-/
namespace Sys2Proof.Machine

/-- The unit that the second code `k` of a pair completes (41_packer.md R133). -/
def State.unit (k : Code) (s : State) : List Byte := [s.pkStage0, secondByte1 s.pkStage1 k, secondByte2 k]

theorem pack_even {s : State} (h : s.pkOdd = false) (k : Code) : pack k s = .ok () (s.packFirst k) := by
  simp [pack, h]

theorem pack_odd {s : State} (h : s.pkOdd = true) (k : Code) (ha : s.SinkAccepts 3) :
    pack k s = .ok () ((s.sinkSkip 3).emit (s.unit k)).packerInit := by
  rw [pack, if_pos h, outSeq_accepted (w := [s.pkStage0, secondByte1 s.pkStage1 k, secondByte2 k]) ha]
  rfl

/-- Everything `Pack(k)` can do. -/
theorem pack_cases (k : Code) (s : State) :
    (s.pkOdd = false ∧ pack k s = .ok () (s.packFirst k)) ∨
    (s.pkOdd = true ∧ s.SinkAccepts 3 ∧ pack k s = .ok () ((s.sinkSkip 3).emit (s.unit k)).packerInit) ∨
    (s.pkOdd = true ∧ ∃ m, m < 3 ∧ s.SinkAccepts m ∧ s.sinkAnswerAt m = false ∧
      pack k s = .raised (((s.sinkSkip (m + 1)).emit ((s.unit k).take m)).raise .ioFailure)) := by
  cases h : s.pkOdd
  · exact .inl ⟨rfl, pack_even h k⟩
  · right
    rcases outSeq_cases (s.unit k) s with ⟨ha, -⟩ | ⟨m, hm, ha, hf, he⟩
    · exact .inl ⟨rfl, ha, pack_odd h k ha⟩
    · refine .inr ⟨rfl, m, hm, ha, hf, ?_⟩
      rw [pack, if_pos h]
      change (outSeq (s.unit k) s).andThen _ = _
      rw [he, Eff.andThen_raised]

theorem flush_even {s : State} (h : s.pkOdd = false) : flush s = .ok () s := by simp [flush, h]

theorem flush_odd {s : State} (h : s.pkOdd = true) (ha : s.SinkAccepts 2) :
    flush s = .ok () ((s.sinkSkip 2).emit [s.pkStage0, s.pkStage1]).packerInit := by
  rw [flush, if_pos h, outSeq_accepted (w := [s.pkStage0, s.pkStage1]) ha]
  rfl

/-- Everything `Flush()` can do. -/
theorem flush_cases (s : State) :
    (s.pkOdd = false ∧ flush s = .ok () s) ∨
    (s.pkOdd = true ∧ s.SinkAccepts 2 ∧ flush s = .ok () ((s.sinkSkip 2).emit [s.pkStage0, s.pkStage1]).packerInit) ∨
    (s.pkOdd = true ∧ ∃ m, m < 2 ∧ s.SinkAccepts m ∧ s.sinkAnswerAt m = false ∧
      flush s = .raised (((s.sinkSkip (m + 1)).emit ([s.pkStage0, s.pkStage1].take m)).raise .ioFailure)) := by
  cases h : s.pkOdd
  · exact .inl ⟨rfl, flush_even h⟩
  · right
    rcases outSeq_cases [s.pkStage0, s.pkStage1] s with ⟨ha, -⟩ | ⟨m, hm, ha, hf, he⟩
    · exact .inl ⟨rfl, ha, flush_odd h ha⟩
    · exact .inr ⟨rfl, m, hm, ha, hf, by rw [flush, if_pos h, he, Eff.andThen_raised]⟩

/-- Everything `UnpackEnd()` can do. -/
theorem unpackEnd_cases (s : State) :
    ((s.upFill = .zero ∨ (s.upFill = .two ∧ s.upHold1.toNat % 16 = 0)) ∧ unpackEnd s = .ok () s) ∨
    ((s.upFill = .one ∨ (s.upFill = .two ∧ s.upHold1.toNat % 16 ≠ 0)) ∧
      unpackEnd s = .raised (s.raise .malformedStream)) := by
  unfold unpackEnd
  cases h : s.upFill
  · exact .inl ⟨.inl rfl, rfl⟩
  · exact .inr ⟨.inl rfl, rfl⟩
  · by_cases hp : tailPadding s.upHold1 = 0
    · exact .inl ⟨.inr ⟨rfl, (tailPadding_eq_zero _).1 hp⟩, by simp only [if_pos hp]⟩
    · exact .inr ⟨.inr ⟨rfl, fun h => hp ((tailPadding_eq_zero _).2 h)⟩, by simp only [if_neg hp]⟩

/-! ### What packing, flushing and writing leave alone -/

@[simp] theorem pack_refused (k : Code) (s : State) : (pack k s).state.refused = s.refused := by
  rcases pack_cases k s with ⟨_, h⟩ | ⟨_, _, h⟩ | ⟨_, m, _, _, _, h⟩ <;> simp [h]
@[simp] theorem pack_dict (k : Code) (s : State) : (pack k s).state.dict = s.dict := by
  rcases pack_cases k s with ⟨_, h⟩ | ⟨_, _, h⟩ | ⟨_, m, _, _, _, h⟩ <;> simp [h]
@[simp] theorem pack_nextCode (k : Code) (s : State) : (pack k s).state.nextCode = s.nextCode := by
  rcases pack_cases k s with ⟨_, h⟩ | ⟨_, _, h⟩ | ⟨_, m, _, _, _, h⟩ <;> simp [h]
@[simp] theorem pack_encS (k : Code) (s : State) : (pack k s).state.encS = s.encS := by
  rcases pack_cases k s with ⟨_, h⟩ | ⟨_, _, h⟩ | ⟨_, m, _, _, _, h⟩ <;> simp [h]
@[simp] theorem pack_encSCode (k : Code) (s : State) : (pack k s).state.encSCode = s.encSCode := by
  rcases pack_cases k s with ⟨_, h⟩ | ⟨_, _, h⟩ | ⟨_, m, _, _, _, h⟩ <;> simp [h]
@[simp] theorem pack_upFill (k : Code) (s : State) : (pack k s).state.upFill = s.upFill := by
  rcases pack_cases k s with ⟨_, h⟩ | ⟨_, _, h⟩ | ⟨_, m, _, _, _, h⟩ <;> simp [h]
@[simp] theorem pack_upHold0 (k : Code) (s : State) : (pack k s).state.upHold0 = s.upHold0 := by
  rcases pack_cases k s with ⟨_, h⟩ | ⟨_, _, h⟩ | ⟨_, m, _, _, _, h⟩ <;> simp [h]
@[simp] theorem pack_upHold1 (k : Code) (s : State) : (pack k s).state.upHold1 = s.upHold1 := by
  rcases pack_cases k s with ⟨_, h⟩ | ⟨_, _, h⟩ | ⟨_, m, _, _, _, h⟩ <;> simp [h]
@[simp] theorem pack_decHavePrior (k : Code) (s : State) : (pack k s).state.decHavePrior = s.decHavePrior := by
  rcases pack_cases k s with ⟨_, h⟩ | ⟨_, _, h⟩ | ⟨_, m, _, _, _, h⟩ <;> simp [h]
@[simp] theorem pack_decPriorCode (k : Code) (s : State) : (pack k s).state.decPriorCode = s.decPriorCode := by
  rcases pack_cases k s with ⟨_, h⟩ | ⟨_, _, h⟩ | ⟨_, m, _, _, _, h⟩ <;> simp [h]
@[simp] theorem pack_decPriorSym (k : Code) (s : State) : (pack k s).state.decPriorSym = s.decPriorSym := by
  rcases pack_cases k s with ⟨_, h⟩ | ⟨_, _, h⟩ | ⟨_, m, _, _, _, h⟩ <;> simp [h]
@[simp] theorem pack_outCodes (k : Code) (s : State) : (pack k s).state.outCodes = s.outCodes := by
  rcases pack_cases k s with ⟨_, h⟩ | ⟨_, _, h⟩ | ⟨_, m, _, _, _, h⟩ <;> simp [h]
@[simp] theorem pack_pending (k : Code) (s : State) : (pack k s).state.pending = s.pending := by
  rcases pack_cases k s with ⟨_, h⟩ | ⟨_, _, h⟩ | ⟨_, m, _, _, _, h⟩ <;> simp [h]
@[simp] theorem flush_refused (s : State) : (flush s).state.refused = s.refused := by
  rcases flush_cases s with ⟨_, h⟩ | ⟨_, _, h⟩ | ⟨_, m, _, _, _, h⟩ <;> simp [h]
@[simp] theorem flush_dict (s : State) : (flush s).state.dict = s.dict := by
  rcases flush_cases s with ⟨_, h⟩ | ⟨_, _, h⟩ | ⟨_, m, _, _, _, h⟩ <;> simp [h]
@[simp] theorem flush_nextCode (s : State) : (flush s).state.nextCode = s.nextCode := by
  rcases flush_cases s with ⟨_, h⟩ | ⟨_, _, h⟩ | ⟨_, m, _, _, _, h⟩ <;> simp [h]
@[simp] theorem flush_encS (s : State) : (flush s).state.encS = s.encS := by
  rcases flush_cases s with ⟨_, h⟩ | ⟨_, _, h⟩ | ⟨_, m, _, _, _, h⟩ <;> simp [h]
@[simp] theorem flush_encSCode (s : State) : (flush s).state.encSCode = s.encSCode := by
  rcases flush_cases s with ⟨_, h⟩ | ⟨_, _, h⟩ | ⟨_, m, _, _, _, h⟩ <;> simp [h]
@[simp] theorem flush_upFill (s : State) : (flush s).state.upFill = s.upFill := by
  rcases flush_cases s with ⟨_, h⟩ | ⟨_, _, h⟩ | ⟨_, m, _, _, _, h⟩ <;> simp [h]
@[simp] theorem flush_upHold0 (s : State) : (flush s).state.upHold0 = s.upHold0 := by
  rcases flush_cases s with ⟨_, h⟩ | ⟨_, _, h⟩ | ⟨_, m, _, _, _, h⟩ <;> simp [h]
@[simp] theorem flush_upHold1 (s : State) : (flush s).state.upHold1 = s.upHold1 := by
  rcases flush_cases s with ⟨_, h⟩ | ⟨_, _, h⟩ | ⟨_, m, _, _, _, h⟩ <;> simp [h]
@[simp] theorem flush_decHavePrior (s : State) : (flush s).state.decHavePrior = s.decHavePrior := by
  rcases flush_cases s with ⟨_, h⟩ | ⟨_, _, h⟩ | ⟨_, m, _, _, _, h⟩ <;> simp [h]
@[simp] theorem flush_decPriorCode (s : State) : (flush s).state.decPriorCode = s.decPriorCode := by
  rcases flush_cases s with ⟨_, h⟩ | ⟨_, _, h⟩ | ⟨_, m, _, _, _, h⟩ <;> simp [h]
@[simp] theorem flush_decPriorSym (s : State) : (flush s).state.decPriorSym = s.decPriorSym := by
  rcases flush_cases s with ⟨_, h⟩ | ⟨_, _, h⟩ | ⟨_, m, _, _, _, h⟩ <;> simp [h]
@[simp] theorem flush_outCodes (s : State) : (flush s).state.outCodes = s.outCodes := by
  rcases flush_cases s with ⟨_, h⟩ | ⟨_, _, h⟩ | ⟨_, m, _, _, _, h⟩ <;> simp [h]
@[simp] theorem flush_pending (s : State) : (flush s).state.pending = s.pending := by
  rcases flush_cases s with ⟨_, h⟩ | ⟨_, _, h⟩ | ⟨_, m, _, _, _, h⟩ <;> simp [h]
@[simp] theorem outSeq_refused (w : List Byte) (s : State) : (outSeq w s).state.refused = s.refused := by
  rcases outSeq_cases w s with ⟨_, h⟩ | ⟨m, _, _, _, h⟩ <;> simp [h]
@[simp] theorem outSeq_dict (w : List Byte) (s : State) : (outSeq w s).state.dict = s.dict := by
  rcases outSeq_cases w s with ⟨_, h⟩ | ⟨m, _, _, _, h⟩ <;> simp [h]
@[simp] theorem outSeq_nextCode (w : List Byte) (s : State) : (outSeq w s).state.nextCode = s.nextCode := by
  rcases outSeq_cases w s with ⟨_, h⟩ | ⟨m, _, _, _, h⟩ <;> simp [h]
@[simp] theorem outSeq_encS (w : List Byte) (s : State) : (outSeq w s).state.encS = s.encS := by
  rcases outSeq_cases w s with ⟨_, h⟩ | ⟨m, _, _, _, h⟩ <;> simp [h]
@[simp] theorem outSeq_encSCode (w : List Byte) (s : State) : (outSeq w s).state.encSCode = s.encSCode := by
  rcases outSeq_cases w s with ⟨_, h⟩ | ⟨m, _, _, _, h⟩ <;> simp [h]
@[simp] theorem outSeq_pkOdd (w : List Byte) (s : State) : (outSeq w s).state.pkOdd = s.pkOdd := by
  rcases outSeq_cases w s with ⟨_, h⟩ | ⟨m, _, _, _, h⟩ <;> simp [h]
@[simp] theorem outSeq_pkStage0 (w : List Byte) (s : State) : (outSeq w s).state.pkStage0 = s.pkStage0 := by
  rcases outSeq_cases w s with ⟨_, h⟩ | ⟨m, _, _, _, h⟩ <;> simp [h]
@[simp] theorem outSeq_pkStage1 (w : List Byte) (s : State) : (outSeq w s).state.pkStage1 = s.pkStage1 := by
  rcases outSeq_cases w s with ⟨_, h⟩ | ⟨m, _, _, _, h⟩ <;> simp [h]
@[simp] theorem outSeq_upFill (w : List Byte) (s : State) : (outSeq w s).state.upFill = s.upFill := by
  rcases outSeq_cases w s with ⟨_, h⟩ | ⟨m, _, _, _, h⟩ <;> simp [h]
@[simp] theorem outSeq_upHold0 (w : List Byte) (s : State) : (outSeq w s).state.upHold0 = s.upHold0 := by
  rcases outSeq_cases w s with ⟨_, h⟩ | ⟨m, _, _, _, h⟩ <;> simp [h]
@[simp] theorem outSeq_upHold1 (w : List Byte) (s : State) : (outSeq w s).state.upHold1 = s.upHold1 := by
  rcases outSeq_cases w s with ⟨_, h⟩ | ⟨m, _, _, _, h⟩ <;> simp [h]
@[simp] theorem outSeq_decHavePrior (w : List Byte) (s : State) : (outSeq w s).state.decHavePrior = s.decHavePrior := by
  rcases outSeq_cases w s with ⟨_, h⟩ | ⟨m, _, _, _, h⟩ <;> simp [h]
@[simp] theorem outSeq_decPriorCode (w : List Byte) (s : State) : (outSeq w s).state.decPriorCode = s.decPriorCode := by
  rcases outSeq_cases w s with ⟨_, h⟩ | ⟨m, _, _, _, h⟩ <;> simp [h]
@[simp] theorem outSeq_decPriorSym (w : List Byte) (s : State) : (outSeq w s).state.decPriorSym = s.decPriorSym := by
  rcases outSeq_cases w s with ⟨_, h⟩ | ⟨m, _, _, _, h⟩ <;> simp [h]
@[simp] theorem outSeq_outCodes (w : List Byte) (s : State) : (outSeq w s).state.outCodes = s.outCodes := by
  rcases outSeq_cases w s with ⟨_, h⟩ | ⟨m, _, _, _, h⟩ <;> simp [h]
@[simp] theorem outSeq_pending (w : List Byte) (s : State) : (outSeq w s).state.pending = s.pending := by
  rcases outSeq_cases w s with ⟨_, h⟩ | ⟨m, _, _, _, h⟩ <;> simp [h]

/-- A part that did not raise left the mode and the fault alone. -/
theorem pack_ok {k : Code} {s t : State} {a : Unit} (h : pack k s = .ok a t) : t.mode = s.mode ∧ t.fault = s.fault := by
  rcases pack_cases k s with ⟨_, h'⟩ | ⟨_, _, h'⟩ | ⟨_, m, _, _, _, h'⟩ <;> (rw [h'] at h; cases h) <;> exact ⟨rfl, rfl⟩

/-- A part that raised raised IOFailure. -/
theorem pack_raised {k : Code} {s t : State} (h : pack k s = .raised t) : t.mode = .fault ∧ t.fault = .ioFailure := by
  rcases pack_cases k s with ⟨_, h'⟩ | ⟨_, _, h'⟩ | ⟨_, m, _, _, _, h'⟩ <;> (rw [h'] at h; cases h)
  exact ⟨rfl, rfl⟩

/-- A part that did not raise left the mode and the fault alone, and the packer empty. -/
theorem flush_ok {s t : State} {a : Unit} (h : flush s = .ok a t) :
    t.mode = s.mode ∧ t.fault = s.fault ∧ t.pkOdd = false := by
  rcases flush_cases s with ⟨h0, h'⟩ | ⟨_, _, h'⟩ | ⟨_, m, _, _, _, h'⟩ <;> rw [h'] at h <;> cases h
  · exact ⟨rfl, rfl, h0⟩
  · exact ⟨rfl, rfl, rfl⟩

/-- A part that raised raised IOFailure. -/
theorem flush_raised {s t : State} (h : flush s = .raised t) : t.mode = .fault ∧ t.fault = .ioFailure := by
  rcases flush_cases s with ⟨_, h'⟩ | ⟨_, _, h'⟩ | ⟨_, m, _, _, _, h'⟩ <;> (rw [h'] at h; cases h)
  exact ⟨rfl, rfl⟩

/-- A part that did not raise left the mode and the fault alone. -/
theorem outSeq_ok {w : List Byte} {s t : State} {a : Unit} (h : outSeq w s = .ok a t) :
    t.mode = s.mode ∧ t.fault = s.fault ∧ t.outBytes = s.outBytes ++ w := by
  rcases outSeq_cases w s with ⟨_, h'⟩ | ⟨m, _, _, _, h'⟩ <;> (rw [h'] at h; cases h)
  exact ⟨rfl, rfl, rfl⟩

/-- A part that raised raised IOFailure. -/
theorem outSeq_raised {w : List Byte} {s t : State} (h : outSeq w s = .raised t) :
    t.mode = .fault ∧ t.fault = .ioFailure := by
  rcases outSeq_cases w s with ⟨_, h'⟩ | ⟨m, _, _, _, h'⟩ <;> (rw [h'] at h; cases h)
  exact ⟨rfl, rfl⟩

/-! ### The commands when they are accepted or refused -/

@[simp] theorem acceptIn_accepted {m : Mode} {s : State} (h : s.mode = m) (body : Host.Outcome State Fault Refusal) :
    acceptIn m s body = body := by simp [acceptIn, h]

@[simp] theorem acceptIn_refused {m : Mode} {s : State} (h : s.mode ≠ m) (body : Host.Outcome State Fault Refusal) :
    acceptIn m s body = .next s.refuse := by simp [acceptIn, h]

end Sys2Proof.Machine
end

