-- ==== Sys2Proof/Laws/Inv.lean ====
section
/-!
SUPPORT. The invariants I1 to I8 and the parts of a step: which updates keep them, and what the dictionary operations do in
a state that meets them (spec/10_state.md R39, spec/40_dictionary.md).
-/
namespace Sys2Proof.Machine

/-! ### Updates that keep the invariants -/

/-- The invariants read only these fields; leaving ENC and DEC for another mode asks for nothing new. -/
theorem State.Inv.of_eq {s t : State} (h : s.Inv) (hd : t.dict = s.dict) (hn : t.nextCode = s.nextCode)
    (hm : t.mode = s.mode ∨ (t.mode ≠ .enc ∧ t.mode ≠ .dec)) (he : t.encS = s.encS) (hc : t.encSCode = s.encSCode)
    (hp : t.pkOdd = s.pkOdd) (h0 : t.pkStage0 = s.pkStage0) (h1 : t.pkStage1 = s.pkStage1)
    (hv : t.decHavePrior = s.decHavePrior) (hs : t.decPriorSym = s.decPriorSym) : t.Inv where
  canonical := hd ▸ h.canonical
  density := by rw [hd, hn]; exact h.density
  base := by rw [hd]; exact h.base
  range := by rw [hn]; exact h.range
  entries := by rw [hd]; exact h.entries
  noPrior := fun hm' => by rw [hv]; exact h.noPrior (by rcases hm with hm | hm <;> simp_all)
  injective := fun hm' => by rw [hd]; exact h.injective (by rcases hm with hm | hm <;> simp_all)
  encoder := fun hm' => by rw [hd, hn, he, hc]; exact h.encoder (by rcases hm with hm | hm <;> simp_all)
  packerEven := by rw [hp, h0, h1]; exact h.packerEven
  packerOdd := by rw [hp, h1]; exact h.packerOdd
  decoder := fun hm' => by rw [hv, hs]; exact h.decoder (by rcases hm with hm | hm <;> simp_all)

theorem State.Inv.refuse {s : State} (h : s.Inv) : s.refuse.Inv :=
  h.of_eq rfl rfl (.inl rfl) rfl rfl rfl rfl rfl rfl rfl

theorem State.Inv.raise {s : State} (h : s.Inv) (f : FaultCode) : (s.raise f).Inv :=
  h.of_eq rfl rfl (.inr (by simp)) rfl rfl rfl rfl rfl rfl rfl

theorem State.Inv.finishStream {s : State} (h : s.Inv) : s.finishStream.Inv :=
  h.of_eq rfl rfl (.inr (by simp)) rfl rfl rfl rfl rfl rfl rfl

theorem State.Inv.sinkSkip {s : State} (h : s.Inv) (n : Nat) : (s.sinkSkip n).Inv :=
  h.of_eq rfl rfl (.inl rfl) rfl rfl rfl rfl rfl rfl rfl

theorem State.Inv.emit {s : State} (h : s.Inv) (w : List Byte) : (s.emit w).Inv :=
  h.of_eq rfl rfl (.inl rfl) rfl rfl rfl rfl rfl rfl rfl

theorem State.Inv.emitCode {s : State} (h : s.Inv) (k : Code) : (s.emitCode k).Inv :=
  h.of_eq rfl rfl (.inl rfl) rfl rfl rfl rfl rfl rfl rfl

theorem State.Inv.unpackNext {s : State} (h : s.Inv) (b : Byte) : (s.unpackNext b).Inv :=
  h.of_eq (by simp) (by simp) (.inl (by simp)) (by simp) (by simp) (by simp) (by simp) (by simp) (by simp) (by simp)

theorem State.Inv.packerInit {s : State} (h : s.Inv) : s.packerInit.Inv where
  canonical := h.canonical
  density := h.density
  base := h.base
  range := h.range
  entries := h.entries
  noPrior := h.noPrior
  injective := h.injective
  encoder := h.encoder
  packerEven := fun _ => ⟨rfl, rfl⟩
  packerOdd := fun h => by simp at h
  decoder := h.decoder

theorem State.Inv.packFirst {s : State} (h : s.Inv) (k : Code) : (s.packFirst k).Inv where
  canonical := h.canonical
  density := h.density
  base := h.base
  range := h.range
  entries := h.entries
  noPrior := h.noPrior
  injective := h.injective
  encoder := h.encoder
  packerEven := fun h => by simp at h
  packerOdd := fun _ => firstByte1_low k
  decoder := h.decoder

/-- The tables a base table meets. -/
theorem State.Inv.of_base {s : State} (hd : s.dict = Dict.base) (hn : s.nextCode = 256)
    (he : s.mode = .enc → s.encS ≠ [] → s.dict.read s.encSCode.toNat = some s.encS)
    (h0 : s.pkOdd = false → s.pkStage0 = 0 ∧ s.pkStage1 = 0) (h1 : s.pkOdd = true → s.pkStage1.toNat % 16 = 0)
    (hv : s.mode = .dec → s.decHavePrior = true → s.decPriorSym ≠ []) (hq : s.mode = .enc → s.decHavePrior = false) :
    s.Inv where
  canonical := hd ▸ Dict.base_wf
  density := fun k => by rw [hd, hn, Dict.read_base]; split <;> simp_all
  base := fun k hk => by rw [hd, Dict.read_base, if_pos hk]
  range := by rw [hn]; decide
  entries := fun k w hk h => by rw [hd, Dict.read_base, if_neg (by omega)] at h; simp at h
  noPrior := hq
  injective := fun _ j k w hj hk => by
    rw [hd, Dict.read_base] at hj hk
    split at hj
    · split at hk
      · rename_i h1 h2
        have h3 : (some [BitVec.ofNat 8 j] : Option Symbol) = some [BitVec.ofNat 8 k] := hj.trans hk.symm
        simp only [Option.some.injEq, List.cons.injEq, and_true] at h3
        have := congrArg BitVec.toNat h3
        simp at this
        omega
      · simp at hk
    · simp at hj
  encoder := fun hm hs => by
    refine ⟨he hm hs, ?_⟩
    have := he hm hs
    rw [hd, Dict.read_base] at this
    split at this
    · rename_i h; rw [hn]; exact h
    · simp at this
  packerEven := h0
  packerOdd := h1
  decoder := hv

/-- Every START leaves a state that meets the invariants, whatever it started from (70_reset_and_hazards.md R251). -/
theorem streamStart_inv (m : Mode) (s : State) : (streamStart m s).Inv :=
  State.Inv.of_base rfl rfl (fun _ h => absurd rfl h) (fun _ => ⟨rfl, rfl⟩) (fun h => by simp at h)
    (fun _ h => by simp at h) (fun _ => rfl)

/-- I5 in ENC mode, where the encoder's lookup uses it. -/
theorem State.Inv.unique {s : State} (h : s.Inv) (hm : s.mode = .enc) {j k : Nat} {w : Symbol}
    (hj : s.dict.read j = some w) (hk : s.dict.read k = some w) : j = k := h.injective (.inl hm) j k w hj hk

/-! ### What the invariants say of the table -/

theorem State.Inv.read_lt {s : State} (h : s.Inv) {k : Nat} {w : Symbol} (hr : s.dict.read k = some w) :
    k < s.nextCode.toNat := (h.density k).1 (by rw [hr]; rfl)

theorem State.Inv.read_some {s : State} (h : s.Inv) {k : Nat} (hk : k < s.nextCode.toNat) :
    ∃ w, s.dict.read k = some w ∧ w ≠ [] := by
  have := (h.density k).2 hk
  obtain ⟨w, hw⟩ := Option.isSome_iff_exists.1 this
  exact ⟨w, hw, (Dict.read_wf h.canonical hw).2⟩

theorem State.Inv.read_none {s : State} (h : s.Inv) {k : Nat} (hk : s.nextCode.toNat ≤ k) : s.dict.read k = none := by
  have := (h.density k).not.2 (by omega)
  simpa using this

/-- A one-byte symbol stands at its own code only. -/
theorem State.Inv.read_single {s : State} (h : s.Inv) {k : Nat} {c : Byte} (hr : s.dict.read k = some [c]) :
    k = c.toNat := by
  by_cases hk : k < 256
  · have := (h.base k hk).symm.trans hr
    simp only [Option.some.injEq, List.cons.injEq, and_true] at this
    rw [← this]; simp; omega
  · have := h.entries k [c] (by omega) hr
    simp at this

/-! ### The dictionary operations in such a state -/

/-- A symbol held by no code is not found (40_dictionary.md R107). -/
theorem dictLookupSym_absent {s : State} (h : s.Inv) {w : Symbol} (hw : ∀ k, s.dict.read k ≠ some w) :
    dictLookupSym w s = .ok none s := by
  rw [dictLookupSym, (Dict.codesOf_eq_nil h.canonical).2 fun k _ => hw k]

/-- A symbol held by one code is found there (40_dictionary.md R107). -/
theorem dictLookupSym_found {s : State} (h : s.Inv) {w : Symbol} {k : Nat} (hk : s.dict.read k = some w)
    (hu : ∀ j, s.dict.read j = some w → j = k) : dictLookupSym w s = .ok (some (BitVec.ofNat 12 k)) s := by
  rw [dictLookupSym, (Dict.codesOf_eq_singleton h.canonical).2 ⟨⟨h.read_lt hk, hk⟩, fun j _ hj => hu j hj⟩]

/-- Everything the encoder's lookup can do (40_dictionary.md R107, 10_state.md R39 I5). -/
theorem dictLookupSym_cases {s : State} (h : s.Inv) (hm : s.mode = .enc) (w : Symbol) :
    ((∀ k, s.dict.read k ≠ some w) ∧ dictLookupSym w s = .ok none s) ∨
    ∃ k : Code, k.toNat < s.nextCode.toNat ∧ s.dict.read k.toNat = some w ∧ dictLookupSym w s = .ok (some k) s := by
  by_cases hw : ∀ k, s.dict.read k ≠ some w
  · exact .inl ⟨hw, dictLookupSym_absent h hw⟩
  · push Not at hw
    obtain ⟨k, hk⟩ := hw
    have hlt := (Dict.read_wf h.canonical hk).1
    have hkn : (BitVec.ofNat 12 k).toNat = k := by simp; omega
    exact .inr ⟨BitVec.ofNat 12 k, by rw [hkn]; exact h.read_lt hk, by rw [hkn]; exact hk,
      dictLookupSym_found h hk fun j hj => h.unique hm hj hk⟩

/-- Everything the ceiling check can do (40_dictionary.md R103). -/
theorem dictCeilingCheck_cases (s : State) :
    (s.nextCode.toNat ≠ 4096 ∧ dictCeilingCheck s = s) ∨ (s.nextCode.toNat = 4096 ∧ dictCeilingCheck s = s.dictReset) := by
  unfold dictCeilingCheck
  by_cases h : s.nextCode.toNat = 4096
  · exact .inr ⟨h, by simp [h, Config.ceiling]⟩
  · exact .inl ⟨h, by simp [h, Config.ceiling]⟩

/-- After the ceiling check there is room for one insertion. -/
theorem dictCeilingCheck_room {s : State} (h : s.Inv) : (dictCeilingCheck s).nextCode.toNat < 4096 := by
  rcases dictCeilingCheck_cases s with ⟨hn, he⟩ | ⟨_, he⟩
  · rw [he]; have := h.range.2; omega
  · rw [he]; simp

/-- The invariants but I6, which a reset inside an encoder step breaks until the step ends. -/
structure State.Table (s : State) : Prop where
  /-- the invariants, for the same state with an empty prefix -/
  inv : ({ s with encS := [] } : State).Inv

theorem State.Inv.table {s : State} (h : s.Inv) : s.Table :=
  ⟨{ h with encoder := fun _ hs => absurd rfl hs }⟩

theorem State.Table.ceiling {s : State} (h : s.Table) : (dictCeilingCheck s).Table := by
  rcases dictCeilingCheck_cases s with ⟨_, he⟩ | ⟨_, he⟩
  · rw [he]; exact h
  · rw [he]
    exact ⟨State.Inv.of_base rfl rfl (fun _ hs => absurd rfl hs) h.inv.packerEven h.inv.packerOdd h.inv.decoder h.inv.noPrior⟩

/-- An insertion at `nextCode` into a table with room, of a symbol of two bytes or more that an encoder's table does not
hold (40_dictionary.md R104): it succeeds. -/
theorem dictInsert_ok {s : State} (h : s.Table) (hr : s.nextCode.toNat < 4096) {w : Symbol}
    (hw : s.mode = .enc → ∀ k, s.dict.read k ≠ some w) :
    dictInsert w s.nextCode s = .ok () (s.dictAppend w s.nextCode) := by
  unfold dictInsert
  rw [if_neg (by simp [Config.ceiling]; omega)]
  by_cases hm : s.mode = .enc
  · rw [if_pos hm]
    have hl : dictLookupSym w s = .ok none s := by
      rw [dictLookupSym, (Dict.codesOf_eq_nil h.inv.canonical).2 fun k _ => hw hm k]
    rw [hl]; rfl
  · rw [if_neg hm]

theorem State.dictAppend_nextCode_toNat {s : State} (hr : s.nextCode.toNat < 4096) (w : Symbol) (k : BitVec 13) :
    (s.dictAppend w k).nextCode.toNat = s.nextCode.toNat + 1 := by
  simp only [State.dictAppend_nextCode, BitVec.toNat_add]
  simp; omega

/-- Such an insertion keeps the table's invariants; the symbol is new wherever I5 is claimed. -/
theorem State.Table.append {s : State} (h : s.Table) (hr : s.nextCode.toNat < 4096) {w : Symbol} (hl : 2 ≤ w.length)
    (hw : s.mode = .enc ∨ s.decHavePrior = false → ∀ k, s.dict.read k ≠ some w) : (s.dictAppend w s.nextCode).Table := by
  have hi := h.inv
  have hne : w ≠ [] := by intro h; simp [h] at hl
  have hrange : 256 ≤ s.nextCode.toNat := hi.range.1
  have hnext := State.dictAppend_nextCode_toNat hr w s.nextCode
  constructor
  refine ⟨Dict.wf_write hi.canonical hr hne, fun k => ?_, fun k hk => ?_, ?_, fun k v hk hv => ?_, hi.noPrior, fun hm j k v hj hk => ?_,
    fun _ hs => absurd rfl hs, hi.packerEven, hi.packerOdd, hi.decoder⟩
  · change ((s.dict.write s.nextCode.toNat w).read k).isSome = true ↔ k < (s.dictAppend w s.nextCode).nextCode.toNat
    rw [Dict.read_write, hnext]
    by_cases hkn : k = s.nextCode.toNat
    · simp [hkn]
    · rw [if_neg hkn]; have := hi.density k; simp only at this; rw [this]; omega
  · change (s.dict.write s.nextCode.toNat w).read k = _
    rw [Dict.read_write_other _ _ (by omega)]; exact hi.base k hk
  · change 256 ≤ (s.dictAppend w s.nextCode).nextCode.toNat ∧ (s.dictAppend w s.nextCode).nextCode.toNat ≤ 4096
    rw [hnext]; omega
  · change (s.dict.write s.nextCode.toNat w).read k = some v at hv
    rw [Dict.read_write] at hv
    split at hv
    · cases hv; exact hl
    · exact hi.entries k v hk hv
  · change (s.dict.write s.nextCode.toNat w).read j = some v at hj
    change (s.dict.write s.nextCode.toNat w).read k = some v at hk
    rw [Dict.read_write] at hj hk
    split at hj <;> split at hk
    · omega
    · cases hj; exact absurd hk (hw hm k)
    · cases hk; exact absurd hj (hw hm j)
    · exact hi.injective hm j k v hj hk

/-- A table's invariants with an empty prefix, or with the code of a byte as prefix, are the invariants. -/
theorem State.Table.setPrefix {s : State} (h : s.Table) (c : Byte) : (s.setPrefix [c] (codeOfByte c)).Inv := by
  have hi := h.inv
  have hc : (codeOfByte c).toNat < 256 := by rw [codeOfByte_toNat]; omega
  refine ⟨hi.canonical, hi.density, hi.base, hi.range, hi.entries, hi.noPrior, hi.injective, fun _ _ => ?_, hi.packerEven,
    hi.packerOdd, hi.decoder⟩
  refine ⟨?_, ?_⟩
  · have := hi.base _ hc
    simp only [State.setPrefix_dict, State.setPrefix_encSCode, State.setPrefix_encS]
    rw [this, codeOfByte_toNat]; simp
  · have := hi.range.1
    simp only [State.setPrefix_nextCode, State.setPrefix_encSCode]
    simp only at this
    omega

/-- A symbol of two bytes or more that a table does not hold is absent after the ceiling check too. -/
theorem dictCeilingCheck_absent {s : State} {w : Symbol} (hw : ∀ k, s.dict.read k ≠ some w) (hl : 2 ≤ w.length) (k : Nat) :
    (dictCeilingCheck s).dict.read k ≠ some w := by
  rcases dictCeilingCheck_cases s with ⟨_, he⟩ | ⟨_, he⟩
  · rw [he]; exact hw k
  · rw [he, State.dictReset_dict, Dict.read_base]
    split
    · intro h; cases h; simp at hl
    · simp

/-- Outside ENC mode the prefix is free, so the table's invariants are the invariants. -/
theorem State.Table.toInv {s : State} (h : s.Table) (hm : s.mode ≠ .enc) : s.Inv :=
  { h.inv with encoder := fun hm' => absurd hm' hm }

end Sys2Proof.Machine
end

