-- ==== Sys2Proof/Laws/Encoder.lean ====
section
/-!
SUPPORT. Everything one step of the encoder's walk can do in a state that meets the invariants, said once
(spec/42_encoder.md R162, R164).
-/
namespace Sys2Proof.Machine

theorem pack_inv {s : State} (h : s.Inv) (k : Code) : (pack k s).state.Inv := by
  rcases pack_cases k s with ⟨_, h'⟩ | ⟨_, _, h'⟩ | ⟨_, m, _, _, _, h'⟩ <;> rw [h']
  · exact h.packFirst k
  · exact ((h.sinkSkip 3).emit _).packerInit
  · exact ((h.sinkSkip _).emit _).raise _

theorem flush_inv {s : State} (h : s.Inv) : (flush s).state.Inv := by
  rcases flush_cases s with ⟨_, h'⟩ | ⟨_, _, h'⟩ | ⟨_, m, _, _, _, h'⟩ <;> rw [h']
  · exact h
  · exact ((h.sinkSkip 2).emit _).packerInit
  · exact ((h.sinkSkip _).emit _).raise _

theorem outSeq_inv {s : State} (h : s.Inv) (w : List Byte) : (outSeq w s).state.Inv := by
  rcases outSeq_cases w s with ⟨_, h'⟩ | ⟨m, _, _, _, h'⟩ <;> rw [h']
  · exact (h.sinkSkip _).emit _
  · exact ((h.sinkSkip _).emit _).raise _

/-- What the mismatch branch does once `code(s)` is packed: the ceiling check, the insertion, the new prefix. -/
def State.afterMismatch (c : Byte) (w : Symbol) (s : State) : State :=
  ((dictCeilingCheck s).dictAppend w (dictCeilingCheck s).nextCode).setPrefix [c] (codeOfByte c)

/-- With an absent `s ++ [c]`, the mismatch branch packs `code(s)` and, unless the sink failed, inserts
(42_encoder.md R162): `DictInsert` cannot fail. -/
theorem encMismatch_eq {s : State} (h : s.Inv) {c : Byte} (he : s.encS ≠ [])
    (hw : ∀ k, s.dict.read k ≠ some (s.encS ++ [c])) :
    encMismatch c (s.encS ++ [c]) s =
      (pack s.encSCode s).andThen fun _ t => .ok () (t.afterMismatch c (s.encS ++ [c])) := by
  have hl : 2 ≤ (s.encS ++ [c]).length := by
    have := List.length_pos_iff.2 he; simp; omega
  unfold encMismatch
  have hi := pack_inv h s.encSCode
  have hd := pack_dict s.encSCode s
  cases hp : pack s.encSCode s with
  | raised t => rfl
  | ok a t =>
    rw [hp, Eff.state_ok] at hi hd
    simp only [Eff.andThen_ok]
    rw [dictInsert_ok hi.table.ceiling (dictCeilingCheck_room hi) fun _ k =>
      dictCeilingCheck_absent (fun k => by rw [hd]; exact hw k) hl k]
    rfl

/-- Everything `ENC.BYTE c` can do to a state of ENC mode: extend the prefix, or take the mismatch branch with a
non-empty prefix (42_encoder.md R162 (a)). -/
theorem encWalk_cases {s : State} (h : s.Inv) (hm : s.mode = .enc) (c : Byte) :
    (∃ k : Code, k.toNat < s.nextCode.toNat ∧ s.dict.read k.toNat = some (s.encS ++ [c]) ∧
      encWalk c s = .ok () (s.setPrefix (s.encS ++ [c]) k)) ∨
    (s.encS ≠ [] ∧ (∀ k, s.dict.read k ≠ some (s.encS ++ [c])) ∧
      encWalk c s = (pack s.encSCode s).andThen fun _ t => .ok () (t.afterMismatch c (s.encS ++ [c]))) := by
  rcases dictLookupSym_cases h hm (s.encS ++ [c]) with ⟨hw, hl⟩ | ⟨k, hk, hr, hl⟩
  · have he : s.encS ≠ [] := by
      intro he
      have := h.base c.toNat (by omega)
      rw [he] at hw
      exact hw c.toNat (by rw [this]; simp)
    refine .inr ⟨he, hw, ?_⟩
    rw [encWalk]
    simp only [hl, Eff.andThen_ok]
    exact encMismatch_eq h he hw
  · refine .inl ⟨k, hk, hr, ?_⟩
    rw [encWalk]
    simp only [hl, Eff.andThen_ok]

theorem afterMismatch_inv {s : State} (h : s.Inv) {c : Byte} {w : Symbol} (hl : 2 ≤ w.length)
    (hw : ∀ k, s.dict.read k ≠ some w) : (s.afterMismatch c w).Inv :=
  (h.table.ceiling.append (dictCeilingCheck_room h) hl fun _ k => dictCeilingCheck_absent hw hl k).setPrefix c

theorem encWalk_inv {s : State} (h : s.Inv) (hm : s.mode = .enc) (c : Byte) : (encWalk c s).state.Inv := by
  rcases encWalk_cases h hm c with ⟨k, hk, hr, he⟩ | ⟨hs, hw, he⟩
  · rw [he]
    exact { h with encoder := fun _ _ => ⟨hr, hk⟩ }
  · have hl : 2 ≤ (s.encS ++ [c]).length := by
      have := List.length_pos_iff.2 hs; simp; omega
    rw [he]
    have hi := pack_inv h s.encSCode
    have hd := pack_dict s.encSCode s
    cases hp : pack s.encSCode s with
    | raised t => rw [hp] at hi; exact hi
    | ok a t =>
      rw [hp] at hi hd
      rw [Eff.state_ok] at hi hd
      exact afterMismatch_inv hi hl fun k => by rw [hd]; exact hw k

theorem encLast_inv {s : State} (h : s.Inv) : (encLast s).state.Inv := by
  unfold encLast
  split
  · exact h
  · exact pack_inv h _

end Sys2Proof.Machine
end

