-- ==== Sys2Proof/Laws/Decoder.lean ====
section
/-!
SUPPORT. Everything the decoding of one code can do in a state that meets the invariants, said once
(spec/43_decoder.md R193 to R197).
-/
namespace Sys2Proof.Machine

theorem dictCeilingCheck_inv {s : State} (h : s.Inv) (hm : s.mode ≠ .enc) : (dictCeilingCheck s).Inv :=
  h.table.ceiling.toInv (by simpa using hm)

/-- The unpacker and the table are apart: the ceiling check and the taking of a byte commute (40_dictionary.md R100). -/
theorem dictCeilingCheck_unpackNext (b : Byte) (s : State) :
    dictCeilingCheck (s.unpackNext b) = (dictCeilingCheck s).unpackNext b := by
  unfold dictCeilingCheck
  rw [State.unpackNext_nextCode]
  split
  · unfold State.unpackNext
    cases h : s.upFill <;> simp [State.dictReset, h, State.unpackerInit]
  · rfl

/-- Everything the checks of a code can do. `u` is the state after the ceiling check. -/
theorem decodeSymbols_cases {s : State} (h : s.Inv) (hm : s.mode = .dec) (k : Code) :
    (s.decHavePrior = false ∧ 256 ≤ k.toNat ∧ decodeSymbols k s = .raised (s.raise .malformedStream)) ∨
    (s.decHavePrior = false ∧ k.toNat < 256 ∧
      decodeSymbols k s = .ok { cur := [BitVec.ofNat 8 k.toNat], new := none } s) ∨
    (s.decHavePrior = true ∧ k.toNat < (dictCeilingCheck s).nextCode.toNat ∧
      ∃ b w, (dictCeilingCheck s).dict.read k.toNat = some (b :: w) ∧
        decodeSymbols k s = .ok { cur := b :: w, new := some (s.decPriorSym ++ [b]) } (dictCeilingCheck s)) ∨
    (s.decHavePrior = true ∧ k.toNat = (dictCeilingCheck s).nextCode.toNat ∧
      ∃ b w, s.decPriorSym = b :: w ∧
        decodeSymbols k s = .ok { cur := b :: w ++ [b], new := some (b :: w ++ [b]) } (dictCeilingCheck s)) ∨
    (s.decHavePrior = true ∧ (dictCeilingCheck s).nextCode.toNat < k.toNat ∧
      decodeSymbols k s = .raised ((dictCeilingCheck s).raise .malformedStream)) := by
  unfold decodeSymbols
  cases hp : s.decHavePrior
  · simp only [Bool.false_eq_true, if_false, false_and, or_false, true_and]
    unfold decodeFirst
    by_cases hk : 256 ≤ k.toNat
    · left; exact ⟨hk, by simp [Config.baseSize, hk]⟩
    · right
      refine ⟨by omega, ?_⟩
      rw [if_neg (by simpa [Config.baseSize] using hk), h.base k.toNat (by omega)]
  · simp only [if_true, false_and, false_or, true_and, Bool.true_eq_false]
    have hu : (dictCeilingCheck s).Inv := dictCeilingCheck_inv h (by simp [hm])
    unfold decodeLater
    by_cases hlt : k.toNat < (dictCeilingCheck s).nextCode.toNat
    · left
      refine ⟨hlt, ?_⟩
      obtain ⟨v, hv, hne⟩ := hu.read_some hlt
      obtain ⟨b, w, rfl⟩ := List.exists_cons_of_ne_nil hne
      refine ⟨b, w, hv, ?_⟩
      rw [if_pos hlt, decodePresent, dictLookupCode, if_neg (by omega), if_pos hlt, hv]
      simp
    · by_cases heq : k.toNat = (dictCeilingCheck s).nextCode.toNat
      · right; left
        obtain ⟨b, w, hw⟩ := List.exists_cons_of_ne_nil (h.decoder hm hp)
        refine ⟨heq, b, w, hw, ?_⟩
        rw [if_neg hlt, if_pos heq, decodeAboutToBeCreated, dictCeilingCheck_decPriorSym, hw]
      · right; right
        exact ⟨by omega, by rw [if_neg hlt, if_neg heq]⟩

/-- The insertion of the decoder cannot fail: `new` goes to `nextCode` right after the ceiling check
(43_decoder.md R194). -/
theorem decodeInsert_some {s : State} (h : s.Inv) (hm : s.mode ≠ .enc) (hr : s.nextCode.toNat < 4096) (w : Symbol) :
    decodeInsert (some w) s = .ok () (s.dictAppend w s.nextCode) :=
  dictInsert_ok h.table hr fun hm' => absurd hm' hm

theorem dictAppend_inv {s : State} (h : s.Inv) (hm : s.mode ≠ .enc) (hp : s.decHavePrior = true) (hr : s.nextCode.toNat < 4096) {w : Symbol}
    (hl : 2 ≤ w.length) : (s.dictAppend w s.nextCode).Inv :=
  (h.table.append hr hl fun hm' => by simp [hm, hp] at hm').toInv (by simpa using hm)

/-- The state between the checks of a code and its output: `cur` is what will be emitted, `v` holds the insertion. -/
def DecodesTo (k : Code) (s : State) (cur : Symbol) (v : State) : Prop :=
  cur ≠ [] ∧ v.Inv ∧ v.mode = .dec ∧
    ((s.decHavePrior = false ∧ k.toNat < 256 ∧ cur = [BitVec.ofNat 8 k.toNat] ∧ v = s) ∨
     (s.decHavePrior = true ∧ k.toNat < (dictCeilingCheck s).nextCode.toNat ∧
        (dictCeilingCheck s).dict.read k.toNat = some cur ∧
        v = (dictCeilingCheck s).dictAppend (s.decPriorSym ++ cur.take 1) (dictCeilingCheck s).nextCode) ∨
     (s.decHavePrior = true ∧ k.toNat = (dictCeilingCheck s).nextCode.toNat ∧
        cur = s.decPriorSym ++ s.decPriorSym.take 1 ∧
        v = (dictCeilingCheck s).dictAppend cur (dictCeilingCheck s).nextCode))

/-- Everything `DecodeCode(k)` can do: raise MalformedStream before any insertion or output, or insert and then write
the symbol (43_decoder.md R193, R194). -/
theorem decodeCode_cases {s : State} (h : s.Inv) (hm : s.mode = .dec) (k : Code) :
    (s.decHavePrior = false ∧ 256 ≤ k.toNat ∧ decodeCode k s = .raised (s.raise .malformedStream)) ∨
    (s.decHavePrior = true ∧ (dictCeilingCheck s).nextCode.toNat < k.toNat ∧
      decodeCode k s = .raised ((dictCeilingCheck s).raise .malformedStream)) ∨
    ∃ cur v, DecodesTo k s cur v ∧
      decodeCode k s = (outSeq cur v).andThen fun _ t => .ok () (t.setPrior k cur) := by
  have hne : s.mode ≠ .enc := by simp [hm]
  have hune : (dictCeilingCheck s).mode ≠ .enc := by simp [hm]
  have hu : (dictCeilingCheck s).Inv := dictCeilingCheck_inv h hne
  have hroom := dictCeilingCheck_room h
  unfold decodeCode
  rcases decodeSymbols_cases h hm k with ⟨hp, hk, he⟩ | ⟨hp, hk, he⟩ | ⟨hp, hk, b, w, hr, he⟩ | ⟨hp, hk, b, w, hs, he⟩ |
    ⟨hp, hk, he⟩
  · left; exact ⟨hp, hk, by rw [he]; rfl⟩
  · right; right
    refine ⟨[BitVec.ofNat 8 k.toNat], s, ⟨by simp, h, hm, .inl ⟨hp, hk, rfl, rfl⟩⟩, ?_⟩
    rw [he]; rfl
  · right; right
    have hpl : 1 ≤ s.decPriorSym.length := List.length_pos_iff.2 (h.decoder hm hp)
    refine ⟨b :: w, (dictCeilingCheck s).dictAppend (s.decPriorSym ++ [b]) (dictCeilingCheck s).nextCode,
      ⟨by simp, dictAppend_inv hu hune (by simp [hp]) hroom (by simp; omega), by simp [hm], .inr (.inl ⟨hp, hk, hr, by simp⟩)⟩, ?_⟩
    rw [he]
    simp only [Eff.andThen_ok, decodeInsert_some hu hune hroom]
  · right; right
    refine ⟨b :: w ++ [b], (dictCeilingCheck s).dictAppend (b :: w ++ [b]) (dictCeilingCheck s).nextCode,
      ⟨by simp, dictAppend_inv hu hune (by simp [hp]) hroom (by simp), by simp [hm], .inr (.inr ⟨hp, hk, by simp [hs], rfl⟩)⟩, ?_⟩
    rw [he]
    simp only [Eff.andThen_ok, decodeInsert_some hu hune hroom]
  · right; left; exact ⟨hp, hk, by rw [he]; rfl⟩

theorem decodeCode_inv {s : State} (h : s.Inv) (hm : s.mode = .dec) (k : Code) : (decodeCode k s).state.Inv := by
  rcases decodeCode_cases h hm k with ⟨_, _, he⟩ | ⟨_, _, he⟩ | ⟨cur, v, ⟨hc, hv, hvm, _⟩, he⟩ <;> rw [he]
  · exact h.raise _
  · exact (dictCeilingCheck_inv h (by simp [hm])).raise _
  · have hi := outSeq_inv hv cur
    cases hp : outSeq cur v with
    | raised t => rw [hp] at hi; exact hi
    | ok a t =>
      rw [hp] at hi
      have hte : t.mode ≠ .enc := by simp [(outSeq_ok hp).1, hvm]
      exact { hi with
        decoder := fun _ _ => hc, encoder := fun hm' => absurd hm' hte, noPrior := fun hm' => absurd hm' hte,
        injective := fun hm' => by rcases hm' with hm' | hm'; exacts [absurd hm' hte, by simp at hm'] }

end Sys2Proof.Machine
end

