-- ==== Sys2Proof/Laws/Wire.lean ====
section
/-!
SUPPORT. The whole-stream wire format two codes at a time: the bytes of the bit string are the packer's bytes
(spec/20_memory.md R56, spec/41_packer.md R132 to R134).
-/
namespace Sys2Proof.Machine

/-- The 8 bits of a byte, bit 7 first. -/
def bits8 (b : Byte) : List Bool := (List.range 8).map b.getMsbD

theorem byteOfBits_eq (b : Byte) :
    byteOfBits (b.getMsbD 0) (b.getMsbD 1) (b.getMsbD 2) (b.getMsbD 3) (b.getMsbD 4) (b.getMsbD 5) (b.getMsbD 6)
      (b.getMsbD 7) = b := by
  revert b; decide

theorem cutBytes_bits8 (b : Byte) (rest : List Bool) : cutBytes (bits8 b ++ rest) = b :: cutBytes rest := by
  change cutBytes (b.getMsbD 0 :: b.getMsbD 1 :: b.getMsbD 2 :: b.getMsbD 3 :: b.getMsbD 4 :: b.getMsbD 5 ::
    b.getMsbD 6 :: b.getMsbD 7 :: rest) = _
  rw [cutBytes, byteOfBits_eq]

/-- The bits of two codes are the bits of their group's three bytes (30_encoding.md R72). -/
theorem bits12_group (a b : Code) :
    bits12 a ++ bits12 b =
      bits8 (firstByte0 a) ++ (bits8 (secondByte1 (firstByte1 a) b) ++ bits8 (secondByte2 b)) := by
  simp [bits12, bits8, List.range_succ, firstByte0, firstByte1, secondByte1, secondByte2, BitVec.getMsbD]

/-- The bits of a last code and four zero bits are the bits of a tail's two bytes (30_encoding.md R73). -/
theorem bits12_tail (a : Code) :
    bits12 a ++ [false, false, false, false] = bits8 (firstByte0 a) ++ bits8 (firstByte1 a) := by
  simp [bits12, bits8, List.range_succ, firstByte0, firstByte1, BitVec.getMsbD]

@[simp] theorem packedStream_nil : packedStream [] = [] := rfl

/-- One code alone is a tail (20_memory.md R58). -/
theorem packedStream_single (a : Code) : packedStream [a] = [firstByte0 a, firstByte1 a] := by
  have : packedStream [a] = cutBytes (bits12 a ++ [false, false, false, false]) := by simp [packedStream]
  rw [this, bits12_tail, cutBytes_bits8, ← List.append_nil (bits8 (firstByte1 a)), cutBytes_bits8]
  rfl

/-- The first two codes are a group, and the rest is a stream of its own (30_encoding.md R72). -/
theorem packedStream_pair (a b : Code) (ks : List Code) :
    packedStream (a :: b :: ks) =
      firstByte0 a :: secondByte1 (firstByte1 a) b :: secondByte2 b :: packedStream ks := by
  have : packedStream (a :: b :: ks) = cutBytes ((bits12 a ++ bits12 b) ++ (ks.flatMap bits12 ++
      if ks.length % 2 = 1 then [false, false, false, false] else [])) := by
    simp [packedStream, Nat.add_assoc]
  rw [this, bits12_group]
  simp only [List.append_assoc, cutBytes_bits8]
  rfl

/-- Induction two codes at a time. -/
theorem codes_induction {P : List Code → Prop} (h0 : P []) (h1 : ∀ a, P [a])
    (h2 : ∀ a b ks, P ks → P (a :: b :: ks)) : ∀ ks, P ks
  | [] => h0
  | [a] => h1 a
  | a :: b :: ks => h2 a b ks (codes_induction h0 h1 h2 ks)

/-- The packed length (20_memory.md R58). -/
theorem packedStream_length (ks : List Code) :
    (packedStream ks).length = 3 * (ks.length / 2) + 2 * (ks.length % 2) := by
  induction ks using codes_induction with
  | h0 => rfl
  | h1 a => simp [packedStream_single]
  | h2 a b ks ih => simp only [packedStream_pair, List.length_cons, ih]; omega

/-- Groups in front of a stream do not change how the rest is cut. -/
theorem packedStream_append {ks : List Code} (h : ks.length % 2 = 0) (ls : List Code) :
    packedStream (ks ++ ls) = packedStream ks ++ packedStream ls := by
  induction ks using codes_induction with
  | h0 => rfl
  | h1 a => simp at h
  | h2 a b ks ih =>
    simp only [List.cons_append, packedStream_pair, List.cons_append]
    rw [ih (by simpa [Nat.add_assoc] using h)]

/-! ### The packer on a code sequence -/

/-- The packer's registers and the byte stream after the codes `ks`, none flushed (10_state.md R39 I7). -/
structure Packed (ks : List Code) (s : State) : Prop where
  /-- every whole group has been written -/
  even : ks.length % 2 = 0 → s.pkOdd = false ∧ s.outBytes = packedStream ks ∧ s.pkStage0 = 0 ∧ s.pkStage1 = 0
  /-- the last code is staged -/
  odd : ks.length % 2 = 1 → s.pkOdd = true ∧
    ∃ a ls, ks = ls ++ [a] ∧ s.outBytes = packedStream ls ∧ s.pkStage0 = firstByte0 a ∧ s.pkStage1 = firstByte1 a

/-- Only the packer's registers and the byte stream decide it. -/
theorem Packed.congr {ks : List Code} {s t : State} (h : Packed ks s) (h1 : t.pkOdd = s.pkOdd)
    (h2 : t.outBytes = s.outBytes) (h3 : t.pkStage0 = s.pkStage0) (h4 : t.pkStage1 = s.pkStage1) : Packed ks t where
  even := by rw [h1, h2, h3, h4]; exact h.even
  odd := by rw [h1, h2, h3, h4]; exact h.odd

/-- One more code: staged, or its unit written when the sink accepts. Two writes pay for each code. -/
theorem Packed.pack {ks : List Code} {s : State} (h : Packed ks s) (k : Code)
    (ha : s.SinkAccepts (if s.pkOdd then 3 else 0)) :
    ∃ t, Machine.pack k s = .ok () t ∧ Packed (ks ++ [k]) t ∧
      t = { s.sinkSkip (if s.pkOdd then 3 else 0) with
        pkOdd := t.pkOdd, pkStage0 := t.pkStage0, pkStage1 := t.pkStage1, outBytes := t.outBytes } ∧
      t.outBytes.length = s.outBytes.length + (if s.pkOdd then 3 else 0) := by
  rcases Nat.mod_two_eq_zero_or_one ks.length with hk | hk
  · obtain ⟨ho, hb, -, -⟩ := h.even hk
    refine ⟨_, pack_even ho k, ⟨fun h' => ?_, fun _ => ⟨rfl, k, ks, rfl, hb, rfl, rfl⟩⟩, ?_, ?_⟩
    · simp at h'; omega
    · simp [ho, State.packFirst]
    · simp [ho, State.packFirst]
  · obtain ⟨ho, a, ls, rfl, hb, h0, h1⟩ := h.odd hk
    rw [if_pos ho] at ha
    refine ⟨_, pack_odd ho k ha, ⟨fun _ => ⟨rfl, ?_, rfl, rfl⟩, fun h' => ?_⟩, ?_, ?_⟩
    · have hl : ls.length % 2 = 0 := by simp at hk; omega
      rw [List.append_assoc, packedStream_append hl]
      simp [State.unit, hb, h0, h1, packedStream_pair]
    · simp at h' hk; omega
    · simp [ho, State.packerInit, State.emit]
    · simp [ho, State.unit]

/-- How many bytes have been written after `n` codes, and what the next code costs. -/
theorem Packed.length {ks : List Code} {s : State} (h : Packed ks s) :
    s.outBytes.length = 3 * (ks.length / 2) ∧ (s.pkOdd = true ↔ ks.length % 2 = 1) := by
  rcases Nat.mod_two_eq_zero_or_one ks.length with hk | hk
  · obtain ⟨ho, hb, -, -⟩ := h.even hk
    rw [hb, packedStream_length]
    exact ⟨by omega, by simp [ho, hk]⟩
  · obtain ⟨ho, a, ls, rfl, hb, -, -⟩ := h.odd hk
    rw [hb, packedStream_length]
    simp only [List.length_append, List.length_singleton] at hk ⊢
    exact ⟨by omega, by simp [ho, hk]⟩

/-- The flush ends the stream with the whole-stream bytes. -/
theorem Packed.flush {ks : List Code} {s : State} (h : Packed ks s) (ha : s.SinkAccepts (if s.pkOdd then 2 else 0)) :
    ∃ t, Machine.flush s = .ok () t ∧ t.outBytes = packedStream ks ∧ t.pkOdd = false ∧ t.mode = s.mode ∧
      t.fault = s.fault ∧ t.dict = s.dict ∧ t.nextCode = s.nextCode := by
  rcases Nat.mod_two_eq_zero_or_one ks.length with hk | hk
  · obtain ⟨ho, hb, -, -⟩ := h.even hk
    exact ⟨s, flush_even ho, hb, ho, rfl, rfl, rfl, rfl⟩
  · obtain ⟨ho, a, ls, rfl, hb, h0, h1⟩ := h.odd hk
    rw [if_pos ho] at ha
    refine ⟨_, flush_odd ho ha, ?_, rfl, rfl, rfl, rfl, rfl⟩
    have hl : ls.length % 2 = 0 := by simp at hk; omega
    rw [packedStream_append hl, packedStream_single]
    simp [hb, h0, h1]

end Sys2Proof.Machine
end

