-- ==== Sys2Proof/Laws/Unpack.lean ====
section
/-!
SUPPORT. The unpacker's registers as a function of the stream bytes seen, and the codes of a byte stream unit by unit
(spec/41_packer.md R138, R139; spec/30_encoding.md R72 to R76).
-/
namespace Sys2Proof.Machine

theorem firstCode_eq (b0 b1 : Byte) : BitVec.ofNat 12 (b0.toNat * 16 + b1.toNat / 16) = firstCode b0 b1 := by
  apply BitVec.eq_of_toNat_eq
  rw [firstCode_toNat, BitVec.toNat_ofNat]
  omega

theorem secondCode_eq (b1 b2 : Byte) : BitVec.ofNat 12 (b1.toNat % 16 * 256 + b2.toNat) = secondCode b1 b2 := by
  apply BitVec.eq_of_toNat_eq
  rw [secondCode_toNat, BitVec.toNat_ofNat]
  omega

theorem streamCodes_tail (b0 b1 : Byte) :
    streamCodes [b0, b1] = if b1.toNat % 16 = 0 then some [firstCode b0 b1] else none := by
  rw [streamCodes, firstCode_eq]

theorem streamCodes_group (b0 b1 b2 : Byte) (rest : List Byte) :
    streamCodes (b0 :: b1 :: b2 :: rest) =
      (streamCodes rest).map fun ks => firstCode b0 b1 :: secondCode b1 b2 :: ks := by
  rw [streamCodes, firstCode_eq, secondCode_eq]

/-- Induction three bytes at a time. -/
theorem bytes_induction {P : List Byte → Prop} (h0 : P []) (h1 : ∀ a, P [a]) (h2 : ∀ a b, P [a, b])
    (h3 : ∀ a b c y, P y → P (a :: b :: c :: y)) : ∀ y, P y
  | [] => h0
  | [a] => h1 a
  | [a, b] => h2 a b
  | a :: b :: c :: y => h3 a b c y (bytes_induction h0 h1 h2 h3 y)

/-- Groups in front of a stream do not change how the rest is read. -/
theorem streamCodes_append {y : List Byte} (h : y.length % 3 = 0) (z : List Byte) :
    streamCodes (y ++ z) = (streamCodes y).bind fun ks => (streamCodes z).map fun ls => ks ++ ls := by
  induction y using bytes_induction with
  | h0 => simp [streamCodes]
  | h1 a => simp at h
  | h2 a b => simp at h
  | h3 a b c y ih =>
    simp only [List.cons_append, streamCodes_group]
    rw [ih (by simpa [Nat.add_assoc] using h)]
    cases streamCodes y <;> cases streamCodes z <;> rfl

/-- Bytes in groups have codes. -/
theorem streamCodes_isSome {y : List Byte} (h : y.length % 3 = 0) : ∃ ks, streamCodes y = some ks := by
  induction y using bytes_induction with
  | h0 => exact ⟨[], rfl⟩
  | h1 a => simp at h
  | h2 a b => simp at h
  | h3 a b c y ih =>
    obtain ⟨ks, hk⟩ := ih (by simpa [Nat.add_assoc] using h)
    exact ⟨_, by rw [streamCodes_group, hk]; rfl⟩

theorem streamCodes_length {y : List Byte} {ks : List Code} (h : streamCodes y = some ks) :
    ks.length = 2 * y.length / 3 := by
  induction y using bytes_induction generalizing ks with
  | h0 => cases h; rfl
  | h1 a => cases h
  | h2 a b => rw [streamCodes_tail] at h; split at h <;> cases h; simp
  | h3 a b c y ih =>
    rw [streamCodes_group] at h
    cases hy : streamCodes y with
    | none => rw [hy] at h; cases h
    | some ls => rw [hy] at h; cases h; simp only [List.length_cons, ih hy]; omega

/-- The unpacker after the bytes `y`, with the codes it has delivered (10_state.md R31, R32; 41_packer.md R138). -/
structure Unpacked (y : List Byte) (ks : List Code) (s : State) : Prop where
  /-- on a unit boundary -/
  zero : s.upFill = .zero → y.length % 3 = 0 ∧ streamCodes y = some ks
  /-- byte0 held -/
  one : s.upFill = .one → ∃ p, y = p ++ [s.upHold0] ∧ p.length % 3 = 0 ∧ streamCodes p = some ks
  /-- byte0 and byte1 held, the first code delivered -/
  two : s.upFill = .two → ∃ p ls, y = p ++ [s.upHold0, s.upHold1] ∧ p.length % 3 = 0 ∧ streamCodes p = some ls ∧
    ks = ls ++ [firstCode s.upHold0 s.upHold1]

theorem Unpacked.congr {y : List Byte} {ks : List Code} {s t : State} (h : Unpacked y ks s) (h1 : t.upFill = s.upFill)
    (h2 : t.upHold0 = s.upHold0) (h3 : t.upHold1 = s.upHold1) : Unpacked y ks t where
  zero := by rw [h1]; exact h.zero
  one := by rw [h1, h2]; exact h.one
  two := by rw [h1, h2, h3]; exact h.two

theorem Unpacked.init (s : State) : Unpacked [] [] s.unpackerInit where
  zero := fun _ => ⟨rfl, rfl⟩
  one := fun h => by simp at h
  two := fun h => by simp at h

/-- How many codes the bytes have completed. -/
theorem Unpacked.length {y : List Byte} {ks : List Code} {s : State} (h : Unpacked y ks s) :
    ks.length = 2 * y.length / 3 := by
  cases hf : s.upFill with
  | zero => exact streamCodes_length (h.zero hf).2
  | one =>
    obtain ⟨p, rfl, hp, hk⟩ := h.one hf
    rw [streamCodes_length hk]; simp; omega
  | two =>
    obtain ⟨p, ls, rfl, hp, hk, rfl⟩ := h.two hf
    simp [streamCodes_length hk]; omega

/-- One more byte delivers what `unpackCode` says. -/
theorem Unpacked.next {y : List Byte} {ks : List Code} {s : State} (h : Unpacked y ks s) (b : Byte) :
    Unpacked (y ++ [b]) (ks ++ (unpackCode b s).toList) (s.unpackNext b) := by
  cases hf : s.upFill with
  | zero =>
    obtain ⟨hy, hk⟩ := h.zero hf
    have e1 : (s.unpackNext b).upFill = .one := by simp [State.unpackNext, hf]
    have e2 : (s.unpackNext b).upHold0 = b := by simp [State.unpackNext, hf]
    refine ⟨fun h' => ?_, fun _ => ⟨y, by rw [e2], hy, by simpa [unpackCode, hf] using hk⟩, fun h' => ?_⟩
    · rw [e1] at h'; cases h'
    · rw [e1] at h'; cases h'
  | one =>
    obtain ⟨p, rfl, hp, hk⟩ := h.one hf
    have e1 : (s.unpackNext b).upFill = .two := by simp [State.unpackNext, hf]
    have e2 : (s.unpackNext b).upHold0 = s.upHold0 := by simp [State.unpackNext, hf]
    have e3 : (s.unpackNext b).upHold1 = b := by simp [State.unpackNext, hf]
    refine ⟨fun h' => ?_, fun h' => ?_, fun _ => ⟨p, ks, ?_, hp, hk, ?_⟩⟩
    · rw [e1] at h'; cases h'
    · rw [e1] at h'; cases h'
    · rw [e2, e3]; simp
    · rw [e2, e3]; simp [unpackCode, hf]
  | two =>
    obtain ⟨p, ls, rfl, hp, hk, rfl⟩ := h.two hf
    have e1 : (s.unpackNext b).upFill = .zero := by simp [State.unpackNext, hf]
    refine ⟨fun _ => ⟨by simp; omega, ?_⟩, fun h' => ?_, fun h' => ?_⟩
    · rw [List.append_assoc, streamCodes_append hp, hk]
      simp [streamCodes_group, streamCodes, unpackCode, hf]
    · rw [e1] at h'; cases h'
    · rw [e1] at h'; cases h'

/-- The end of the stream: the bytes are well formed with exactly the delivered codes, or malformed. -/
theorem Unpacked.end {y : List Byte} {ks : List Code} {s : State} (h : Unpacked y ks s) :
    (streamCodes y = some ks ∧ unpackEnd s = .ok () s) ∨
    (streamCodes y = none ∧ unpackEnd s = .raised (s.raise .malformedStream)) := by
  rcases unpackEnd_cases s with ⟨hf | ⟨hf, hz⟩, he⟩ | ⟨hf | ⟨hf, hz⟩, he⟩
  · exact .inl ⟨(h.zero hf).2, he⟩
  · obtain ⟨p, ls, rfl, hp, hk, rfl⟩ := h.two hf
    refine .inl ⟨?_, he⟩
    rw [streamCodes_append hp, hk, streamCodes_tail, if_pos hz]; rfl
  · obtain ⟨p, rfl, hp, hk⟩ := h.one hf
    refine .inr ⟨?_, he⟩
    rw [streamCodes_append hp, hk]; rfl
  · obtain ⟨p, ls, rfl, hp, hk, rfl⟩ := h.two hf
    refine .inr ⟨?_, he⟩
    rw [streamCodes_append hp, hk, streamCodes_tail, if_neg hz]; rfl

end Sys2Proof.Machine
end

