-- ==== Sys2Proof/Laws/RoundTrip.lean ====
section
/-!
SUPPORT. The decoder's table as a function of the codes decoded, and the encoder's table as that function of the codes it
has emitted: the one-insertion lag between the two sides (spec/43_decoder.md R199, R200).
-/
namespace Sys2Proof.Machine

/-- What decoding a code sequence builds: the table, the prior symbol, the bytes written. -/
structure Decoding where
  /-- the table -/
  dict : Dict
  /-- the next code -/
  next : Nat
  /-- the prior symbol, once there is one -/
  prior : Option Symbol
  /-- the bytes written -/
  out : List Byte

/-- Right after a START. -/
def Decoding.init : Decoding := { dict := Dict.base, next := 256, prior := none, out := [] }

/-- The ceiling check on a table (40_dictionary.md R103). -/
def Decoding.ceiling (d : Decoding) : Decoding :=
  if d.next = 4096 then { d with dict := Dict.base, next := 256 } else d

/-- A later code: `cur` is written, `new` inserted (43_decoder.md R194). -/
def Decoding.push (cur new : Symbol) (d : Decoding) : Decoding :=
  { dict := d.dict.write d.next new, next := d.next + 1, prior := some cur, out := d.out ++ cur }

/-- One code, with every sink write accepted (43_decoder.md R193 to R197); none for an underivable one. -/
def Decoding.step (d : Decoding) (k : Code) : Option Decoding :=
  match d.prior with
  | none =>
    if k.toNat < 256 then
      some { d with prior := some [BitVec.ofNat 8 k.toNat], out := d.out ++ [BitVec.ofNat 8 k.toNat] }
    else none
  | some p =>
    if k.toNat < d.ceiling.next then
      (d.ceiling.dict.read k.toNat).map fun cur => d.ceiling.push cur (p ++ cur.take 1)
    else if k.toNat = d.ceiling.next then some (d.ceiling.push (p ++ p.take 1) (p ++ p.take 1))
    else none

/-- A whole code sequence. -/
def decodeAll (ks : List Code) : Option Decoding := ks.foldlM Decoding.step .init

theorem decodeAll_append (ks ls : List Code) :
    decodeAll (ks ++ ls) = (decodeAll ks).bind fun d => ls.foldlM Decoding.step d := by
  simp [decodeAll, List.foldlM_append]

theorem decodeAll_concat (ks : List Code) (k : Code) :
    decodeAll (ks ++ [k]) = (decodeAll ks).bind fun d => d.step k := by
  simp [decodeAll_append]

@[simp] theorem Decoding.ceiling_out (d : Decoding) : d.ceiling.out = d.out := by
  unfold Decoding.ceiling; split <;> rfl

@[simp] theorem Decoding.ceiling_prior (d : Decoding) : d.ceiling.prior = d.prior := by
  unfold Decoding.ceiling; split <;> rfl

/-! ### The encoder's side -/

/-- The encoder's table after it has emitted `ks` and holds the prefix `s`: one insertion ahead of the decoder's
(43_decoder.md R200). `seen` is the input so far. -/
inductive InStep (seen : List Byte) (ks : List Code) (s : State) : Prop
  /-- nothing emitted yet -/
  | start (hk : ks = []) (hd : s.dict = Dict.base) (hn : s.nextCode.toNat = 256) (hs : seen = s.encS)
  /-- something emitted: the decoder lacks the entry `p ++ s[0]` -/
  | later (d : Decoding) (p : Symbol) (hk : ks ≠ []) (hd : decodeAll ks = some d) (hp : d.prior = some p) (hpn : p ≠ [])
      (hs : s.encS ≠ []) (hn : s.nextCode.toNat = d.ceiling.next + 1)
      (ht : s.dict = d.ceiling.dict.write d.ceiling.next (p ++ s.encS.take 1)) (ho : seen = d.out ++ s.encS)

/-- Only the table and the prefix decide it. -/
theorem InStep.congr {seen : List Byte} {ks : List Code} {s t : State} (h : InStep seen ks s) (h1 : t.dict = s.dict)
    (h2 : t.nextCode = s.nextCode) (h3 : t.encS = s.encS) : InStep seen ks t := by
  cases h with
  | start hk hd hn hs => exact .start hk (h1.trans hd) (by rw [h2]; exact hn) (by rw [h3]; exact hs)
  | later d p hk hd hp hpn hs hn ht ho =>
    exact .later d p hk hd hp hpn (by rwa [h3]) (by rw [h2]; exact hn) (by rw [h1, h3]; exact ht) (by rw [h3]; exact ho)

/-- Extending the prefix keeps the two sides in step. -/
theorem InStep.extend {seen : List Byte} {ks : List Code} {s : State} (h : InStep seen ks s) (c : Byte) (k : Code) :
    InStep (seen ++ [c]) ks (s.setPrefix (s.encS ++ [c]) k) := by
  cases h with
  | start hk hd hn hs => exact .start hk hd hn (by rw [hs]; rfl)
  | later d p hk hd hp hpn hs hn ht ho =>
    refine .later d p hk hd hp hpn (by simp) hn ?_ (by rw [ho]; simp)
    obtain ⟨b, w, hw⟩ := List.exists_cons_of_ne_nil hs
    rw [State.setPrefix_dict, State.setPrefix_encS, ht, hw]
    rfl

/-- Emitting the prefix's code: the decoder then holds the encoder's table, and the prefix is its prior symbol. -/
theorem InStep.emit {seen : List Byte} {ks : List Code} {s : State} (h : InStep seen ks s) (hi : s.Inv)
    (hm : s.mode = .enc) (hs : s.encS ≠ []) :
    decodeAll (ks ++ [s.encSCode]) =
      some { dict := s.dict, next := s.nextCode.toNat, prior := some s.encS, out := seen } := by
  obtain ⟨hr, hlt⟩ := hi.encoder hm hs
  rw [decodeAll_concat]
  cases h with
  | start hk hd hn hse =>
    subst hk
    rw [hn] at hlt
    have hb := hi.base _ hlt
    rw [hr] at hb
    simp only [decodeAll, List.foldlM_nil]
    change Decoding.init.step s.encSCode = _
    simp only [Decoding.step, Decoding.init, if_pos hlt, hd, hn, hse, List.nil_append, Option.some.injEq] at hb ⊢
    rw [hb]
  | later d p hk hd hp hpn hse hn ht ho =>
    rw [hd]
    change d.step s.encSCode = _
    simp only [Decoding.step, hp]
    obtain ⟨q, p', rfl⟩ := List.exists_cons_of_ne_nil hpn
    rw [ht, Dict.read_write] at hr
    rw [hn] at hlt
    by_cases hk1 : s.encSCode.toNat = d.ceiling.next
    · rw [if_pos hk1, Option.some.injEq] at hr
      rw [if_neg (by omega), if_pos hk1]
      have h1 : s.encS.take 1 = (q :: p').take 1 := by rw [← hr]; rfl
      rw [h1] at hr ht
      simp only [Decoding.push, hr, ht, hn, ho, Decoding.ceiling_out]
    · rw [if_neg hk1] at hr
      rw [if_pos (by omega), hr]
      simp only [Option.map_some, Decoding.push, ht, hn, ho, Decoding.ceiling_out]

/-- The mismatch branch, once the code is emitted: in step again, one code later. -/
theorem InStep.mismatch {seen : List Byte} {ks : List Code} {s : State} (h : InStep seen ks s) (hi : s.Inv)
    (hm : s.mode = .enc) (hs : s.encS ≠ []) (c : Byte) :
    InStep (seen ++ [c]) (ks ++ [s.encSCode]) (s.afterMismatch c (s.encS ++ [c])) := by
  have he := h.emit hi hm hs
  have hroom := dictCeilingCheck_room hi
  have hn := State.dictAppend_nextCode_toNat hroom (s.encS ++ [c]) (dictCeilingCheck s).nextCode
  refine .later _ s.encS (by simp) he rfl hs (by simp [State.afterMismatch]) ?_ ?_ (by simp [State.afterMismatch])
  · rw [State.afterMismatch, State.setPrefix_nextCode, hn]
    congr 1
    rcases dictCeilingCheck_cases s with ⟨h1, h2⟩ | ⟨h1, h2⟩ <;> rw [h2] <;> simp [Decoding.ceiling, h1]
  · rw [State.afterMismatch, State.setPrefix_dict, State.dictAppend_dict]
    rcases dictCeilingCheck_cases s with ⟨h1, h2⟩ | ⟨h1, h2⟩ <;> rw [h2] <;> simp [Decoding.ceiling, h1]

/-! ### The decoder's side -/

/-- The decoder's registers and output are those of a decoding. -/
structure Decoding.Is (d : Decoding) (s : State) : Prop where
  /-- the table -/
  dict : s.dict = d.dict
  /-- the next code -/
  next : s.nextCode.toNat = d.next
  /-- the prior symbol -/
  prior : (if s.decHavePrior then some s.decPriorSym else none) = d.prior
  /-- the bytes written -/
  out : s.outBytes = d.out

theorem Decoding.Is.congr {d : Decoding} {s t : State} (h : d.Is s) (h1 : t.dict = s.dict) (h2 : t.nextCode = s.nextCode)
    (h3 : t.decHavePrior = s.decHavePrior) (h4 : t.decPriorSym = s.decPriorSym) (h5 : t.outBytes = s.outBytes) :
    d.Is t := ⟨h1.trans h.dict, by rw [h2]; exact h.next, by rw [h3, h4]; exact h.prior, h5.trans h.out⟩

theorem Decoding.Is.ceiling {d : Decoding} {s : State} (h : d.Is s) : d.ceiling.Is (dictCeilingCheck s) := by
  rcases dictCeilingCheck_cases s with ⟨h1, h2⟩ | ⟨h1, h2⟩ <;> rw [h2]
  · rw [h.next] at h1
    rw [Decoding.ceiling, if_neg h1]; exact h
  · rw [h.next] at h1
    rw [Decoding.ceiling, if_pos h1]
    exact ⟨rfl, rfl, h.prior, h.out⟩

/-- A derivable code is decoded, if the sink accepts its symbol. -/
theorem Decoding.Is.code {d e : Decoding} {s : State} (h : d.Is s) (hi : s.Inv) (hm : s.mode = .dec) {k : Code}
    (hk : d.step k = some e) (ha : s.SinkAccepts (e.out.length - d.out.length)) :
    ∃ t, decodeCode k s = .ok () t ∧ e.Is t ∧ t.mode = .dec ∧ t.fault = s.fault ∧ t.upFill = s.upFill ∧
      t.upHold0 = s.upHold0 ∧ t.upHold1 = s.upHold1 ∧
      t.sinkAnswers = (s.sinkSkip (e.out.length - d.out.length)).sinkAnswers ∧
      t.sinkDraws = (s.sinkSkip (e.out.length - d.out.length)).sinkDraws := by
  have hc := h.ceiling
  have hroom := dictCeilingCheck_room hi
  have fin : ∀ {cur : Symbol} {v : State}, v.SinkAccepts cur.length →
      v.sinkAnswers = s.sinkAnswers → v.sinkDraws = s.sinkDraws → v.mode = .dec → v.fault = s.fault →
      v.upFill = s.upFill → v.upHold0 = s.upHold0 → v.upHold1 = s.upHold1 → v.outBytes = d.out →
      e.out = d.out ++ cur → e.dict = v.dict → e.next = v.nextCode.toNat → e.prior = some cur →
      ∃ t, ((outSeq cur v).andThen fun _ t => .ok () (t.setPrior k cur)) = .ok () t ∧ e.Is t ∧ t.mode = .dec ∧
        t.fault = s.fault ∧ t.upFill = s.upFill ∧ t.upHold0 = s.upHold0 ∧ t.upHold1 = s.upHold1 ∧
        t.sinkAnswers = (s.sinkSkip (e.out.length - d.out.length)).sinkAnswers ∧
        t.sinkDraws = (s.sinkSkip (e.out.length - d.out.length)).sinkDraws := by
    intro cur v hv h1 h2 h3 h4 h5 h6 h7 h8 h9 h10 h11 h12
    refine ⟨_, by rw [outSeq_accepted hv]; rfl, ⟨by simpa using h10.symm, by simpa using h11.symm, by simp [h12], ?_⟩,
      by simpa using h3, by simpa using h4, by simpa using h5, by simpa using h6, by simpa using h7, ?_, ?_⟩
    · simp [h9, h8]
    · simp [h9, h1]
    · simp [h9, h1, h2]
  unfold Decoding.step at hk
  rcases decodeCode_cases hi hm k with ⟨hp, hk', _⟩ | ⟨hp, hk', _⟩ | ⟨cur, v, ⟨_, _, hvm, hv⟩, he⟩
  · have := h.prior
    rw [hp] at this
    rw [← this] at hk
    simp only [Bool.false_eq_true, if_false] at hk
    rw [if_neg (by omega)] at hk
    cases hk
  · have := h.prior
    rw [hp, if_pos rfl] at this
    rw [← this] at hk
    simp only [← hc.next] at hk
    rw [if_neg (by omega), if_neg (by omega)] at hk
    cases hk
  · rw [he]
    rcases hv with ⟨hp, hk', rfl, rfl⟩ | ⟨hp, hk', hr, rfl⟩ | ⟨hp, hk', rfl, rfl⟩
    · have hpr := h.prior
      rw [hp] at hpr
      rw [← hpr] at hk
      simp only [Bool.false_eq_true, if_false, if_pos hk', Option.some.injEq] at hk
      subst hk
      simp only [List.length_append, Nat.add_sub_cancel_left] at ha
      exact fin ha rfl rfl hm rfl rfl rfl rfl h.out rfl h.dict.symm h.next.symm rfl
    · have hpr := h.prior
      rw [hp, if_pos rfl] at hpr
      rw [← hpr] at hk
      simp only [← hc.next, ← hc.dict, hr, if_pos hk', Option.map_some, Option.some.injEq] at hk
      subst hk
      simp only [Decoding.push, Decoding.ceiling_out, List.length_append, Nat.add_sub_cancel_left] at ha
      refine fin (ha.congr (by simp) (by simp)) (by simp) (by simp) (by simpa using hm) (by simp) (by simp) (by simp)
        (by simp) (by simpa using h.out) (by simp [Decoding.push]) ?_ ?_ rfl
      · simp [Decoding.push, hc.dict, hc.next]
      · rw [State.dictAppend_nextCode_toNat hroom, hc.next]; rfl
    · have hpr := h.prior
      rw [hp, if_pos rfl] at hpr
      rw [← hpr] at hk
      simp only [← hc.next] at hk
      rw [if_neg (by omega), if_pos hk', Option.some.injEq] at hk
      subst hk
      simp only [Decoding.push, Decoding.ceiling_out, List.length_append, Nat.add_sub_cancel_left] at ha
      refine fin (ha.congr (by simp) (by simp) |>.mono (by simp)) (by simp) (by simp) (by simpa using hm) (by simp)
        (by simp) (by simp) (by simp) (by simpa using h.out) (by simp [Decoding.push]) ?_ ?_ rfl
      · simp [Decoding.push, hc.dict, hc.next]
      · rw [State.dictAppend_nextCode_toNat hroom, hc.next]; rfl

end Sys2Proof.Machine
end

