-- ==== Sys2Proof/Laws/Exec.lean ====
section
/-!
SUPPORT. Every command has a next state, and what each command's step is in terms of the operations it is built from: one
equation per command and acceptance (spec/30_encoding.md R81).
-/
namespace Sys2Proof.Machine

/-- The state of an outcome; `s` itself where there is none. -/
def nextOr (s : State) : Host.Outcome State Fault Refusal → State
  | .next t => t
  | .fault _ => s
  | .refused _ => s

theorem acceptIn_next {m : Mode} {s t : State} : ∃ u, acceptIn m s (.next t) = .next u := by
  unfold acceptIn
  split
  · exact ⟨_, rfl⟩
  · exact ⟨_, rfl⟩

/-- No command stops (60_exceptions.md R220). -/
theorem exec_next (i : Instr) (s : State) : ∃ t, exec i s = .next t := by
  cases i
  case encByte c =>
    simp only [exec, execEncByte, encByteWithin]
    split <;> exact acceptIn_next
  case decByte b =>
    simp only [exec, execDecByte, decByteWithin]
    split
    · exact acceptIn_next
    · split <;> exact acceptIn_next
  case encEnd => exact acceptIn_next
  case decEnd => exact acceptIn_next
  case pkCode k => exact acceptIn_next
  case pkFlush => exact acceptIn_next
  case upByte b => exact acceptIn_next
  case upEnd => exact acceptIn_next
  all_goals exact ⟨_, rfl⟩

/-! ### Accepted data and end commands -/

theorem exec_encByte {s : State} (h : s.mode = .enc) (c : Byte) : exec (.encByte c) s = .next (encWalk c s).state := by
  simp [exec, execEncByte, encByteWithin, h, Config.maxSymbolBytes, tooLong]

theorem exec_encEnd {s : State} (h : s.mode = .enc) :
    exec .encEnd s =
      .next ((encLast s).andThen fun _ t => (flush t).andThen fun _ u => .ok () u.finishStream).state := by
  simp [exec, execEncEnd, h]

theorem decodeTooLong_none (k : Code) (s : State) : decodeTooLong none k s = false := by
  unfold decodeTooLong
  split
  · rename_i d t _
    cases hd : d.new <;> simp [tooLong]
  · rfl

theorem exec_decByte {s : State} (h : s.mode = .dec) (b : Byte) :
    exec (.decByte b) s = .next (match unpackCode b s with
      | none => s.unpackNext b
      | some k => (decodeCode k (s.unpackNext b)).state) := by
  simp only [exec, execDecByte, decByteWithin, acceptIn_accepted h, unpack, Config.maxSymbolBytes, decodeTooLong_none]
  cases unpackCode b s <;> rfl

theorem exec_decByte_none {s : State} (h : s.mode = .dec) {b : Byte} (hu : unpackCode b s = none) :
    exec (.decByte b) s = .next (s.unpackNext b) := by
  rw [exec_decByte h, hu]

theorem exec_decByte_some {s : State} (h : s.mode = .dec) {b : Byte} {k : Code} (hu : unpackCode b s = some k) :
    exec (.decByte b) s = .next (decodeCode k (s.unpackNext b)).state := by
  rw [exec_decByte h, hu]

theorem exec_decEnd {s : State} (h : s.mode = .dec) :
    exec .decEnd s = .next ((unpackEnd s).andThen fun _ t => .ok () t.finishStream).state := by
  simp [exec, execDecEnd, h]

theorem exec_pkCode {s : State} (h : s.mode = .pk) (k : Code) : exec (.pkCode k) s = .next (pack k s).state := by
  simp [exec, execPkCode, h]

theorem exec_pkFlush {s : State} (h : s.mode = .pk) :
    exec .pkFlush s = .next ((flush s).andThen fun _ t => .ok () t.finishStream).state := by
  simp [exec, execPkFlush, h]

theorem exec_upByte {s : State} (h : s.mode = .up) (b : Byte) :
    exec (.upByte b) s = .next (match unpackCode b s with
      | none => s.unpackNext b
      | some k => (outCode k (s.unpackNext b)).state) := by
  simp only [exec, execUpByte, acceptIn_accepted h, unpack]
  cases unpackCode b s <;> rfl

theorem exec_upByte_none {s : State} (h : s.mode = .up) {b : Byte} (hu : unpackCode b s = none) :
    exec (.upByte b) s = .next (s.unpackNext b) := by
  rw [exec_upByte h, hu]

theorem exec_upByte_some {s : State} (h : s.mode = .up) {b : Byte} {k : Code} (hu : unpackCode b s = some k) :
    exec (.upByte b) s = .next (outCode k (s.unpackNext b)).state := by
  rw [exec_upByte h, hu]

theorem exec_upEnd {s : State} (h : s.mode = .up) :
    exec .upEnd s = .next ((unpackEnd s).andThen fun _ t => .ok () t.finishStream).state := by
  simp [exec, execUpEnd, h]

/-- A START is `streamStart` in every mode (70_reset_and_hazards.md R251). -/
theorem exec_start {i : Instr} {m : Mode} (h : startMode i = some m) (s : State) :
    exec i s = .next (streamStart m s) := by
  cases i <;> simp [startMode] at h <;> subst h <;> rfl

/-- A command not accepted in the mode is refused (60_exceptions.md R235). -/
theorem exec_not_accepted {i : Instr} {s : State} (h : accepts i s.mode = false) : exec i s = .next s.refuse := by
  cases i <;> simp [accepts] at h <;>
    simp [exec, execEncByte, encByteWithin, execEncEnd, execDecByte, decByteWithin, execDecEnd, execPkCode, execPkFlush,
      execUpByte, execUpEnd, execReserved0, execReserved7, execReservedB, execReservedF, h]

/-- A command is a START, or it is refused, or it is accepted in the one mode it belongs to. -/
theorem exec_cases (i : Instr) (s : State) :
    (∃ m, startMode i = some m ∧ exec i s = .next (streamStart m s)) ∨
    (accepts i s.mode = false ∧ exec i s = .next s.refuse) ∨
    (∃ c, i = .encByte c ∧ s.mode = .enc) ∨ (i = .encEnd ∧ s.mode = .enc) ∨
    (∃ b, i = .decByte b ∧ s.mode = .dec) ∨ (i = .decEnd ∧ s.mode = .dec) ∨
    (∃ k, i = .pkCode k ∧ s.mode = .pk) ∨ (i = .pkFlush ∧ s.mode = .pk) ∨
    (∃ b, i = .upByte b ∧ s.mode = .up) ∨ (i = .upEnd ∧ s.mode = .up) := by
  by_cases ha : accepts i s.mode = true
  · cases i <;> simp_all [accepts, startMode] <;> rfl
  · rw [Bool.not_eq_true] at ha
    exact .inr (.inl ⟨ha, exec_not_accepted ha⟩)

/-! ### The step -/

theorem step_command {s : State} {w : CmdWord} {rest : List HostEvent} (h : s.pending = .command w :: rest) {i : Instr}
    (hd : decode w = .ok i) : step s = exec i { s with pending := rest } := by
  simp [step, State.takeEvent, h, hd]

theorem step_badWord {s : State} {w : CmdWord} {rest : List HostEvent} (h : s.pending = .command w :: rest)
    {e : DecodeError} (hd : decode w = .error e) : step s = .next ({ s with pending := rest } : State).refuse := by
  simp [step, State.takeEvent, h, hd, refuseWord]

theorem step_ioFail {s : State} {rest : List HostEvent} (h : s.pending = .ioFail :: rest) :
    step s = .next (ioFail { s with pending := rest }) := by
  simp [step, State.takeEvent, h]

theorem step_empty {s : State} (h : s.pending = []) : step s = .next s := by
  simp [step, State.takeEvent, h]

/-- `io_fail` raises IOFailure or does nothing. -/
theorem ioFail_cases (s : State) :
    (s.mode.inFlight = true ∧ ioFail s = s.raise .ioFailure) ∨ (s.mode.inFlight = false ∧ ioFail s = s) := by
  unfold ioFail
  cases h : s.mode <;> simp [Mode.inFlight]

/-- Everything a step can be. -/
theorem step_cases (s : State) :
    (s.pending = [] ∧ step s = .next s) ∨
    (∃ rest, s.pending = .ioFail :: rest ∧ step s = .next (ioFail { s with pending := rest })) ∨
    (∃ w rest e, s.pending = .command w :: rest ∧ decode w = .error e ∧
      step s = .next ({ s with pending := rest } : State).refuse) ∨
    (∃ w rest i, s.pending = .command w :: rest ∧ decode w = .ok i ∧ step s = exec i { s with pending := rest }) := by
  cases h : s.pending with
  | nil => exact .inl ⟨rfl, step_empty h⟩
  | cons e rest =>
    cases e with
    | ioFail => exact .inr (.inl ⟨rest, rfl, step_ioFail h⟩)
    | command w =>
      cases hd : decode w with
      | error e => exact .inr (.inr (.inl ⟨w, rest, e, rfl, hd, step_badWord h hd⟩))
      | ok i => exact .inr (.inr (.inr ⟨w, rest, i, rfl, hd, step_command h hd⟩))

/-! ### A command keeps the invariants -/

theorem unpackEnd_state (s : State) :
    (unpackEnd s).state = s ∨ (unpackEnd s).state = s.raise .malformedStream := by
  rcases unpackEnd_cases s with ⟨_, h⟩ | ⟨_, h⟩ <;> simp [h]

theorem exec_inv {i : Instr} {s t : State} (h : s.Inv) (he : exec i s = .next t) : t.Inv := by
  rcases exec_cases i s with ⟨m, _, h'⟩ | ⟨_, h'⟩ | ⟨c, rfl, hm⟩ | ⟨rfl, hm⟩ | ⟨b, rfl, hm⟩ | ⟨rfl, hm⟩ | ⟨k, rfl, hm⟩ |
    ⟨rfl, hm⟩ | ⟨b, rfl, hm⟩ | ⟨rfl, hm⟩
  · rw [h'] at he; cases he; exact streamStart_inv m s
  · rw [h'] at he; cases he; exact h.refuse
  · rw [exec_encByte hm] at he; cases he; exact encWalk_inv h hm c
  · rw [exec_encEnd hm] at he; cases he
    exact Eff.pred_andThen (encLast_inv h) fun _ u _ hu => Eff.pred_andThen (flush_inv hu) fun _ v _ hv => hv.finishStream
  · rw [exec_decByte hm] at he; cases he
    cases unpackCode b s with
    | none => exact h.unpackNext b
    | some k => exact decodeCode_inv (h.unpackNext b) (by simpa using hm) k
  · rw [exec_decEnd hm] at he; cases he
    refine Eff.pred_andThen ?_ fun _ u _ hu => hu.finishStream
    rcases unpackEnd_state s with h' | h' <;> rw [h']
    · exact h
    · exact h.raise _
  · rw [exec_pkCode hm] at he; cases he; exact pack_inv h k
  · rw [exec_pkFlush hm] at he; cases he
    exact Eff.pred_andThen (flush_inv h) fun _ u _ hu => hu.finishStream
  · rw [exec_upByte hm] at he; cases he
    cases unpackCode b s with
    | none => exact h.unpackNext b
    | some k =>
      have h1 := (h.unpackNext b).sinkSkip 1
      by_cases ha : (s.unpackNext b).sinkAnswerAt 0 = true
      · simp only [outCode_accepted ha]; exact h1.emitCode k
      · rw [Bool.not_eq_true] at ha; simp only [outCode_failed ha]; exact h1.raise _
  · rw [exec_upEnd hm] at he; cases he
    refine Eff.pred_andThen ?_ fun _ u _ hu => hu.finishStream
    rcases unpackEnd_state s with h' | h' <;> rw [h']
    · exact h
    · exact h.raise _

end Sys2Proof.Machine
end

