-- ==== Sys2Proof/Laws/Parts.lean ====
section
/-!
SUPPORT. What the parts of a step do from ANY state, invariants or not, and the one way to show that a command leaves
something alone: a reflexive, transitive relation that each named update meets is met by every command built from them.
-/
namespace Sys2Proof.Machine

/-- Two states with equal fields are equal. -/
theorem State.eq_of_fields {s t : State} (h1 : t.mode = s.mode) (h2 : t.fault = s.fault) (h3 : t.refused = s.refused)
    (h4 : t.dict = s.dict) (h5 : t.nextCode = s.nextCode) (h6 : t.encS = s.encS) (h7 : t.encSCode = s.encSCode)
    (h8 : t.pkOdd = s.pkOdd) (h9 : t.pkStage0 = s.pkStage0) (h10 : t.pkStage1 = s.pkStage1) (h11 : t.upFill = s.upFill)
    (h12 : t.upHold0 = s.upHold0) (h13 : t.upHold1 = s.upHold1) (h14 : t.decHavePrior = s.decHavePrior)
    (h15 : t.decPriorCode = s.decPriorCode) (h16 : t.decPriorSym = s.decPriorSym) (h17 : t.outBytes = s.outBytes)
    (h18 : t.outCodes = s.outCodes) (h19 : t.pending = s.pending) (h20 : t.sinkAnswers = s.sinkAnswers)
    (h21 : t.sinkDraws = s.sinkDraws) : t = s := by
  cases s; cases t; simp_all

/-! ### The parts from any state -/

theorem dictLookupSym_any (w : Symbol) (s : State) :
    (∃ r, dictLookupSym w s = .ok r s) ∨ dictLookupSym w s = .raised (s.raise .protocolInvariant) := by
  unfold dictLookupSym
  split
  · exact .inl ⟨_, rfl⟩
  · exact .inl ⟨_, rfl⟩
  · exact .inr rfl

/-- An insertion inserts, or raises a violation with nothing written (40_dictionary.md R104). -/
theorem dictInsert_any (w : Symbol) (k : BitVec 13) (s : State) :
    dictInsert w k s = .ok () (s.dictAppend w k) ∨ dictInsert w k s = .raised (s.raise .protocolInvariant) := by
  unfold dictInsert
  split
  · exact .inr rfl
  · split
    · rcases dictLookupSym_any w s with ⟨r, h⟩ | h <;> rw [h]
      · cases r
        · exact .inl rfl
        · exact .inr rfl
      · exact .inr rfl
    · exact .inl rfl

/-- The checks of a code write at most the ceiling check's reset; MalformedStream is raised in exactly the two cases of
60_exceptions.md R222 (c) and (d). -/
theorem decodeSymbols_any (k : Code) (s : State) :
    ∃ u, (s.decHavePrior = false ∧ u = s ∨ s.decHavePrior = true ∧ u = dictCeilingCheck s) ∧
      (((s.decHavePrior = false ∧ 256 ≤ k.toNat ∨ s.decHavePrior = true ∧ (dictCeilingCheck s).nextCode.toNat < k.toNat) ∧
          decodeSymbols k s = .raised (u.raise .malformedStream)) ∨
        (¬ (s.decHavePrior = false ∧ 256 ≤ k.toNat ∨
            s.decHavePrior = true ∧ (dictCeilingCheck s).nextCode.toNat < k.toNat) ∧
          ((∃ d, decodeSymbols k s = .ok d u) ∨ decodeSymbols k s = .raised (u.raise .protocolInvariant)))) := by
  unfold decodeSymbols
  cases hp : s.decHavePrior
  · refine ⟨s, .inl ⟨rfl, rfl⟩, ?_⟩
    simp only [Bool.false_eq_true, if_false, true_and, false_and, or_false]
    unfold decodeFirst
    by_cases hk : 256 ≤ k.toNat
    · exact .inl ⟨hk, by simp [Config.baseSize, hk]⟩
    · refine .inr ⟨hk, ?_⟩
      rw [if_neg (by simpa [Config.baseSize] using hk)]
      split
      · exact .inl ⟨_, rfl⟩
      · exact .inr rfl
  · refine ⟨dictCeilingCheck s, .inr ⟨rfl, rfl⟩, ?_⟩
    simp only [if_true, true_and, Bool.true_eq_false, false_and, false_or]
    unfold decodeLater
    by_cases hk : (dictCeilingCheck s).nextCode.toNat < k.toNat
    · exact .inl ⟨hk, by rw [if_neg (by omega), if_neg (by omega)]⟩
    · refine .inr ⟨hk, ?_⟩
      split
      · unfold decodePresent dictLookupCode
        rw [if_neg (by omega), if_pos ‹_›, Eff.andThen_ok]
        split
        · exact .inl ⟨_, rfl⟩
        · exact .inr rfl
        · exact .inr rfl
      · split
        · unfold decodeAboutToBeCreated
          split
          · exact .inl ⟨_, rfl⟩
          · exact .inr rfl
        · omega

/-! ### A relation that the updates meet -/

section Relation

variable {R : State → State → Prop} (refl : ∀ s, R s s) (trans : ∀ {a b c}, R a b → R b c → R a c)
  (raise : ∀ f s, R s (State.raise f s)) (sinkSkip : ∀ n s, R s (State.sinkSkip n s))
  (emit : ∀ w s, R s (State.emit w s)) (packerInit : ∀ s, R s (State.packerInit s))
  (packFirst : ∀ k s, R s (State.packFirst k s))
  (dictReset : ∀ s, R s (State.dictReset s)) (dictAppend : ∀ w k s, R s (State.dictAppend w k s))
  (setPrefix : ∀ w k s, R s (State.setPrefix w k s)) (setPrior : ∀ k w s, R s (State.setPrior k w s))
  (finishStream : ∀ s, R s (State.finishStream s)) (emitCode : ∀ k s, R s (State.emitCode k s))

include trans raise sinkSkip emit in
theorem outSeq_rel (w : List Byte) (s : State) : R s (outSeq w s).state := by
  rcases outSeq_cases w s with ⟨_, h⟩ | ⟨m, _, _, _, h⟩ <;> rw [h]
  · exact trans (sinkSkip _ s) (emit _ _)
  · exact trans (trans (sinkSkip _ s) (emit _ _)) (raise _ _)

include trans raise sinkSkip emit packerInit packFirst in
theorem pack_rel (k : Code) (s : State) : R s (pack k s).state := by
  rcases pack_cases k s with ⟨_, h⟩ | ⟨_, _, h⟩ | ⟨_, m, _, _, _, h⟩ <;> rw [h]
  · exact packFirst k s
  · exact trans (trans (sinkSkip _ s) (emit _ _)) (packerInit _)
  · exact trans (trans (sinkSkip _ s) (emit _ _)) (raise _ _)

include refl trans raise sinkSkip emit packerInit in
theorem flush_rel (s : State) : R s (flush s).state := by
  rcases flush_cases s with ⟨_, h⟩ | ⟨_, _, h⟩ | ⟨_, m, _, _, _, h⟩ <;> rw [h]
  · exact refl s
  · exact trans (trans (sinkSkip _ s) (emit _ _)) (packerInit _)
  · exact trans (trans (sinkSkip _ s) (emit _ _)) (raise _ _)

include trans raise sinkSkip emitCode in
theorem outCode_rel (k : Code) (s : State) : R s (outCode k s).state := by
  cases ha : s.sinkAnswerAt 0
  · rw [outCode_failed ha]; exact trans (sinkSkip _ s) (raise _ _)
  · rw [outCode_accepted ha]; exact trans (sinkSkip _ s) (emitCode _ _)

include refl raise in
theorem unpackEnd_rel (s : State) : R s (unpackEnd s).state := by
  rcases unpackEnd_state s with h | h <;> rw [h]
  · exact refl s
  · exact raise _ s

include refl trans raise finishStream in
theorem unpackEnd_finish_rel (s : State) : R s ((unpackEnd s).andThen fun _ t => .ok () t.finishStream).state :=
  Eff.rel_andThen (R := R) trans (unpackEnd_rel (R := R) refl raise s) fun _ t _ => finishStream t

include refl trans raise sinkSkip emit packerInit finishStream in
theorem flush_finish_rel (s : State) : R s ((flush s).andThen fun _ t => .ok () t.finishStream).state :=
  Eff.rel_andThen (R := R) trans (flush_rel (R := R) refl trans raise sinkSkip emit packerInit s) fun _ t _ => finishStream t

include refl dictReset in
theorem dictCeilingCheck_rel (s : State) : R s (dictCeilingCheck s) := by
  rcases dictCeilingCheck_cases s with ⟨_, h⟩ | ⟨_, h⟩ <;> rw [h]
  · exact refl s
  · exact dictReset s

include raise dictAppend in
theorem dictInsert_rel (w : Symbol) (k : BitVec 13) (s : State) : R s (dictInsert w k s).state := by
  rcases dictInsert_any w k s with h | h <;> rw [h]
  · exact dictAppend w k s
  · exact raise _ s

include refl trans raise sinkSkip emit packerInit packFirst dictReset dictAppend setPrefix in
/-- `ENC.BYTE`, from any state. -/
theorem encWalk_rel (c : Byte) (s : State) : R s (encWalk c s).state := by
  have lookup : R s (dictLookupSym (s.encS ++ [c]) s).state := by
    rcases dictLookupSym_any (s.encS ++ [c]) s with ⟨r, h⟩ | h <;> rw [h]
    · exact refl s
    · exact raise _ s
  refine Eff.rel_andThen (R := R) trans lookup fun r t _ => ?_
  cases r with
  | some k => exact setPrefix _ k t
  | none =>
    refine Eff.rel_andThen (R := R) trans (pack_rel (R := R) trans raise sinkSkip emit packerInit packFirst _ t) fun _ u _ => ?_
    exact trans (dictCeilingCheck_rel (R := R) refl dictReset u)
      (Eff.rel_andThen (R := R) trans (dictInsert_rel (R := R) raise dictAppend _ _ _) fun _ v _ => setPrefix _ _ v)

include refl trans raise sinkSkip emit packerInit packFirst finishStream in
/-- `ENC.END`, from any state. -/
theorem encEnd_rel (s : State) :
    R s ((encLast s).andThen fun _ t => (flush t).andThen fun _ u => .ok () u.finishStream).state := by
  refine Eff.rel_andThen (R := R) trans ?_ fun _ t _ =>
    flush_finish_rel (R := R) refl trans raise sinkSkip emit packerInit finishStream t
  unfold encLast
  split
  · exact refl s
  · exact pack_rel (R := R) trans raise sinkSkip emit packerInit packFirst _ s

include refl trans raise sinkSkip emit dictReset dictAppend setPrior in
/-- Decoding a code, from any state. -/
theorem decodeCode_rel (k : Code) (s : State) : R s (decodeCode k s).state := by
  obtain ⟨u, hu, hd⟩ := decodeSymbols_any k s
  have hsu : R s u := by
    rcases hu with ⟨_, rfl⟩ | ⟨_, rfl⟩
    · exact refl _
    · exact dictCeilingCheck_rel (R := R) refl dictReset s
  refine Eff.rel_andThen (R := R) trans ?_ fun d t _ => ?_
  · rcases hd with ⟨_, h⟩ | ⟨_, ⟨d, h⟩ | h⟩ <;> rw [h]
    · exact trans hsu (raise _ u)
    · exact hsu
    · exact trans hsu (raise _ u)
  · refine Eff.rel_andThen (R := R) trans ?_ fun _ v _ =>
      Eff.rel_andThen (R := R) trans (outSeq_rel (R := R) trans raise sinkSkip emit d.cur v) fun _ v' _ => setPrior _ _ v'
    unfold decodeInsert
    split
    · exact refl t
    · exact dictInsert_rel (R := R) raise dictAppend _ _ t

variable (unpackNext : ∀ b s, R s (State.unpackNext b s))

include refl trans raise sinkSkip emit packerInit packFirst dictReset dictAppend setPrefix setPrior finishStream emitCode
  unpackNext in
/-- Every accepted command but a START, from any state. -/
theorem exec_rel {i : Instr} {s t : State} (hs : startMode i = none) (ha : accepts i s.mode = true) (he : exec i s = .next t) : R s t := by
  rcases exec_cases i s with ⟨m, h, h'⟩ | ⟨h, h'⟩ | ⟨c, rfl, hm⟩ | ⟨rfl, hm⟩ | ⟨b, rfl, hm⟩ | ⟨rfl, hm⟩ | ⟨k, rfl, hm⟩ |
    ⟨rfl, hm⟩ | ⟨b, rfl, hm⟩ | ⟨rfl, hm⟩
  · simp [hs] at h
  · simp [ha] at h
  · rw [exec_encByte hm] at he; cases he
    exact encWalk_rel (R := R) refl trans raise sinkSkip emit packerInit packFirst dictReset dictAppend setPrefix c s
  · rw [exec_encEnd hm] at he; cases he
    exact encEnd_rel (R := R) refl trans raise sinkSkip emit packerInit packFirst finishStream s
  · cases hu : unpackCode b s with
    | none => rw [exec_decByte_none hm hu] at he; cases he; exact unpackNext b s
    | some k =>
      rw [exec_decByte_some hm hu] at he; cases he
      exact trans (unpackNext b s) (decodeCode_rel (R := R) refl trans raise sinkSkip emit dictReset dictAppend setPrior k _)
  · rw [exec_decEnd hm] at he; cases he
    exact unpackEnd_finish_rel (R := R) refl trans raise finishStream s
  · rw [exec_pkCode hm] at he; cases he
    exact pack_rel (R := R) trans raise sinkSkip emit packerInit packFirst k s
  · rw [exec_pkFlush hm] at he; cases he
    exact flush_finish_rel (R := R) refl trans raise sinkSkip emit packerInit finishStream s
  · cases hu : unpackCode b s with
    | none => rw [exec_upByte_none hm hu] at he; cases he; exact unpackNext b s
    | some k =>
      rw [exec_upByte_some hm hu] at he; cases he
      exact trans (unpackNext b s) (outCode_rel (R := R) trans raise sinkSkip emitCode k _)
  · rw [exec_upEnd hm] at he; cases he
    exact unpackEnd_finish_rel (R := R) refl trans raise finishStream s

end Relation

/-! ### Commands keep the queue -/

/-- A command leaves the events still queued as they are (log 1). -/
theorem exec_pending {i : Instr} {s t : State} (he : exec i s = .next t) : t.pending = s.pending := by
  have refl : ∀ s : State, s.pending = s.pending := fun _ => rfl
  have tr : ∀ {a b c : State}, b.pending = a.pending → c.pending = b.pending → c.pending = a.pending :=
    fun h1 h2 => h2.trans h1
  rcases exec_cases i s with ⟨m, _, h'⟩ | ⟨_, h'⟩ | ⟨c, rfl, hm⟩ | ⟨rfl, hm⟩ | ⟨b, rfl, hm⟩ | ⟨rfl, hm⟩ | ⟨k, rfl, hm⟩ |
    ⟨rfl, hm⟩ | ⟨b, rfl, hm⟩ | ⟨rfl, hm⟩
  · rw [h'] at he; cases he; rfl
  · rw [h'] at he; cases he; rfl
  · rw [exec_encByte hm] at he; cases he
    exact encWalk_rel (R := fun s t => t.pending = s.pending) refl tr (fun _ _ => rfl) (fun _ _ => rfl) (fun _ _ => rfl)
      (fun _ => rfl) (fun _ _ => rfl) (fun _ => rfl) (fun _ _ _ => rfl) (fun _ _ _ => rfl) c s
  · rw [exec_encEnd hm] at he; cases he
    exact encEnd_rel (R := fun s t => t.pending = s.pending) refl tr (fun _ _ => rfl) (fun _ _ => rfl) (fun _ _ => rfl)
      (fun _ => rfl) (fun _ _ => rfl) (fun _ => rfl) s
  · rw [exec_decByte hm] at he; cases he
    cases unpackCode b s with
    | none => simp
    | some k =>
      exact (decodeCode_rel (R := fun s t => t.pending = s.pending) refl tr (fun _ _ => rfl) (fun _ _ => rfl)
        (fun _ _ => rfl) (fun _ => rfl) (fun _ _ _ => rfl) (fun _ _ _ => rfl) k _).trans (by simp)
  · rw [exec_decEnd hm] at he; cases he
    exact unpackEnd_finish_rel (R := fun s t => t.pending = s.pending) refl tr (fun _ _ => rfl) (fun _ => rfl) s
  · rw [exec_pkCode hm] at he; cases he; simp
  · rw [exec_pkFlush hm] at he; cases he
    exact flush_finish_rel (R := fun s t => t.pending = s.pending) refl tr (fun _ _ => rfl) (fun _ _ => rfl)
      (fun _ _ => rfl) (fun _ => rfl) (fun _ => rfl) s
  · rw [exec_upByte hm] at he; cases he
    cases unpackCode b s with
    | none => simp
    | some k =>
      exact (outCode_rel (R := fun s t => t.pending = s.pending) tr (fun _ _ => rfl) (fun _ _ => rfl) (fun _ _ => rfl)
        k _).trans (by simp)
  · rw [exec_upEnd hm] at he; cases he
    exact unpackEnd_finish_rel (R := fun s t => t.pending = s.pending) refl tr (fun _ _ => rfl) (fun _ => rfl) s

end Sys2Proof.Machine
end

