-- ==== Sys2Proof/Laws/Run.lean ====
section
/-!
SUPPORT. Runs of several steps: a queued command runs as `exec` and leaves the rest of the queue, so a run of a command
sequence is the commands' meanings one after the other (spec/30_encoding.md R91).
-/
namespace Sys2Proof.Machine

@[simp] theorem run_zero (s : State) : run 0 s = .next s := rfl

theorem run_succ (n : Nat) (s : State) :
    run (n + 1) s = match step s with
      | .next t => run n t
      | .fault r => .fault r
      | .refused r => .refused r := by
  cases h : step s with
  | next t =>
    have h' : Sys2Proof.core.step s = .next t := h
    simp only [run, Host.Core.run, h']; rfl
  | fault r =>
    have h' : Sys2Proof.core.step s = .fault r := h
    simp only [run, Host.Core.run, h']; rfl
  | refused r =>
    have h' : Sys2Proof.core.step s = .refused r := h
    simp only [run, Host.Core.run, h']; rfl

theorem run_next {s t : State} (h : step s = .next t) (n : Nat) :
    run (n + 1) s = run n t := by
  rw [run_succ, h]

/-- A run never stops (60_exceptions.md R220). -/
theorem run_total (n : Nat) (s : State) : ∃ t, run n s = .next t := by
  induction n generalizing s with
  | zero => exact ⟨s, rfl⟩
  | succ n ih =>
    have hs : ∃ t, step s = .next t := by
      rcases step_cases s with ⟨_, h⟩ | ⟨_, _, h⟩ | ⟨_, _, _, _, _, h⟩ | ⟨_, _, i, _, _, h⟩
      · exact ⟨_, h⟩
      · exact ⟨_, h⟩
      · exact ⟨_, h⟩
      · rw [h]; exact exec_next i _
    obtain ⟨t, ht⟩ := hs
    rw [run_next ht]
    exact ih t

/-- Two runs in a row are one run. -/
theorem run_add {s t : State} {m : Nat} (h : run m s = .next t) (n : Nat) :
    run (m + n) s = run n t := by
  induction m generalizing s with
  | zero => cases h; rw [Nat.zero_add]
  | succ m ih =>
    rw [show m + 1 + n = (m + n) + 1 by omega]
    rw [run_succ] at h ⊢
    cases hs : step s with
    | next u => rw [hs] at h; exact ih h
    | fault r => cases r
    | refused r => rw [hs] at h; cases h

/-- A queued command runs as `exec`. -/
theorem run_command {s t : State} {w : CmdWord} {i : Instr} {rest : List HostEvent} (hp : s.pending = .command w :: rest)
    (hd : decode w = .ok i) (he : exec i { s with pending := rest } = .next t) (n : Nat) :
    run (n + 1) s = run n t :=
  run_next ((step_command hp hd).trans he) n

/-- A run of `f a` for each operand `a` of a sequence keeps a relation between the operands seen and the state, if each
command keeps it. The queue is what is left of the command sequence. -/
theorem run_operands {α : Type} {f : α → Instr} (hd : ∀ a, decode (encode (f a)) = .ok (f a)) {all : List α}
    {R : List α → State → Prop}
    (hR : ∀ seen a tail s, all = seen ++ a :: tail → R seen s → ∃ t, exec (f a) s = .next t ∧ R (seen ++ [a]) t)
    (hpend : ∀ seen s p, R seen s → R seen { s with pending := p })
    (as : List α) {seen : List α} {s : State} {rest : List HostEvent} (hall : all = seen ++ as) (h : R seen s)
    (hp : s.pending = as.map (fun a => HostEvent.command (encode (f a))) ++ rest) :
    ∃ t, run as.length s = .next t ∧ R all t ∧ t.pending = rest := by
  induction as generalizing seen s with
  | nil => exact ⟨s, rfl, by rw [hall]; simpa using h, by simpa using hp⟩
  | cons a as ih =>
    have hp' : s.pending = .command (encode (f a)) :: (as.map (fun a => HostEvent.command (encode (f a))) ++ rest) := by
      simpa using hp
    obtain ⟨u, hu, hRu⟩ := hR seen a as _ hall (hpend _ _ (as.map (fun a => HostEvent.command (encode (f a))) ++ rest) h)
    obtain ⟨t, ht, hRt, hpt⟩ := ih (by simpa using hall) hRu (exec_pending hu)
    exact ⟨t, by rw [List.length_cons, run_command hp' (hd a) hu, ht], hRt, hpt⟩

/-- A whole program: a START, one command per operand, an end command. If each command meets a next state that keeps the
relation, the run ends in a state that `P` holds of. -/
theorem runProgram_stream {α : Type} {start fin : Instr} {f : α → Instr} {m : Mode}
    (hs : startMode start = some m) (hds : decode (encode start) = .ok start) (hdf : decode (encode fin) = .ok fin)
    (hd : ∀ a, decode (encode (f a)) = .ok (f a)) {R : List α → State → Prop} {P : State → Prop} (as : List α) (s : State)
    (h0 : ∀ p, R [] (streamStart m { s with pending := p }))
    (hR : ∀ seen a tail s, as = seen ++ a :: tail → R seen s → ∃ t, exec (f a) s = .next t ∧ R (seen ++ [a]) t)
    (hpend : ∀ seen s p, R seen s → R seen { s with pending := p })
    (hend : ∀ s, R as s → ∃ t, exec fin s = .next t ∧ P t) :
    ∃ t, runProgram (encode start :: (as.map (fun a => encode (f a)) ++ [encode fin])) s = .next t ∧ P t := by
  unfold runProgram
  have hlen : (encode start :: (as.map (fun a => encode (f a)) ++ [encode fin])).length = as.length + 1 + 1 := by simp
  rw [hlen]
  have hp : (s.issueAll (encode start :: (as.map (fun a => encode (f a)) ++ [encode fin]))).pending =
      .command (encode start) :: (as.map (fun a => HostEvent.command (encode (f a))) ++
        (.command (encode fin) :: s.pending)) := by
    simp [State.issueAll, Function.comp_def]
  rw [run_command hp hds (exec_start hs _)]
  obtain ⟨u, hu, hRu, hpu⟩ := run_operands hd hR hpend as rfl
    (h0 (as.map (fun a => HostEvent.command (encode (f a))) ++ (.command (encode fin) :: s.pending))) rfl
  obtain ⟨t, ht, hPt⟩ := hend _ (hpend _ _ s.pending hRu)
  refine ⟨t, ?_, hPt⟩
  have e1 : run 1 u = .next t := by rw [run_command hpu hdf ht]; rfl
  rw [← e1]
  exact run_add hu 1

end Sys2Proof.Machine
end

