-- ==== Sys2Proof/Laws/Compress.lean ====
section
/-!
SUPPORT. What the whole programs COMPRESS and DECOMPRESS leave, with the sink accepting, in terms of the code sequence
(spec/30_encoding.md R90; spec/42_encoder.md R165; spec/43_decoder.md R199). The encoder's round trip is a hypothesis.
-/
namespace Sys2Proof.Machine

/-- The encoder between two commands of a stream of `n` bytes, after the bytes `seen`. -/
structure Compressing (n : Nat) (seen : List Byte) (ks : List Code) (s : State) : Prop where
  /-- no fault so far -/
  mode : s.mode = .enc
  /-- no fault so far -/
  fault : s.fault = .none
  /-- the invariants -/
  inv : s.Inv
  /-- the table is one insertion ahead of the decoder's -/
  step : InStep seen ks s
  /-- the packer holds the codes -/
  packed : Packed ks s
  /-- the rest of the sink's answers accept -/
  sink : s.SinkAccepts (2 * n - s.outBytes.length)
  /-- every emitted code stands for a byte of its own, and so does the prefix -/
  count : ks.length + (if s.encS = [] then 0 else 1) ≤ seen.length
  /-- a prefix is held as soon as a byte has been taken -/
  started : seen ≠ [] → s.encS ≠ []
  /-- the number of insertions -/
  next : s.nextCode.toNat = if ks.length = 0 then 256 else 257 + (ks.length - 1) % 3840

theorem Compressing.pending {n : Nat} {seen : List Byte} {ks : List Code} {s : State} (h : Compressing n seen ks s)
    (p : List HostEvent) : Compressing n seen ks { s with pending := p } where
  mode := h.mode
  fault := h.fault
  inv := h.inv.of_eq rfl rfl (.inl rfl) rfl rfl rfl rfl rfl rfl rfl
  step := h.step.congr rfl rfl rfl
  packed := h.packed.congr rfl rfl rfl rfl
  sink := h.sink.congr rfl rfl
  count := h.count
  started := h.started
  next := h.next

theorem if_odd {b : Bool} {n : Nat} (h : b = true ↔ n % 2 = 1) (x : Nat) :
    (if b then x else 0) = if n % 2 = 1 then x else 0 := by
  by_cases hn : n % 2 = 1
  · rw [if_pos hn, if_pos (h.2 hn)]
  · rw [if_neg hn, if_neg (mt h.1 hn)]

/-- One more byte. -/
theorem Compressing.byte {n : Nat} {seen : List Byte} {ks : List Code} {s : State} (h : Compressing n seen ks s) (c : Byte)
    (hn : seen.length < n) : ∃ t, exec (.encByte c) s = .next t ∧ ∃ ls, Compressing n (seen ++ [c]) ls t := by
  refine ⟨_, exec_encByte h.mode c, ?_⟩
  rcases encWalk_cases h.inv h.mode c with ⟨k, hk, hr, he⟩ | ⟨hs, hw, he⟩
  · rw [he]
    refine ⟨ks, h.mode, h.fault, ?_, h.step.extend c k, h.packed.congr rfl rfl rfl rfl, h.sink.congr rfl rfl, ?_,
      fun _ => by simp, h.next⟩
    · have := encWalk_inv h.inv h.mode c
      rwa [he] at this
    · have := h.count
      rw [Eff.state_ok, State.setPrefix_encS, if_neg (by simp), List.length_append, List.length_singleton]
      split at this <;> omega
  · have hcount := h.count
    rw [if_neg hs] at hcount
    obtain ⟨hl, ho⟩ := h.packed.length
    obtain ⟨u, hu, hpu, hue, hlu⟩ := h.packed.pack s.encSCode (h.sink.mono (by
      split <;> omega))
    have hud : u.dict = s.dict := by rw [hue]; rfl
    have hun : u.nextCode = s.nextCode := by rw [hue]; rfl
    have hus : u.encS = s.encS := by rw [hue]; rfl
    have huc : u.encSCode = s.encSCode := by rw [hue]; rfl
    have hum : u.mode = .enc := (by rw [hue]; rfl : u.mode = s.mode).trans h.mode
    have hui : u.Inv := by
      have := pack_inv h.inv s.encSCode
      rwa [hu] at this
    have hinv := encWalk_inv h.inv h.mode c
    rw [he, hu] at hinv ⊢
    have hst := (h.step.congr hud hun hus).mismatch hui hum (by rw [hus]; exact hs) c
    rw [hus, huc] at hst
    refine ⟨ks ++ [s.encSCode], ?_⟩
    have hm : (dictCeilingCheck u).outBytes = u.outBytes := by simp
    refine ⟨by simpa [State.afterMismatch] using hum, ?_, hinv, hst, ?_, ?_, ?_, fun _ => by simp [State.afterMismatch], ?_⟩
    · have : u.fault = s.fault := by rw [hue]; rfl
      simpa [State.afterMismatch, this] using h.fault
    · exact hpu.congr (by simp [State.afterMismatch]) (by simp [State.afterMismatch]) (by simp [State.afterMismatch])
        (by simp [State.afterMismatch])
    · have h1 : (s.sinkSkip (if s.pkOdd then 3 else 0)).SinkAccepts
          (2 * n - (s.outBytes.length + if s.pkOdd then 3 else 0)) := by
        apply State.SinkAccepts.skip
        refine h.sink.mono ?_
        split <;> omega
      rw [← hlu] at h1
      have h2 : u.SinkAccepts (2 * n - u.outBytes.length) := h1.congr (by rw [hue]) (by rw [hue])
      simpa [State.afterMismatch] using h2.congr (t := u.afterMismatch c (s.encS ++ [c]))
        (by simp [State.afterMismatch]) (by simp [State.afterMismatch])
    · simp [State.afterMismatch]; omega
    · have hroom := dictCeilingCheck_room hui
      have h1 := State.dictAppend_nextCode_toNat hroom (s.encS ++ [c]) (dictCeilingCheck u).nextCode
      simp only [Eff.andThen_ok, Eff.state_ok]
      rw [State.afterMismatch, State.setPrefix_nextCode, h1]
      have h2 := h.next
      rw [← hun] at h2
      rw [if_neg (by simp), List.length_append, List.length_singleton, Nat.add_sub_cancel]
      by_cases hk0 : ks.length = 0
      · rw [if_pos hk0] at h2
        rcases dictCeilingCheck_cases u with ⟨h3, h4⟩ | ⟨h3, h4⟩
        · rw [h4, h2, hk0]
        · omega
      · rw [if_neg hk0] at h2
        rcases dictCeilingCheck_cases u with ⟨h3, h4⟩ | ⟨h3, h4⟩ <;> rw [h4]
        · omega
        · rw [State.dictReset_nextCode]
          have : (256 : BitVec 13).toNat = 256 := rfl
          omega

/-- The end command. -/
theorem Compressing.end {n : Nat} {seen : List Byte} {ks : List Code} {s : State} (h : Compressing n seen ks s)
    (hn : seen.length ≤ n) :
    ∃ t ls, exec .encEnd s = .next t ∧ t.mode = .done ∧ t.fault = .none ∧ t.outBytes = packedStream ls ∧
      (∃ d, decodeAll ls = some d ∧ d.out = seen) ∧ ls.length ≤ seen.length ∧
      (seen ≠ [] → 1 ≤ ls.length ∧ t.nextCode.toNat = if ls.length = 1 then 256 else 257 + (ls.length - 2) % 3840) ∧
      (seen = [] → ls = []) := by
  obtain ⟨hl, ho⟩ := h.packed.length
  have hcount := h.count
  by_cases hs : s.encS = []
  · have hse : seen = [] := by
      by_contra hne; exact h.started hne hs
    subst hse
    have hks : ks = [] := by
      have : ks.length = 0 := by simp only [List.length_nil] at hcount; omega
      exact List.length_eq_zero_iff.1 this
    subst hks
    obtain ⟨po, pb, -, -⟩ := h.packed.even rfl
    refine ⟨s.finishStream, [], ?_, rfl, h.fault, by simpa using pb, ⟨.init, rfl, rfl⟩, le_rfl, fun h => absurd rfl h,
      fun _ => rfl⟩
    rw [exec_encEnd h.mode, encLast, if_pos hs, Eff.andThen_ok, flush_even po]
    rfl
  · rw [if_neg hs] at hcount
    obtain ⟨u, hu, hpu, hue, hlu⟩ := h.packed.pack s.encSCode (h.sink.mono (by
      rw [hl, if_odd ho]; split <;> omega))
    obtain ⟨hl', ho'⟩ := hpu.length
    have hsu : u.SinkAccepts (if u.pkOdd then 2 else 0) := by
      have h1 : (s.sinkSkip (if s.pkOdd then 3 else 0)).SinkAccepts (if u.pkOdd then 2 else 0) := by
        apply State.SinkAccepts.skip
        refine h.sink.mono ?_
        simp only [List.length_append, List.length_singleton] at ho' hl'
        rw [hl, if_odd ho, if_odd ho']
        split <;> split <;> omega
      exact h1.congr (by rw [hue]) (by rw [hue])
    obtain ⟨v, hv, hvb, hvo, hvm, hvf, hvd, hvn⟩ := hpu.flush hsu
    have hfin : exec .encEnd s = .next v.finishStream := by
      rw [exec_encEnd h.mode, encLast, if_neg hs, hu, Eff.andThen_ok, hv]; rfl
    refine ⟨v.finishStream, ks ++ [s.encSCode], hfin, rfl, ?_, by simpa using hvb,
      ⟨_, h.step.emit h.inv h.mode hs, rfl⟩, by simp; omega, fun _ => ⟨by simp, ?_⟩, fun hse => ?_⟩
    · have : u.fault = s.fault := by rw [hue]; rfl
      simp [hvf, this, h.fault]
    · have h1 : u.nextCode = s.nextCode := by rw [hue]; rfl
      rw [State.finishStream_nextCode, hvn, h1, h.next]
      simp only [List.length_append, List.length_singleton]
      split <;> split <;> first | rfl | omega
    · subst hse; simp at hcount

/-- The whole of COMPRESS, with the sink accepting: the packed stream of a code sequence that decodes to the input. -/
theorem compress_result (hde : ∀ i, decode (encode i) = .ok i) (x : List Byte) (s : State)
    (ha : s.SinkAccepts (2 * x.length)) :
    ∃ t, runProgram (compressProgram x) s = .next t ∧ ∃ ls, t.mode = .done ∧ t.fault = .none ∧
      t.outBytes = packedStream ls ∧ (∃ d, decodeAll ls = some d ∧ d.out = x) ∧ ls.length ≤ x.length ∧
      (x ≠ [] → 1 ≤ ls.length ∧ t.nextCode.toNat = if ls.length = 1 then 256 else 257 + (ls.length - 2) % 3840) ∧
      (x = [] → ls = []) := by
  refine runProgram_stream (start := .encStart) (fin := .encEnd) (f := .encByte) (m := .enc) rfl (hde _) (hde _)
    (fun _ => hde _) (R := fun seen t => seen.length ≤ x.length ∧ ∃ ks, Compressing x.length seen ks t) x s ?_ ?_ ?_ ?_
  · intro p
    refine ⟨by simp, [], rfl, rfl, streamStart_inv _ _, .start rfl rfl rfl rfl,
      ⟨fun _ => ⟨rfl, rfl, rfl, rfl⟩, fun h => by simp at h⟩, ?_, by simp [streamStart], fun h => absurd rfl h, rfl⟩
    exact ha.congr rfl rfl
  · rintro seen c tail t hall ⟨-, ks, h⟩
    have hlen := congrArg List.length hall
    simp only [List.length_append, List.length_cons] at hlen
    obtain ⟨u, hu, ls, hls⟩ := h.byte c (by omega)
    exact ⟨u, hu, by simp; omega, ls, hls⟩
  · rintro seen t p ⟨hl, ks, h⟩
    exact ⟨hl, ks, h.pending p⟩
  · rintro t ⟨hl, ks, h⟩
    obtain ⟨u, ls, hu, h'⟩ := h.end hl
    exact ⟨u, hu, ls, h'⟩

/-- The decoder between two commands of a stream, after the bytes `seen`, which complete the codes `ks`. -/
structure Decompressing (n : Nat) (seen : List Byte) (s : State) : Prop where
  /-- no fault so far -/
  mode : s.mode = .dec
  /-- no fault so far -/
  fault : s.fault = .none
  /-- the invariants -/
  inv : s.Inv
  /-- the codes completed, and their decoding -/
  codes : ∃ ks d, Unpacked seen ks s ∧ decodeAll ks = some d ∧ d.Is s
  /-- the rest of the sink's answers accept -/
  sink : s.SinkAccepts (n - s.outBytes.length)

theorem Decoding.step_out_le {d e : Decoding} {k : Code} (h : d.step k = some e) : d.out.length ≤ e.out.length := by
  unfold Decoding.step at h
  split at h
  · split at h
    · cases h; simp
    · cases h
  · split at h
    · obtain ⟨cur, -, rfl⟩ := Option.map_eq_some_iff.1 h
      simp [Decoding.push]
    · split at h
      · cases h; simp [Decoding.push]
      · cases h

theorem decodeAll_prefix {ks ls : List Code} {d : Decoding} (h : decodeAll (ks ++ ls) = some d) :
    ∃ e, decodeAll ks = some e ∧ e.out.length ≤ d.out.length := by
  induction ls using List.reverseRecOn generalizing d with
  | nil => exact ⟨d, by simpa using h, le_rfl⟩
  | append_singleton ls k ih =>
    rw [← List.append_assoc, decodeAll_concat] at h
    cases hm : decodeAll (ks ++ ls) with
    | none => rw [hm] at h; cases h
    | some e =>
      rw [hm] at h
      obtain ⟨e', he', hle⟩ := ih hm
      exact ⟨e', he', hle.trans (Decoding.step_out_le h)⟩

/-- The bytes seen of a stream complete a prefix of its codes. -/
theorem Unpacked.isPrefix {seen tail : List Byte} {ks ls : List Code} {s : State} (h : Unpacked seen ks s)
    (hy : streamCodes (seen ++ tail) = some ls) : ks <+: ls := by
  have pre : ∀ {p q : List Byte} {ms : List Code}, p.length % 3 = 0 → streamCodes p = some ms →
      streamCodes (p ++ q) = some ls → ∃ rs, streamCodes q = some rs ∧ ls = ms ++ rs := by
    intro p q ms hp hk hq
    rw [streamCodes_append hp, hk] at hq
    cases hr : streamCodes q with
    | none => rw [hr] at hq; cases hq
    | some rs => rw [hr] at hq; exact ⟨rs, rfl, by simpa using hq.symm⟩
  cases hf : s.upFill with
  | zero =>
    obtain ⟨hp, hk⟩ := h.zero hf
    obtain ⟨rs, -, rfl⟩ := pre hp hk hy
    exact List.prefix_append _ _
  | one =>
    obtain ⟨p, rfl, hp, hk⟩ := h.one hf
    rw [List.append_assoc] at hy
    obtain ⟨rs, -, rfl⟩ := pre hp hk hy
    exact List.prefix_append _ _
  | two =>
    obtain ⟨p, ms, rfl, hp, hk, rfl⟩ := h.two hf
    rw [List.append_assoc] at hy
    obtain ⟨rs, hrs, rfl⟩ := pre hp hk hy
    rw [List.prefix_append_right_inj]
    cases tail with
    | nil =>
      rw [List.append_nil, streamCodes_tail] at hrs
      split at hrs
      · cases hrs; exact List.prefix_rfl
      · cases hrs
    | cons b tail =>
      change streamCodes (s.upHold0 :: s.upHold1 :: b :: tail) = some rs at hrs
      rw [streamCodes_group] at hrs
      obtain ⟨x, -, rfl⟩ := Option.map_eq_some_iff.1 hrs
      exact ⟨_, rfl⟩

/-- One more byte of a stream whose codes all decode. -/
theorem Decompressing.byte {n : Nat} {seen tail : List Byte} {b : Byte} {ls : List Code} {d : Decoding} {s : State}
    (h : Decompressing n seen s) (hy : streamCodes (seen ++ b :: tail) = some ls) (hd : decodeAll ls = some d)
    (hn : d.out.length ≤ n) : ∃ t, exec (.decByte b) s = .next t ∧ Decompressing n (seen ++ [b]) t := by
  obtain ⟨ks, e, hu, he, his⟩ := h.codes
  have hnext := hu.next b
  have hpre := hnext.isPrefix (tail := tail) (by simpa using hy)
  have hi := h.inv.unpackNext b
  have hm : (s.unpackNext b).mode = .dec := by simpa using h.mode
  cases hc : unpackCode b s with
  | none =>
    rw [hc] at hnext
    refine ⟨_, exec_decByte_none h.mode hc, hm, by simpa using h.fault, hi, ⟨ks, e, by simpa using hnext, he, ?_⟩, ?_⟩
    · exact his.congr (by simp) (by simp) (by simp) (by simp) (by simp)
    · simpa using h.sink.congr (t := s.unpackNext b) (by simp) (by simp)
  | some k =>
    rw [hc] at hnext hpre
    simp only [Option.toList_some] at hnext hpre
    obtain ⟨rs, rfl⟩ := hpre
    obtain ⟨f, hf, hfl⟩ := decodeAll_prefix hd
    have hstep : e.step k = some f := by
      rw [decodeAll_concat, he] at hf; exact hf
    have hout := Decoding.step_out_le hstep
    have hsa : s.SinkAccepts ((f.out.length - e.out.length) + (n - f.out.length)) := by
      refine h.sink.mono ?_
      rw [his.out]; omega
    obtain ⟨t, ht, hft, htm, htf, ht1, ht2, ht3, ht4, ht5⟩ :=
      (his.congr (t := s.unpackNext b) (by simp) (by simp) (by simp) (by simp) (by simp)).code hi hm hstep
        ((hsa.mono (Nat.le_add_right _ _)).congr (by simp) (by simp))
    have hti : t.Inv := by
      have := decodeCode_inv hi hm k
      rwa [ht] at this
    refine ⟨t, by rw [exec_decByte_some h.mode hc, ht]; rfl, htm, by rw [htf]; simpa using h.fault, hti,
      ⟨_, f, hnext.congr ht1 ht2 ht3, hf, hft⟩, ?_⟩
    rw [hft.out]
    exact hsa.skip.congr (by rw [ht4]; simp) (by rw [ht5]; simp)

/-- The whole of DECOMPRESS on a stream whose codes all decode, with the sink accepting. -/
theorem decompress_result (hde : ∀ i, decode (encode i) = .ok i) (y : List Byte) {ls : List Code} {d : Decoding} (s : State)
    (hy : streamCodes y = some ls) (hd : decodeAll ls = some d) (ha : s.SinkAccepts d.out.length) :
    ∃ t, runProgram (decompressProgram y) s = .next t ∧ t.mode = .done ∧ t.fault = .none ∧ t.outBytes = d.out := by
  refine runProgram_stream (start := .decStart) (fin := .decEnd) (f := .decByte) (m := .dec) rfl (hde _) (hde _)
    (fun _ => hde _) (R := fun seen t => Decompressing d.out.length seen t) y s ?_ ?_ ?_ ?_
  · intro p
    refine ⟨rfl, rfl, streamStart_inv _ _, ⟨[], .init, Unpacked.init _, rfl, rfl, rfl, rfl, rfl⟩, ?_⟩
    exact ha.congr rfl rfl
  · rintro seen b tail t rfl h
    exact h.byte hy hd le_rfl
  · rintro seen t p ⟨h1, h2, h3, ⟨ks, e, h4, h5, h6⟩, h7⟩
    exact ⟨h1, h2, h3.of_eq rfl rfl (.inl rfl) rfl rfl rfl rfl rfl rfl rfl,
      ⟨ks, e, h4.congr rfl rfl rfl, h5, h6.congr rfl rfl rfl rfl rfl⟩, h7.congr rfl rfl⟩
  · rintro t ⟨h1, h2, h3, ⟨ks, e, h4, h5, h6⟩, h7⟩
    rcases h4.end with ⟨he, hs⟩ | ⟨he, -⟩
    · rw [hy] at he
      cases he
      rw [hd] at h5
      cases h5
      exact ⟨t.finishStream, by rw [exec_decEnd h1, hs]; rfl, rfl, h2, by simpa using h6.out⟩
    · rw [hy] at he; cases he

end Sys2Proof.Machine
end

