-- ==== Sys2Proof/Laws/Decode.lean ====
section
/-!
SUPPORT. The fields of an encoded word, and the opcode map row by row (spec/30_encoding.md R80, R81, R87).
-/
namespace Sys2Proof

theorem encode_toNat (i : Instr) : (encode i).toNat = i.opcode.toNat * 4096 + i.arg.toNat := by
  have ha : i.arg.toNat < 2 ^ 12 := i.arg.isLt
  have ho : i.opcode.toNat < 16 := i.opcode.isLt
  have := Nat.shiftLeft_add_eq_or_of_lt ha i.opcode.toNat
  have h1 : (i.opcode.zeroExtend 16 <<< 12 : CmdWord).toNat = i.opcode.toNat <<< 12 := by
    simp [Nat.shiftLeft_eq]; omega
  have h2 : (i.arg.zeroExtend 16 : CmdWord).toNat = i.arg.toNat := by simp; omega
  rw [encode, BitVec.toNat_or, h1, h2, ← this, Nat.shiftLeft_eq]

theorem opField_toNat (w : CmdWord) : (opField w).toNat = w.toNat / 4096 := by
  simp [opField, Nat.shiftRight_eq_div_pow]; omega

theorem argField_toNat (w : CmdWord) : (argField w).toNat = w.toNat % 4096 := by
  simp [argField]

theorem argByte_toNat (a : BitVec 12) : (argByte a).toNat = a.toNat % 256 := by
  simp [argByte]

theorem argHigh_toNat (a : BitVec 12) : (argHigh a).toNat = a.toNat / 256 := by
  simp [argHigh, Nat.shiftRight_eq_div_pow]; omega

/-- The opcode field of an encoded command is its opcode (30_encoding.md R80, R87). -/
theorem opField_encode (i : Instr) : opField (encode i) = i.opcode := by
  apply BitVec.eq_of_toNat_eq
  have := i.arg.isLt
  rw [opField_toNat, encode_toNat]; omega

/-- The ARG field of an encoded command is its ARG (30_encoding.md R80, R87). -/
theorem argField_encode (i : Instr) : argField (encode i) = i.arg := by
  apply BitVec.eq_of_toNat_eq
  have := i.arg.isLt
  rw [argField_toNat, encode_toNat]; omega

theorem argByte_zeroExtend (c : Byte) : argByte (c.zeroExtend 12) = c := by
  apply BitVec.eq_of_toNat_eq
  rw [argByte_toNat]; simp; omega

theorem argHigh_zeroExtend (c : Byte) : argHigh (c.zeroExtend 12) = 0 := by
  apply BitVec.eq_of_toNat_eq
  rw [argHigh_toNat]; simp; omega

theorem decodeBare_arg_zero {i : Instr} {w : CmdWord} (h : argField w = 0) : decodeBare i w = .ok i := by
  simp [decodeBare, h]

theorem decodeByteOp_zeroExtend {mk : Byte → Instr} {w : CmdWord} {c : Byte} (h : argField w = c.zeroExtend 12) :
    decodeByteOp mk w = .ok (mk c) := by
  rw [decodeByteOp, h, argHigh_zeroExtend, argByte_zeroExtend]; simp

end Sys2Proof
end

