-- ==== Sys2Proof/Laws/Faults.lean ====
section
/-!
SUPPORT. How an accepted command can end (spec/60_exceptions.md R220, R223, R230).
-/
namespace Sys2Proof.Machine

/-- How an accepted command ends in a state that meets the invariants: it completes, leaving `fault` as it was, or it raises
one of two faults. PROTOCOL_INVARIANT is not among them (60_exceptions.md R220, R223). -/
theorem exec_fault {i : Instr} {s t : State} (hi : s.Inv) (hs : startMode i = none) (ha : accepts i s.mode = true)
    (he : exec i s = .next t) :
    (t.fault = s.fault ∧ t.mode ≠ .fault) ∨ (t.mode = .fault ∧ t.fault = .ioFailure ∧ i ≠ .upEnd ∧ i ≠ .decEnd) ∨
    (t.mode = .fault ∧ t.fault = .malformedStream ∧ (i = .upEnd ∨ i = .decEnd ∨ ∃ b, i = .decByte b)) := by
  rcases exec_cases i s with ⟨m, h, h'⟩ | ⟨h, h'⟩ | ⟨c, rfl, hm⟩ | ⟨rfl, hm⟩ | ⟨b, rfl, hm⟩ | ⟨rfl, hm⟩ | ⟨k, rfl, hm⟩ |
      ⟨rfl, hm⟩ | ⟨b, rfl, hm⟩ | ⟨rfl, hm⟩
  · simp [hs] at h
  · simp [ha] at h
  · rw [exec_encByte hm] at he; cases he
    rcases encWalk_cases hi hm c with ⟨k, hk, hr, he⟩ | ⟨hs, hw, he⟩ <;> rw [he]
    · left; simp [hm]
    · cases hp : pack s.encSCode s with
      | raised t => have := pack_raised hp; right; left; simp [this]
      | ok a t =>
        have := pack_ok hp
        left
        simp only [Eff.andThen_ok, Eff.state_ok, State.afterMismatch]
        simp [this, hm]
  · rw [exec_encEnd hm] at he
    simp only [Host.Outcome.next.injEq] at he
    subst he
    have : (∃ u, encLast s = .ok () u ∧ u.mode = s.mode ∧ u.fault = s.fault) ∨ 
        ∃ u, encLast s = .raised u ∧ u.mode = .fault ∧ u.fault = .ioFailure := by
      unfold encLast
      split
      · exact .inl ⟨_, rfl, rfl, rfl⟩
      · cases hp : pack s.encSCode s with
        | raised t => exact .inr ⟨_, rfl, pack_raised hp⟩
        | ok a t => exact .inl ⟨_, rfl, pack_ok hp⟩
    rcases this with ⟨u, hu, h1, h2⟩ | ⟨u, hu, h1, h2⟩ <;> rw [hu]
    · simp only [Eff.andThen_ok]
      cases hp : flush u with
      | raised t => have := flush_raised hp; right; left; simp [this]
      | ok a t => have := flush_ok hp; left; simp [this, h2]
    · right; left; simp [h1, h2]
  · cases hu : unpackCode b s with
    | none => rw [exec_decByte_none hm hu] at he; cases he; left; simp [hm]
    | some k =>
      rw [exec_decByte_some hm hu] at he; cases he
      have hm' : (s.unpackNext b).mode = .dec := by simpa using hm
      rcases decodeCode_cases (hi.unpackNext b) hm' k with ⟨_, _, he⟩ | ⟨_, _, he⟩ |
        ⟨cur, v, ⟨hc, hv, hvm, hvc⟩, he⟩ <;> rw [he]
      · right; right; simp
      · right; right; simp
      · have hvf : v.fault = s.fault := by
          rcases hvc with ⟨_, _, _, rfl⟩ | ⟨_, _, _, rfl⟩ | ⟨_, _, _, rfl⟩ <;> simp
        cases hp : outSeq cur v with
        | raised t => have := outSeq_raised hp; right; left; simp [this]
        | ok a t => have := outSeq_ok hp; left; simp [this, hvf, hvm]
  · rw [exec_decEnd hm] at he
    rcases unpackEnd_cases s with ⟨_, h⟩ | ⟨_, h⟩ <;> rw [h] at he <;> cases he <;> simp
  · rw [exec_pkCode hm] at he; cases he
    cases hp : pack k s with
    | raised t => have := pack_raised hp; right; left; simp [this]
    | ok a t => have := pack_ok hp; left; simp [this, hm]
  · rw [exec_pkFlush hm] at he; cases he
    cases hp : flush s with
      | raised t => have := flush_raised hp; right; left; simp [this]
      | ok a t => have := flush_ok hp; left; simp [this]
  · cases hu : unpackCode b s with
    | none => rw [exec_upByte_none hm hu] at he; cases he; left; simp [hm]
    | some k =>
      rw [exec_upByte_some hm hu] at he; cases he
      cases hk : (s.unpackNext b).sinkAnswerAt 0
      · rw [outCode_failed hk]; right; left; simp
      · rw [outCode_accepted hk]; left; simp [hm]
  · rw [exec_upEnd hm] at he
    rcases unpackEnd_cases s with ⟨_, h⟩ | ⟨_, h⟩ <;> rw [h] at he <;> cases he <;> simp

/-! ### From any state -/

/-- What a part does to the fault code: it leaves it, or raises IOFailure or a violation, but not MalformedStream. -/
def NotMalformed {α : Type} (s : State) (e : Eff α) : Prop := match e with
  | .ok _ t => t.fault = s.fault
  | .raised t => t.fault = .ioFailure ∨ t.fault = .protocolInvariant

theorem NotMalformed.andThen {α β : Type} {s : State} {e : Eff α} {f : α → State → Eff β} (h : NotMalformed s e)
    (hf : ∀ a t, NotMalformed t (f a t)) : NotMalformed s (e.andThen f) := by
  cases e with
  | raised t => exact h
  | ok a t =>
    have h1 : t.fault = s.fault := h
    have := hf a t
    simp only [Eff.andThen_ok]
    cases hq : f a t <;> rw [hq] at this <;> simp only [NotMalformed] at this ⊢
    · rw [this, h1]
    · exact this

theorem notMalformed_pack (k : Code) (s : State) : NotMalformed s (pack k s) := by
  cases h : pack k s with
  | ok a t => exact (pack_ok h).2
  | raised t => exact .inl (pack_raised h).2

theorem notMalformed_flush (s : State) : NotMalformed s (flush s) := by
  cases h : flush s with
  | ok a t => exact (flush_ok h).2.1
  | raised t => exact .inl (flush_raised h).2

theorem notMalformed_outSeq (w : List Byte) (s : State) : NotMalformed s (outSeq w s) := by
  cases h : outSeq w s with
  | ok a t => exact (outSeq_ok h).2.1
  | raised t => exact .inl (outSeq_raised h).2

theorem notMalformed_lookup (w : Symbol) (s : State) : NotMalformed s (dictLookupSym w s) := by
  rcases dictLookupSym_any w s with ⟨r, h⟩ | h <;> rw [h] <;> simp [NotMalformed]

theorem notMalformed_insert (w : Symbol) (k : BitVec 13) (s : State) : NotMalformed s (dictInsert w k s) := by
  rcases dictInsert_any w k s with h | h <;> rw [h] <;> simp [NotMalformed]

theorem notMalformed_ceil {α : Type} {s : State} {e : Eff α} (h : NotMalformed (dictCeilingCheck s) e) : NotMalformed s e := by
  cases e <;> simp [NotMalformed] at h ⊢ <;> exact h

theorem notMalformed_enc (c : Byte) (s : State) : NotMalformed s (encWalk c s) := by
  refine (notMalformed_lookup _ s).andThen fun r t => ?_
  cases r with
  | some k => simp [NotMalformed]
  | none =>
    exact (notMalformed_pack _ t).andThen fun _ u =>
      notMalformed_ceil ((notMalformed_insert _ _ _).andThen fun _ _ => by simp [NotMalformed])

theorem NotMalformed.not {α : Type} {s : State} {e : Eff α} (h : NotMalformed s e) (hf : s.fault = .none) : e.state.fault ≠ .malformedStream := by
  cases e with
  | ok a t => have : t.fault = s.fault := h; simp [this, hf]
  | raised t => rcases h with h | h <;> simp [h]

end Sys2Proof.Machine
end

