-- ==== Sys2Proof/Laws/Patch.lean ====
section
/-!
SUPPORT. Two states that differ only where no stream looks: every part of a step treats them alike
(spec/70_reset_and_hazards.md R252).
-/
namespace Sys2Proof.Machine

/-- A part's result with its state changed. -/
def Eff.mapState {α : Type} (f : State → State) : Eff α → Eff α
  | .ok a s => .ok a (f s)
  | .raised s => .raised (f s)

/-- The state with the fields changed that a stream's outcome does not depend on (70_reset_and_hazards.md R252):
the refusal mark, `decPriorCode`, and, while no prefix or no prior symbol is held, `encSCode` and `decPriorSym`. -/
def patch (r : Bool) (c kk : Code) (p : List Byte) (s : State) : State :=
  { s with refused := r, encSCode := c, decPriorCode := kk, decPriorSym := p }

variable (r : Bool) (c kk : Code) (p : List Byte)

/-- Two parts that commute with a change of the state commute in sequence. -/
theorem andThen_map {α β : Type} (e : Eff α) (f g : α → State → Eff β) (φ : State → State)
    (h : ∀ a s, g a (φ s) = Eff.mapState φ (f a s)) :
    (Eff.mapState φ e).andThen g = Eff.mapState φ (e.andThen f) := by
  cases e with
  | ok a s => exact h a s
  | raised s => rfl

theorem mapState_state {α : Type} (e : Eff α) (φ) : (Eff.mapState φ e).state = φ e.state := by cases e <;> rfl

theorem sinkNext_patch (s : State) : (patch r c kk p s).sinkNext = patch r c kk p s.sinkNext := by
  rw [State.sinkNext_eq, State.sinkNext_eq]; rfl

theorem sinkAnswer_patch (s : State) : (patch r c kk p s).sinkAnswer = s.sinkAnswer := rfl

theorem out_patch (b : Byte) (s : State) : out b (patch r c kk p s) = Eff.mapState (patch r c kk p) (out b s) := by
  unfold out; rw [sinkAnswer_patch, sinkNext_patch]; split <;> rfl

theorem outCode_patch (b : Code) (s : State) :
    outCode b (patch r c kk p s) = Eff.mapState (patch r c kk p) (outCode b s) := by
  unfold outCode; rw [sinkAnswer_patch, sinkNext_patch]; split <;> rfl

theorem outSeq_patch (w) (s : State) : outSeq w (patch r c kk p s) = Eff.mapState (patch r c kk p) (outSeq w s) := by
  induction w generalizing s with
  | nil => rfl
  | cons b w ih => simp only [outSeq]; rw [out_patch]; exact andThen_map _ _ _ _ (fun _ s => ih s)

theorem pack_patch (k) (s : State) : pack k (patch r c kk p s) = Eff.mapState (patch r c kk p) (pack k s) := by
  unfold pack
  change (if s.pkOdd = true then _ else _) = _
  split
  · exact (congrArg (Eff.andThen · _) (outSeq_patch r c kk p _ s)).trans (andThen_map _ _ _ _ fun _ _ => rfl)
  · rfl

theorem flush_patch (s : State) : flush (patch r c kk p s) = Eff.mapState (patch r c kk p) (flush s) := by
  unfold flush
  change (if s.pkOdd = true then _ else _) = _
  split
  · exact (congrArg (Eff.andThen · _) (outSeq_patch r c kk p _ s)).trans (andThen_map _ _ _ _ fun _ _ => rfl)
  · rfl

theorem unpackEnd_patch (s : State) : unpackEnd (patch r c kk p s) = Eff.mapState (patch r c kk p) (unpackEnd s) := by
  rcases unpackEnd_cases s with ⟨h, he⟩ | ⟨h, he⟩ <;> rw [he] <;>
    rcases unpackEnd_cases (patch r c kk p s) with ⟨h', he'⟩ | ⟨h', he'⟩ <;> rw [he'] <;> first | rfl | skip
  all_goals
    exfalso
    simp only [patch] at h'
    rcases h with h | ⟨h, h2⟩ <;> rcases h' with h3 | ⟨h3, h4⟩ <;> simp_all

theorem ceil_patch (s : State) : dictCeilingCheck (patch r c kk p s) = patch r c kk p (dictCeilingCheck s) := by
  unfold dictCeilingCheck
  change (if s.nextCode.toNat = _ then _ else _) = _
  split <;> rfl

theorem lookup_patch (w) (s : State) :
    dictLookupSym w (patch r c kk p s) = Eff.mapState (patch r c kk p) (dictLookupSym w s) := by
  unfold dictLookupSym
  have h : (patch r c kk p s).dict.codesOf (patch r c kk p s).nextCode.toNat w = s.dict.codesOf s.nextCode.toNat w := rfl
  rw [h]
  generalize s.dict.codesOf s.nextCode.toNat w = l
  match l with
  | [] => rfl
  | [_] => rfl
  | _ :: _ :: _ => rfl

theorem insert_patch (w k) (s : State) :
    dictInsert w k (patch r c kk p s) = Eff.mapState (patch r c kk p) (dictInsert w k s) := by
  unfold dictInsert
  change (if k ≠ s.nextCode ∨ _ ≤ s.nextCode.toNat then _ else if s.mode = .enc then _ else _) = _
  split
  · rfl
  · split
    · rw [lookup_patch]; exact andThen_map _ _ _ _ fun a _ => by cases a <;> rfl
    · rfl

theorem unpackNext_patch (b) (s : State) : (patch r c kk p s).unpackNext b = patch r c kk p (s.unpackNext b) := by
  unfold State.unpackNext
  have h : (patch r c kk p s).upFill = s.upFill := rfl
  rw [h]
  cases s.upFill <;> rfl

theorem unpackCode_patch (b) (s : State) : unpackCode b (patch r c kk p s) = unpackCode b s := rfl

theorem decodeFirst_patch (k) (s : State) :
    decodeFirst k (patch r c kk p s) = Eff.mapState (patch r c kk p) (decodeFirst k s) := by
  unfold decodeFirst
  split
  · rfl
  · have h : (patch r c kk p s).dict.read k.toNat = s.dict.read k.toNat := rfl
    rw [h]
    cases s.dict.read k.toNat <;> rfl
/-- The checks of a code read the prior symbol only when there is one. -/
theorem decodeSymbols_patch (k) (s : State) (h : s.decHavePrior = true → p = s.decPriorSym) :
    decodeSymbols k (patch r c kk p s) = Eff.mapState (patch r c kk p) (decodeSymbols k s) := by
  unfold decodeSymbols
  change (if s.decHavePrior = true then _ else _) = _
  split
  · rename_i hp
    have hp := h hp
    rw [ceil_patch]
    have hu : (dictCeilingCheck s).decPriorSym = p := by simp [hp]
    generalize dictCeilingCheck s = u at hu
    have e1 : (patch r c kk p u).nextCode = u.nextCode := rfl
    have e2 : (patch r c kk p u).dict = u.dict := rfl
    have e3 : (patch r c kk p u).decPriorSym = u.decPriorSym := hu.symm
    unfold decodeLater decodePresent decodeAboutToBeCreated dictLookupCode
    simp only [e1, e2, e3]
    split
    · rename_i hlt
      simp only [if_neg (show ¬ 4095 < k.toNat by omega)]
      cases hr : u.dict.read k.toNat with
      | none => rfl
      | some w => cases w with
        | nil => rfl
        | cons b w => simp only [Eff.andThen_ok]; simp only [Eff.mapState, e3]
    · split
      · split <;> rfl
      · rfl
  · exact decodeFirst_patch r c kk p k s
/-- Decoding a code leaves two such states alike. -/
theorem decodeCode_patch (k) (s : State) (h : s.decHavePrior = true → p = s.decPriorSym) :
    ∃ kk' p', (decodeCode k (patch r c kk p s)).state = patch r c kk' p' (decodeCode k s).state ∧
      ((decodeCode k s).state.decHavePrior = true → p' = (decodeCode k s).state.decPriorSym) := by
  unfold decodeCode
  rw [decodeSymbols_patch r c kk p k s h]
  obtain ⟨u, hu, hd⟩ := decodeSymbols_any k s
  have hup : u.decHavePrior = true → p = u.decPriorSym := by
    rcases hu with ⟨_, rfl⟩ | ⟨_, rfl⟩
    · exact h
    · simpa using h
  rcases hd with ⟨_, he⟩ | ⟨_, ⟨d, he⟩ | he⟩ <;> rw [he]
  · exact ⟨kk, p, rfl, fun h => by simpa using hup (by simpa using h)⟩
  · simp only [Eff.mapState, Eff.andThen_ok]
    have hi : decodeInsert d.new (patch r c kk p u) = Eff.mapState (patch r c kk p) (decodeInsert d.new u) := by
      unfold decodeInsert
      split
      · rfl
      · exact insert_patch r c kk p _ _ u
    have hif : (decodeInsert d.new u).state.decHavePrior = u.decHavePrior ∧
        (decodeInsert d.new u).state.decPriorSym = u.decPriorSym := by
      unfold decodeInsert
      split
      · exact ⟨rfl, rfl⟩
      · rename_i w _; rcases dictInsert_any w u.nextCode u with h | h <;> rw [h] <;> exact ⟨rfl, rfl⟩
    rw [hi]
    cases hv : decodeInsert d.new u with
    | raised v =>
      rw [hv] at hif
      exact ⟨kk, p, rfl, fun h => (hup (by rw [← hif.1]; exact h)).trans hif.2.symm⟩
    | ok a v =>
      rw [hv] at hif
      simp only [Eff.mapState, Eff.andThen_ok]
      rw [outSeq_patch]
      have h1 := outSeq_decHavePrior d.cur v
      have h2 := outSeq_decPriorSym d.cur v
      cases ho : outSeq d.cur v with
      | raised x =>
        rw [ho] at h1 h2
        exact ⟨kk, p, rfl, fun h => (hup (by rw [← hif.1]; exact h1 ▸ h)).trans (hif.2.symm.trans h2.symm)⟩
      | ok a x =>
        exact ⟨k, d.cur, rfl, fun _ => rfl⟩
  · exact ⟨kk, p, rfl, fun h => by simpa using hup (by simpa using h)⟩

end Sys2Proof.Machine
end

