-- ==== Sys2Proof/Laws/PerInstr.lean ====
section
/-!
SUPPORT. Family EncodedFields: the two fields of every command's word, constructor by constructor
(spec/30_encoding.md R80, R87).
-/
namespace Sys2Proof.Laws.EncodedFields

/-- The word of `i` is its opcode in [15:12] over its ARG in [11:0], and nothing else. -/
def Statement (i : Instr) : Prop :=
  (encode i).toNat / 4096 = i.opcode.toNat ∧ (encode i).toNat % 4096 = i.arg.toNat

theorem all (i : Instr) : Statement i := by
  have := i.arg.isLt
  constructor <;> rw [encode_toNat] <;> omega

theorem encStart : Statement .encStart := all _
theorem encByte (c : Byte) : Statement (.encByte c) := all _
theorem encEnd : Statement .encEnd := all _
theorem decStart : Statement .decStart := all _
theorem decByte (b : Byte) : Statement (.decByte b) := all _
theorem decEnd : Statement .decEnd := all _
theorem pkStart : Statement .pkStart := all _
theorem pkCode (k : Code) : Statement (.pkCode k) := all _
theorem pkFlush : Statement .pkFlush := all _
theorem upStart : Statement .upStart := all _
theorem upByte (b : Byte) : Statement (.upByte b) := all _
theorem upEnd : Statement .upEnd := all _
theorem reserved0 (arg : BitVec 12) : Statement (.reserved0 arg) := all _
theorem reserved7 (arg : BitVec 12) : Statement (.reserved7 arg) := all _
theorem reservedB (arg : BitVec 12) : Statement (.reservedB arg) := all _
theorem reservedF (arg : BitVec 12) : Statement (.reservedF arg) := all _

end Sys2Proof.Laws.EncodedFields
end

