-- ==== Sys2Proof/Laws/Prefix.lean ====
section
/-!
SUPPORT. One part of a step under two sets of sink answers: as long as the second set raises no IOFailure, what the first
leaves in the outputs is a prefix of what the second leaves (spec/60_exceptions.md R227, R231).
-/
namespace Sys2Proof.Machine

/-- The same state with other sink answers to come. -/
def State.withSink (a : List Bool) (d : Nat) (s : State) : State := { s with sinkAnswers := a, sinkDraws := d }

/-- What a part does under some answers (`e`) beside what it does under others (`e'`): the others raise IOFailure, or both
do the same, or the first has stopped with its outputs prefixes of the second's. -/
def Eff.Behind {α : Type} (e e' : Eff α) : Prop :=
  (∃ u, e' = .raised u ∧ u.fault = .ioFailure) ∨ (∃ a d, e' = Eff.mapState (State.withSink a d) e) ∨
    ∃ t, e = .raised t ∧ t.outBytes <+: e'.state.outBytes ∧ t.outCodes <+: e'.state.outCodes

theorem Eff.Behind.andThen {α β : Type} {e e' : Eff α} {f : α → State → Eff β} (h : e.Behind e')
    (hf : ∀ x s a d, (f x s).Behind (f x (s.withSink a d)))
    (hg : ∀ x s, s.outBytes <+: (f x s).state.outBytes ∧ s.outCodes <+: (f x s).state.outCodes) :
    (e.andThen f).Behind (e'.andThen f) := by
  rcases h with ⟨u, rfl, hu⟩ | ⟨a, d, rfl⟩ | ⟨t, rfl, hb, hc⟩
  · exact .inl ⟨u, rfl, hu⟩
  · cases e with
    | ok x s => exact hf x s a d
    | raised s => exact .inr (.inl ⟨a, d, rfl⟩)
  · refine .inr (.inr ⟨t, rfl, ?_⟩)
    cases e' with
    | ok x s => exact ⟨hb.trans (hg x s).1, hc.trans (hg x s).2⟩
    | raised s => exact ⟨hb, hc⟩

theorem Eff.Behind.of_map {α : Type} {e : Eff α} {a : List Bool} {d : Nat} :
    e.Behind (Eff.mapState (State.withSink a d) e) := .inr (.inl ⟨a, d, rfl⟩)

theorem outSeq_behind (w : List Byte) (s : State) (a : List Bool) (d : Nat) :
    (outSeq w s).Behind (outSeq w (s.withSink a d)) := by
  rcases outSeq_cases w (s.withSink a d) with ⟨_, h'⟩ | ⟨m, _, _, _, h'⟩ <;> rw [h']
  · rcases outSeq_cases w s with ⟨_, h⟩ | ⟨m, _, _, _, h⟩ <;> rw [h]
    · exact .inr (.inl ⟨_, _, rfl⟩)
    · exact .inr (.inr ⟨_, rfl, (List.prefix_append_right_inj _).2 (List.take_prefix _ _), List.prefix_rfl⟩)
  · exact .inl ⟨_, rfl, rfl⟩

theorem outCode_behind (k : Code) (s : State) (a : List Bool) (d : Nat) :
    (outCode k s).Behind (outCode k (s.withSink a d)) := by
  cases h' : (s.withSink a d).sinkAnswerAt 0
  · rw [outCode_failed h']; exact .inl ⟨_, rfl, rfl⟩
  · rw [outCode_accepted h']
    cases h : s.sinkAnswerAt 0
    · rw [outCode_failed h]; exact .inr (.inr ⟨_, rfl, List.prefix_rfl, List.prefix_append _ _⟩)
    · rw [outCode_accepted h]; exact .inr (.inl ⟨_, _, rfl⟩)

theorem pack_behind (k : Code) (s : State) (a : List Bool) (d : Nat) : (pack k s).Behind (pack k (s.withSink a d)) := by
  unfold pack
  change Eff.Behind _ (if s.pkOdd = true then _ else _)
  split
  · exact (outSeq_behind _ s a d).andThen (fun _ _ a d => .inr (.inl ⟨a, d, rfl⟩)) fun _ _ => ⟨List.prefix_rfl, List.prefix_rfl⟩
  · exact .inr (.inl ⟨a, d, rfl⟩)

theorem flush_behind (s : State) (a : List Bool) (d : Nat) : (flush s).Behind (flush (s.withSink a d)) := by
  unfold flush
  change Eff.Behind _ (if s.pkOdd = true then _ else _)
  split
  · exact (outSeq_behind _ s a d).andThen (fun _ _ a d => .inr (.inl ⟨a, d, rfl⟩)) fun _ _ => ⟨List.prefix_rfl, List.prefix_rfl⟩
  · exact .inr (.inl ⟨a, d, rfl⟩)

/-! ### The parts that write nothing to the sink -/

theorem unpackEnd_withSink (s : State) (a : List Bool) (d : Nat) :
    unpackEnd (s.withSink a d) = Eff.mapState (State.withSink a d) (unpackEnd s) := by
  unfold unpackEnd
  change (match s.upFill with | .zero => _ | .one => _ | .two => if tailPadding s.upHold1 = 0 then _ else _) = _
  cases s.upFill
  · rfl
  · rfl
  · simp only; split <;> rfl

theorem dictCeilingCheck_withSink (s : State) (a : List Bool) (d : Nat) :
    dictCeilingCheck (s.withSink a d) = (dictCeilingCheck s).withSink a d := by
  unfold dictCeilingCheck
  change (if s.nextCode.toNat = _ then _ else _) = _
  split <;> rfl

theorem dictLookupSym_withSink (w : Symbol) (s : State) (a : List Bool) (d : Nat) :
    dictLookupSym w (s.withSink a d) = Eff.mapState (State.withSink a d) (dictLookupSym w s) := by
  unfold dictLookupSym
  rw [show (s.withSink a d).dict.codesOf (s.withSink a d).nextCode.toNat w = s.dict.codesOf s.nextCode.toNat w from rfl]
  generalize s.dict.codesOf s.nextCode.toNat w = l
  match l with
  | [] => rfl
  | [_] => rfl
  | _ :: _ :: _ => rfl

theorem dictInsert_withSink (w : Symbol) (k : BitVec 13) (s : State) (a : List Bool) (d : Nat) :
    dictInsert w k (s.withSink a d) = Eff.mapState (State.withSink a d) (dictInsert w k s) := by
  unfold dictInsert
  change (if k ≠ s.nextCode ∨ _ ≤ s.nextCode.toNat then _ else if s.mode = .enc then _ else _) = _
  split
  · rfl
  · split
    · rw [dictLookupSym_withSink]; exact andThen_map _ _ _ _ fun r _ => by cases r <;> rfl
    · rfl

theorem unpackNext_withSink (b : Byte) (s : State) (a : List Bool) (d : Nat) :
    (s.withSink a d).unpackNext b = (s.unpackNext b).withSink a d := by
  unfold State.unpackNext
  rw [show (s.withSink a d).upFill = s.upFill from rfl]
  cases s.upFill <;> rfl

theorem decodeSymbols_withSink (k : Code) (s : State) (a : List Bool) (d : Nat) :
    decodeSymbols k (s.withSink a d) = Eff.mapState (State.withSink a d) (decodeSymbols k s) := by
  unfold decodeSymbols
  change (if s.decHavePrior = true then _ else _) = _
  split
  · rw [dictCeilingCheck_withSink]
    generalize dictCeilingCheck s = u
    unfold decodeLater decodePresent decodeAboutToBeCreated dictLookupCode
    simp only [show (u.withSink a d).nextCode = u.nextCode from rfl, show (u.withSink a d).dict = u.dict from rfl,
      show (u.withSink a d).decPriorSym = u.decPriorSym from rfl]
    split
    · simp only [if_neg (show ¬ 4095 < k.toNat by omega)]
      cases hr : u.dict.read k.toNat with
      | none => rfl
      | some w => cases w with
        | nil => rfl
        | cons b w => rfl
    · split
      · split <;> rfl
      · rfl
  · unfold decodeFirst
    rw [show (s.withSink a d).dict = s.dict from rfl]
    split
    · rfl
    · cases s.dict.read k.toNat <;> rfl

/-! ### The outputs only grow -/

/-- The outputs of a later state extend those of an earlier one (10_state.md R35). -/
def State.OutputsIn (s t : State) : Prop := s.outBytes <+: t.outBytes ∧ s.outCodes <+: t.outCodes

theorem outSeq_grows (w : List Byte) (s : State) : s.OutputsIn (outSeq w s).state := by
  rcases outSeq_cases w s with ⟨_, h⟩ | ⟨_, _, _, _, h⟩ <;> rw [h] <;>
    exact ⟨List.prefix_append _ _, List.prefix_rfl⟩

theorem flush_grows (s : State) : s.OutputsIn (flush s).state := by
  rcases flush_cases s with ⟨_, h⟩ | ⟨_, _, h⟩ | ⟨_, _, _, _, _, h⟩ <;> rw [h] <;>
    first | exact ⟨List.prefix_rfl, List.prefix_rfl⟩ | exact ⟨List.prefix_append _ _, List.prefix_rfl⟩

theorem dictInsert_grows (w : Symbol) (k : BitVec 13) (s : State) : s.OutputsIn (dictInsert w k s).state := by
  rcases dictInsert_any w k s with h | h <;> rw [h] <;> exact ⟨List.prefix_rfl, List.prefix_rfl⟩

theorem dictCeilingCheck_grows (s : State) : s.OutputsIn (dictCeilingCheck s) := by
  rcases dictCeilingCheck_cases s with ⟨_, h⟩ | ⟨_, h⟩ <;> rw [h] <;> exact ⟨List.prefix_rfl, List.prefix_rfl⟩

theorem State.OutputsIn.trans {s t u : State} (h : s.OutputsIn t) (h' : t.OutputsIn u) : s.OutputsIn u :=
  ⟨h.1.trans h'.1, h.2.trans h'.2⟩

theorem encMismatch_behind (c : Byte) (w : Symbol) (s : State) (a : List Bool) (d : Nat) :
    (encMismatch c w s).Behind (encMismatch c w (s.withSink a d)) := by
  unfold encMismatch
  refine (pack_behind s.encSCode s a d).andThen (fun _ t a d => ?_) fun _ t => ?_
  · simp only [dictCeilingCheck_withSink]
    rw [show ((dictCeilingCheck t).withSink a d).nextCode = (dictCeilingCheck t).nextCode from rfl, dictInsert_withSink]
    rw [andThen_map _ (fun _ v => Eff.ok () (v.setPrefix [c] (codeOfByte c))) _ _ fun _ _ => rfl]
    exact .of_map
  · have h := (dictCeilingCheck_grows t).trans (dictInsert_grows w (dictCeilingCheck t).nextCode (dictCeilingCheck t))
    revert h
    simp only
    cases dictInsert w (dictCeilingCheck t).nextCode (dictCeilingCheck t) <;> exact id

theorem encWalk_behind (c : Byte) (s : State) (a : List Bool) (d : Nat) :
    (encWalk c s).Behind (encWalk c (s.withSink a d)) := by
  unfold encWalk
  simp only
  rw [show (s.withSink a d).encS = s.encS from rfl, dictLookupSym_withSink]
  rcases dictLookupSym_any (s.encS ++ [c]) s with ⟨r, h⟩ | h <;> rw [h]
  · cases r
    · exact encMismatch_behind c _ s a d
    · exact .of_map
  · exact .of_map

theorem encEnd_behind (s : State) (a : List Bool) (d : Nat) :
    ((encLast s).andThen fun _ t => (flush t).andThen fun _ u => .ok () u.finishStream).Behind
      ((encLast (s.withSink a d)).andThen fun _ t => (flush t).andThen fun _ u => .ok () u.finishStream) := by
  refine Eff.Behind.andThen ?_ (fun _ t a d => ?_) fun _ t => ?_
  · unfold encLast
    rw [show (s.withSink a d).encS = s.encS from rfl]
    split
    · exact .inr (.inl ⟨a, d, rfl⟩)
    · exact pack_behind s.encSCode s a d
  · exact (flush_behind t a d).andThen (fun _ _ a d => .inr (.inl ⟨a, d, rfl⟩)) fun _ _ => ⟨List.prefix_rfl, List.prefix_rfl⟩
  · have h := flush_grows t
    revert h
    cases flush t <;> exact id

theorem decodeCode_behind (k : Code) (s : State) (a : List Bool) (d : Nat) :
    (decodeCode k s).Behind (decodeCode k (s.withSink a d)) := by
  unfold decodeCode
  rw [decodeSymbols_withSink]
  obtain ⟨u, -, ⟨-, he⟩ | ⟨-, ⟨x, he⟩ | he⟩⟩ := decodeSymbols_any k s <;> rw [he]
  · exact .of_map
  · simp only [Eff.mapState, Eff.andThen_ok]
    have hi : decodeInsert x.new (u.withSink a d) = Eff.mapState (State.withSink a d) (decodeInsert x.new u) := by
      unfold decodeInsert
      split
      · rfl
      · exact dictInsert_withSink _ _ _ a d
    rw [hi]
    refine Eff.Behind.of_map.andThen (fun _ v a d => ?_) fun _ v => ?_
    · exact (outSeq_behind x.cur v a d).andThen (fun _ _ a d => .inr (.inl ⟨a, d, rfl⟩))
        fun _ _ => ⟨List.prefix_rfl, List.prefix_rfl⟩
    · have h := outSeq_grows x.cur v
      revert h
      cases outSeq x.cur v <;> exact id
  · exact .of_map

end Sys2Proof.Machine
end

