-- ==== Sys2Proof/Tests/Slice0.lean ====
section
/-!
SUPPORT. Tests of the model, expected results taken from spec/95_test_vectors.md and the spec's own examples, and for every
statement with hypotheses a concrete case that meets them.
-/
namespace Sys2Proof.Tests
open Sys2Proof Sys2Proof.Machine

/-! ### Well-formed terms: each reserved opcode is refused by the check (30_encoding.md R83) -/

theorem test_wellFormed_reserved0 : (Instr.reserved0 0).wellFormed = false := by decide
theorem test_wellFormed_reserved7 : (Instr.reserved7 0).wellFormed = false := by decide
theorem test_wellFormed_reservedB : (Instr.reservedB 0).wellFormed = false := by decide
theorem test_wellFormed_reservedF : (Instr.reservedF 0x123).wellFormed = false := by decide
theorem test_wellFormed_command : (Instr.pkCode 4095).wellFormed = true := by decide

/-! ### Decoding: words written out from 30_encoding.md R81, R87 and 95_test_vectors.md 2.7 -/

theorem test_decode_encStart : decode 0b0001000000000000 = .ok .encStart := by decide
theorem test_decode_encByte : decode 0b0010000001000001 = .ok (.encByte 0x41) := by decide
theorem test_decode_encEnd : decode 0b0011000000000000 = .ok .encEnd := by decide
theorem test_decode_decStart : decode 0b0100000000000000 = .ok .decStart := by decide
theorem test_decode_decByte : decode 0b0101000000010000 = .ok (.decByte 0x10) := by decide
theorem test_decode_decEnd : decode 0b0110000000000000 = .ok .decEnd := by decide
theorem test_decode_pkStart : decode 0b1000000000000000 = .ok .pkStart := by decide
theorem test_decode_pkCode : decode 0b1001111110100000 = .ok (.pkCode 4000) := by decide
theorem test_decode_pkFlush : decode 0b1010000000000000 = .ok .pkFlush := by decide
theorem test_decode_upStart : decode 0b1100000000000000 = .ok .upStart := by decide
theorem test_decode_upByte : decode 0b1101000011111111 = .ok (.upByte 255) := by decide
theorem test_decode_upEnd : decode 0b1110000000000000 = .ok .upEnd := by decide
theorem test_decode_reserved0 : decode 0b0000000000000000 = .ok (.reserved0 0) := by decide
theorem test_decode_reserved7 : decode 0b0111000000000000 = .ok (.reserved7 0) := by decide
theorem test_decode_reservedB : decode 0b1011000000000000 = .ok (.reservedB 0) := by decide
theorem test_decode_reservedF : decode 0b1111000100100011 = .ok (.reservedF 0x123) := by decide
theorem test_decode_byte_reserved_bits : decode 0x2100 = .error (.reservedOperandBits 0x2100) := by decide
theorem test_decode_start_reserved_bits : decode 0x1001 = .error (.reservedOperandBits 0x1001) := by decide
theorem test_decodeTableWord : decodeTableWord 16 0x9FA0 = some (.pkCode 4000) := by decide

/-! ### The assembler (30_encoding.md R86, R90) -/

theorem test_assemble_character :
    assembleLine ['E', 'N', 'C', '.', 'B', 'Y', 'T', 'E', ' ', '\'', 'A', '\''] = .word 0x2041 := by decide
theorem test_assemble_decimal_comment :
    assembleLine ['P', 'K', '.', 'C', 'O', 'D', 'E', ' ', '4', '0', '0', '0', ' ', ';', ' ', 'x'] = .word 0x9FA0 := by decide
theorem test_assemble_hexadecimal :
    assembleLine ['D', 'E', 'C', '.', 'B', 'Y', 'T', 'E', ' ', '0', 'x', '1', '0'] = .word 0x5010 := by decide
theorem test_assemble_packcodes :
    assemble [['P', 'A', 'C', 'K', 'C', 'O', 'D', 'E', 'S', ' ', '[', '1', '0', ',', ' ', '4', '0', '0', '0', ']']] =
      some [0x8000, 0x900A, 0x9FA0, 0xA000] := by decide

/-! ### One step each -/

/-- A block right after a START, with the next `n` sink writes accepted. -/
def started (m : Mode) (n : Nat) : State :=
  { streamStart m State.reset with sinkAnswers := List.replicate n true }

/-- What the host sees after a step: STATUS, the two outputs, and the model's refusal mark. -/
def seen : Host.Outcome State Fault Refusal → Option (BitVec 32 × List Byte × List Code × Bool)
  | .next t => some (t.status, t.outBytes, t.outCodes, t.refused)
  | .fault _ => none
  | .refused _ => none

/-- One field after a step. -/
def after {α : Type} (f : State → α) : Host.Outcome State Fault Refusal → Option α
  | .next t => some (f t)
  | .fault _ => none
  | .refused _ => none

/-- STATUS after each START (95_test_vectors.md 2.8). -/
theorem test_encStart : seen (exec .encStart State.reset) = some (0x00020001, [], [], false) := by decide
theorem test_decStart : seen (exec .decStart State.reset) = some (0x00020002, [], [], false) := by decide
theorem test_pkStart : seen (exec .pkStart State.reset) = some (0x00020003, [], [], false) := by decide
theorem test_upStart : seen (exec .upStart State.reset) = some (0x00020004, [], [], false) := by decide

/-- V-ENC-10: after 'A', 'B' is a mismatch; code 65 is staged and `AB` takes 256. -/
theorem test_encByte_mismatch :
    seen (exec (.encByte 0x42) { started .enc 0 with encS := [0x41], encSCode := 65 }) =
      some (0x00020221, [], [], false) ∧
    after (fun t => (t.encS, t.encSCode, t.dict.read 256))
      (exec (.encByte 0x42) { started .enc 0 with encS := [0x41], encSCode := 65 }) =
      some ([0x42], 66, some [0x41, 0x42]) := by decide +kernel

/-- V-ENC-10: the first byte is found under its own code, with no output. -/
theorem test_encByte_first :
    seen (exec (.encByte 0x41) (started .enc 0)) = some (0x00020001, [], [], false) ∧
    after (fun t => (t.encS, t.encSCode)) (exec (.encByte 0x41) (started .enc 0)) = some ([0x41], 65) := by decide +kernel

/-- V-ENC-8: the one code of "A" is a tail. -/
theorem test_encEnd_tail :
    seen (exec .encEnd { started .enc 2 with encS := [0x41], encSCode := 65 }) =
      some (0x00020005, [0x04, 0x10], [], false) := by decide +kernel

/-- V-FLT-4: the unit is cut after its first byte. -/
theorem test_encEnd_sinkFailure :
    seen (exec .encEnd { started .enc 0 with
      sinkAnswers := [true, false], encS := [0x42], encSCode := 66, nextCode := 257, pkOdd := true, pkStage0 := 0x04,
      pkStage1 := 0x10 }) = some (0x0002022E, [0x04], [], false) := by decide +kernel

/-- V-DEC-2, code 256 after 65: about to be created. V-DEC-9: at a full table the ceiling check comes first. -/
theorem test_decByte_aboutToBeCreated :
    seen (exec (.decByte 0x00) { started .dec 2 with
      outBytes := [0x41], upFill := .two, upHold0 := 0x04, upHold1 := 0x11, decHavePrior := true, decPriorCode := 65,
      decPriorSym := [0x41] }) = some (0x00020302, [0x41, 0x41, 0x41], [], false) ∧
    seen (exec (.decByte 0x00) { started .dec 2 with
      nextCode := 4096, upFill := .two, upHold0 := 0x00, upHold1 := 0x01, decHavePrior := true, decPriorCode := 0,
      decPriorSym := [0x00] }) = some (0x00020302, [0x00, 0x00], [], false) := by decide +kernel

/-- V-DEC-6 and V-DEC-4: codes that are underivable. -/
theorem test_decByte_malformed :
    seen (exec (.decByte 0x01) { started .dec 2 with
      outBytes := [0x41], upFill := .two, upHold0 := 0x04, upHold1 := 0x11, decHavePrior := true, decPriorCode := 65,
      decPriorSym := [0x41] }) = some (0x00020116, [0x41], [], false) ∧
    seen (exec (.decByte 0x00) { started .dec 2 with upFill := .one, upHold0 := 0x10 }) =
      some (0x00020096, [], [], false) := by decide +kernel

/-- V-DEC-7: a stream of one byte. -/
theorem test_decEnd_oneByte :
    seen (exec .decEnd { started .dec 0 with upFill := .one, upHold0 := 0x04 }) = some (0x00020056, [], [], false) := by
  decide

/-- S4: a tail with zero padding is a complete stream. -/
theorem test_decEnd_tail :
    seen (exec .decEnd { started .dec 0 with
      outBytes := [0x41], upFill := .two, upHold0 := 0x04, upHold1 := 0x10, decHavePrior := true, decPriorCode := 65,
      decPriorSym := [0x41] }) = some (0x00020185, [0x41], [], false) := by decide

/-- 41_packer.md R132: code 10 is staged as 00 A0. -/
theorem test_pkCode_stages :
    seen (exec (.pkCode 10) (started .pk 0)) = some (0x00020023, [], [], false) ∧
    after (fun t => (t.pkStage0, t.pkStage1)) (exec (.pkCode 10) (started .pk 0)) = some (0x00, 0xA0) := by decide

/-- S1: code 4000 completes the unit 00 AF A0. -/
theorem test_pkCode_writes :
    seen (exec (.pkCode 4000) { started .pk 3 with pkOdd := true, pkStage0 := 0x00, pkStage1 := 0xA0 }) =
      some (0x00020003, [0x00, 0xAF, 0xA0], [], false) := by decide

/-- 41_packer.md R143: code 65 leaves the tail 04 10. -/
theorem test_pkFlush_tail :
    seen (exec .pkFlush { started .pk 2 with pkOdd := true, pkStage0 := 0x04, pkStage1 := 0x10 }) =
      some (0x00020005, [0x04, 0x10], [], false) := by decide

/-- V-REF-12: a second `PK.FLUSH`, in DONE, is refused. -/
theorem test_pkFlush_refused :
    seen (exec .pkFlush { started .pk 2 with mode := .done }) = some (0x00020005, [], [], true) := by decide

/-- V-UP-10: the second byte of a unit delivers code 10, the third code 4000. -/
theorem test_upByte_codes :
    seen (exec (.upByte 0xAF) { started .up 1 with upFill := .one }) = some (0x00020084, [], [10], false) ∧
    seen (exec (.upByte 0xA0) { started .up 1 with outCodes := [10], upFill := .two, upHold1 := 0xAF }) =
      some (0x00020004, [], [10, 4000], false) := by decide

/-- V-FLT-6: the fill is cleared before the code's write fails. -/
theorem test_upByte_sinkFailure :
    seen (exec (.upByte 0xA0) { started .up 0 with
      sinkAnswers := [false], outCodes := [10], upFill := .two, upHold1 := 0xAF }) =
      some (0x0002000E, [], [10], false) := by decide

/-- V-UP-3: a tail with zero padding. -/
theorem test_upEnd_tail :
    seen (exec .upEnd { started .up 0 with outCodes := [65], upFill := .two, upHold0 := 0x04, upHold1 := 0x10 }) =
      some (0x00020085, [], [65], false) := by decide

/-- V-UP-8: a tail with padding 1; its code was already written. -/
theorem test_upEnd_padding :
    seen (exec .upEnd { started .up 0 with outCodes := [65], upFill := .two, upHold0 := 0x04, upHold1 := 0x11 }) =
      some (0x00020096, [], [65], false) := by decide

/-! V-REF-1 to V-REF-4. -/

theorem test_reserved0 : seen (exec (.reserved0 0) State.reset) = some (0, [], [], true) := by decide
theorem test_reserved7 : seen (exec (.reserved7 0) State.reset) = some (0, [], [], true) := by decide
theorem test_reservedB : seen (exec (.reservedB 0) State.reset) = some (0, [], [], true) := by decide
theorem test_reservedF : seen (exec (.reservedF 0x123) State.reset) = some (0, [], [], true) := by decide

/-- The first command after power-on; and V-REF-6, a word that spells no command. -/
theorem test_step_first :
    seen (step (State.reset.withFetchWord 16 0x1000)) = some (0x00020001, [], [], false) ∧
    seen (step (State.reset.withFetchWord 16 0x1001)) = some (0, [], [], true) := by decide

/-- V-FLT-1, V-FLT-3: `io_fail` in ENC and in IDLE. -/
theorem test_ioFail :
    seen (step { started .enc 0 with pending := [.ioFail] }) = some (0x0002000E, [], [], false) ∧
    seen (step { State.reset with pending := [.ioFail] }) = some (0, [], [], false) := by decide

/-- V-DICT-2, V-DICT-3, V-DICT-4, V-DICT-8. -/
theorem test_dictionary :
    dictLookupSym [0x41] (started .enc 0) = .ok (some 65) (started .enc 0) ∧
    dictLookupSym [0x41, 0x41] (started .enc 0) = .ok none (started .enc 0) ∧
    dictLookupCode 256 (started .dec 0) = .ok none (started .dec 0) ∧
    (dictInsert [0x41, 0x42] 300 { started .dec 0 with nextCode := 301 }).state.fault = .protocolInvariant := by
  decide +kernel

/-- V-REF-10: STATUS stays 0 in IDLE; 2.8: a full table in DONE. -/
theorem test_status :
    ({ State.reset with pkOdd := true } : State).status = 0 ∧
    ({ State.reset with mode := .done, nextCode := 4096 } : State).status = 0x00200005 := by decide

/-- V-PK-10 as a whole stream, by the bit view of 20_memory.md R56. -/
theorem test_packedStream : packedStream [10, 4000, 7] = [0x00, 0xAF, 0xA0, 0x00, 0x70] := by decide

/-! ### Witnesses: for each statement with hypotheses, cases that meet them together -/

theorem witness_EncodeOfDecodeIsTheWord : decode 0x2041 = .ok (.encByte 0x41) := by decide

theorem witness_LegalWordsAreTheCommandWords :
    legalWord 0x9FFF = true ∧ legalWord 0x20FF = true ∧ legalWord 0x2100 = false ∧ legalWord 0xF123 = false := by decide

theorem witness_IllegalWord_opcode :
    ({ State.reset with pending := [.command 0x7000] } : State).pending = [.command 0x7000] ∧
      legalWord 0x7000 = false := by decide

theorem witness_IllegalWord_operandBits :
    ({ State.reset with pending := [.command 0x2100, .ioFail] } : State).pending = [.command 0x2100, .ioFail] ∧
      legalWord 0x2100 = false := by decide

theorem witness_AssembledWordsAreLegal :
    assemble [['U', 'P', '.', 'E', 'N', 'D']] = some [0xE000] ∧ (0xE000 : CmdWord) ∈ [(0xE000 : CmdWord)] := by decide

theorem witness_StepRunsTheDecodedCommand :
    (State.reset.withFetchWord 16 0xD0FF).pending = [.command 0xD0FF] ∧ decode 0xD0FF = .ok (.upByte 255) ∧
      exec (.upByte 255) State.reset = .next State.reset.refuse := by
  refine ⟨rfl, by decide, rfl⟩

theorem witness_StepRuns_ioFail :
    ({ started .up 0 with pending := [.ioFail] } : State).pending = [.ioFail] ∧
      ({ State.reset with pending := [.ioFail, .ioFail] } : State).pending = [.ioFail, .ioFail] := by decide

theorem witness_StepWithoutEventHoldsTheState : State.reset.pending = [] := by decide

theorem witness_AcceptanceTableDecidesRefusal :
    accepts (.encByte 0) .enc = true ∧ accepts (.encByte 0) .done = false ∧ accepts .upStart .fault = true ∧
      accepts (.reserved0 0) .idle = false := by decide

theorem witness_RefusalMarkIsNeverCleared :
    step ({ State.reset with refused := true } : State) = .next { State.reset with refused := true } ∧
      ({ State.reset with refused := true } : State).refused = true := ⟨rfl, rfl⟩

/-- A block in FAULT. -/
def faulted : State := (started .dec 0).raise .malformedStream

theorem witness_FaultIsSticky :
    faulted.mode = .fault ∧ startMode .encStart = some .enc ∧ startMode .decEnd = none ∧
      exec .decEnd faulted = .next faulted.refuse := ⟨rfl, rfl, rfl, rfl⟩

theorem witness_PowerOnState : (startMode .pkStart).isSome = true ∧ (startMode (.pkCode 0)).isSome = false := by decide

theorem witness_StartCommands :
    startMode .encStart = some .enc ∧ startMode .decStart = some .dec ∧ startMode .pkStart = some .pk ∧
      startMode .upStart = some .up := by decide

theorem witness_StatusAfterStart :
    startMode .decStart = some .dec ∧ exec .decStart faulted = .next (streamStart .dec faulted) := ⟨rfl, rfl⟩

/-! A full table: the base symbols, and at each later code a two-byte symbol of its own. -/

/-- The symbol at `k`. -/
def fullSym (k : Nat) : Symbol := if k < 256 then [BitVec.ofNat 8 k] else [BitVec.ofNat 8 (k / 256), BitVec.ofNat 8 k]

/-- The table. -/
def fullDict : Dict := (List.range' 0 4096).map fun k => (k, fullSym k)

theorem fullDict_read (k : Nat) : fullDict.read k = if k < 4096 then some (fullSym k) else none := by
  simpa [fullDict] using Dict.read_map_range' fullSym 4096 0 k

theorem fullDict_wf : fullDict.wf = true :=
  Dict.wfFrom_map_range' fullSym (fun k => by unfold fullSym; split <;> simp) 4096 0 (by omega)

theorem fullSym_injective {j k : Nat} (hj : j < 4096) (hk : k < 4096) (h : fullSym j = fullSym k) : j = k := by
  unfold fullSym at h
  split at h <;> split at h <;> simp [← BitVec.toNat_inj] at h <;> omega

/-- A state with the full table meets the invariants when its registers do. -/
theorem full_inv {s : State} (hd : s.dict = fullDict) (hn : s.nextCode = 4096)
    (he : s.encS = [] ∨ (s.encS = [0] ∧ s.encSCode = 0)) (hp : s.pkOdd = false ∧ s.pkStage0 = 0 ∧ s.pkStage1 = 0)
    (hv : s.decHavePrior = true → s.decPriorSym ≠ []) (hq : s.mode = .enc → s.decHavePrior = false) : s.Inv where
  canonical := hd ▸ fullDict_wf
  density k := by rw [hd, hn, fullDict_read]; split <;> simp_all
  base k hk := by rw [hd, fullDict_read, if_pos (by omega), fullSym, if_pos hk]
  range := by rw [hn]; decide
  entries k w hk h := by
    rw [hd, fullDict_read] at h
    split at h
    · cases h; simp [fullSym, show ¬ k < 256 by omega]
    · cases h
  noPrior := hq
  injective _ j k w hj hk := by
    rw [hd, fullDict_read] at hj hk
    have lj : j < 4096 := by split at hj; assumption; cases hj
    have lk : k < 4096 := by split at hk; assumption; cases hk
    rw [if_pos lj] at hj
    rw [if_pos lk] at hk
    exact fullSym_injective lj lk (Option.some.inj (hj.trans hk.symm))
  encoder _ hne := by
    rcases he with h | ⟨h, hc⟩
    · exact absurd h hne
    · rw [hd, hc, hn, h, fullDict_read]; decide
  packerEven _ := hp.2
  packerOdd h := by rw [hp.1] at h; cases h
  decoder _ h := hv h

/-- A block in a stream of mode `m` with the full table, the next `n` sink writes accepted. -/
def full (m : Mode) (n : Nat) : State := { started m n with dict := fullDict, nextCode := 4096 }

theorem witness_CeilingCheck : (full .enc 0).nextCode.toNat = 4096 ∧ State.reset.nextCode.toNat ≠ 4096 := by decide

theorem witness_DictInsert_wrongCode : (started .dec 0).dict.wf = true ∧ (300 : BitVec 13) ≠ (started .dec 0).nextCode :=
  ⟨Dict.base_wf, by decide⟩

theorem witness_DictInsert_full : (full .dec 0).dict.wf = true ∧ 4096 ≤ (full .dec 0).nextCode.toNat :=
  ⟨fullDict_wf, by decide⟩

theorem witness_DictInsert_duplicate :
    (started .enc 0).dict.wf = true ∧ (started .enc 0).mode = .enc ∧ 255 < (started .enc 0).nextCode.toNat ∧
      (started .enc 0).dict.read 255 = some [0xFF] :=
  ⟨Dict.base_wf, rfl, by decide, by exact (Dict.read_base 255).trans (by decide)⟩

theorem witness_DictInsert_last :
    (started .dec 0).dict.wf = true ∧
      ¬ ((4095 : BitVec 13) ≠ ({ started .dec 0 with nextCode := 4095 } : State).nextCode ∨
        4096 ≤ ({ started .dec 0 with nextCode := 4095 } : State).nextCode.toNat ∨
        ({ started .dec 0 with nextCode := 4095 } : State).mode = .enc) := ⟨Dict.base_wf, by decide⟩

/-- A table that holds `[0x41, 0x41]` at 256 and at 257 (43_decoder.md R200). -/
def doubled : State :=
  { started .dec 0 with dict := (Dict.base.write 256 [0x41, 0x41]).write 257 [0x41, 0x41], nextCode := 258 }

theorem doubled_wf : doubled.dict.wf = true :=
  Dict.wf_write (Dict.wf_write Dict.base_wf (by omega) (by simp)) (by omega) (by simp)

theorem witness_DictLookupSym_none :
    State.reset.dict.wf = true ∧ ∀ j, j < State.reset.nextCode.toNat → State.reset.dict.read j ≠ some [0x41, 0x41] :=
  ⟨Dict.base_wf, fun j _ h => by rw [State.reset, Dict.read_base] at h; split at h <;> simp at h⟩

theorem witness_DictLookupSym_one :
    State.reset.dict.wf = true ∧ (255 : Code).toNat < State.reset.nextCode.toNat ∧
      State.reset.dict.read (255 : Code).toNat = some [0xFF] ∧
      ∀ j, j < State.reset.nextCode.toNat → State.reset.dict.read j = some [0xFF] → j = (255 : Code).toNat :=
  ⟨Dict.base_wf, by decide, (Dict.read_base 255).trans (by decide),
    fun j _ h => (streamStart_inv .enc State.reset).read_single (c := 0xFF) h⟩

theorem witness_DictLookupSym_two :
    doubled.dict.wf = true ∧ 257 < doubled.nextCode.toNat ∧ doubled.dict.read 256 = some [0x41, 0x41] ∧
      doubled.dict.read 257 = some [0x41, 0x41] :=
  ⟨doubled_wf, by decide, by simp [doubled, Dict.read_write], by simp [doubled]⟩

theorem witness_DictLookupCode :
    4095 < 4096 ∧ 255 < State.reset.nextCode.toNat ∧ State.reset.nextCode.toNat ≤ 256 ∧
      4095 < (full .dec 0).nextCode.toNat := by decide

/-! The invariants at the states below, and steps from them. -/

theorem started_inv (m : Mode) (n : Nat) : (started m n).Inv :=
  (streamStart_inv m State.reset).of_eq rfl rfl (.inl rfl) rfl rfl rfl rfl rfl rfl rfl

theorem witness_InvariantsAreKeptByEveryStep :
    ({ started .enc 3 with pending := [.command 0x2041] } : State).Inv ∧
      ∃ t, step { started .enc 3 with pending := [.command 0x2041] } = .next t :=
  ⟨(started_inv .enc 3).of_eq rfl rfl (.inl rfl) rfl rfl rfl rfl rfl rfl rfl, exec_next (.encByte 0x41) (started .enc 3)⟩

theorem witness_EntriesChange_full :
    ({ full .enc 3 with encS := [0], encSCode := 0, pending := [.command 0x2000] } : State).Inv ∧
      (full .enc 3).nextCode.toNat = 4096 :=
  ⟨full_inv rfl rfl (.inr ⟨rfl, rfl⟩) ⟨rfl, rfl, rfl⟩ (fun h => by cases h) (fun _ => rfl), by decide⟩

theorem witness_ProtocolInvariantIsNeverRaised :
    ((started .dec 0).raise .protocolInvariant).Inv ∧
      step ((started .dec 0).raise .protocolInvariant) = .next ((started .dec 0).raise .protocolInvariant) ∧
      ((started .dec 0).raise .protocolInvariant).fault = .protocolInvariant :=
  ⟨(started_inv .dec 0).raise _, rfl, rfl⟩

theorem witness_InjectiveTableAfterEncEnd :
    (started .enc 0).Inv ∧ (started .enc 0).mode = .enc ∧
      exec .encEnd (started .enc 0) = .next (started .enc 0).finishStream ∧ (started .enc 0).finishStream.mode = .done ∧
      255 < (started .enc 0).finishStream.nextCode.toNat ∧ (started .enc 0).finishStream.dict.read 255 = some [0xFF] :=
  ⟨started_inv .enc 0, rfl, rfl, rfl, by decide, (Dict.read_base 255).trans (by decide)⟩

/-! The packer and the unpacker. -/

/-- The next `n` sink writes are accepted. -/
theorem started_accepts (m : Mode) (n : Nat) : (started m n).SinkAccepts n :=
  State.SinkAccepts.of_replicate rfl (Nat.le_refl n)

/-- A packer with code 10 staged. -/
def staged (n : Nat) : State := { started .pk n with pkOdd := true, pkStage1 := 0xA0 }

theorem witness_PkCodeStagesTheFirstCode : (started .pk 0).mode = .pk ∧ (started .pk 0).pkOdd = false := by decide

theorem witness_PkCodeWritesTheUnit :
    (staged 3).mode = .pk ∧ (staged 3).pkOdd = true ∧ (staged 3).pkStage1.toNat % 16 = 0 ∧ (staged 3).SinkAccepts 3 :=
  ⟨rfl, rfl, by decide, State.SinkAccepts.of_replicate rfl (Nat.le_refl 3)⟩

theorem witness_PkFlush_tail : (staged 2).mode = .pk ∧ ((staged 2).pkOdd = true → (staged 2).SinkAccepts 2) :=
  ⟨rfl, fun _ => State.SinkAccepts.of_replicate rfl (Nat.le_refl 2)⟩

theorem witness_PkFlush_nothing :
    (started .pk 0).mode = .pk ∧ ((started .pk 0).pkOdd = true → (started .pk 0).SinkAccepts 2) :=
  ⟨rfl, fun h => by cases h⟩

/-- The sink accepts `m` writes and fails the next. -/
def failsAt (m : Nat) (s : State) : State := { s with sinkAnswers := List.replicate m true ++ [false] }

theorem failsAt_accepts (m : Nat) (s : State) : (failsAt m s).SinkAccepts m ∧ (failsAt m s).sinkAnswerAt m = false := by
  constructor
  · intro i hi; simp [State.sinkAnswerAt, failsAt, hi, List.getElem?_append]
  · simp [State.sinkAnswerAt, failsAt]

theorem witness_PkCodeSinkFailure_first :
    (failsAt 0 (staged 0)).mode = .pk ∧ (failsAt 0 (staged 0)).pkOdd = true ∧ (failsAt 0 (staged 0)).SinkAccepts 0 ∧
      (failsAt 0 (staged 0)).sinkAnswerAt 0 = false := ⟨rfl, rfl, failsAt_accepts 0 _⟩

theorem witness_PkCodeSinkFailure_last :
    (failsAt 2 (staged 0)).mode = .pk ∧ (failsAt 2 (staged 0)).pkOdd = true ∧ (failsAt 2 (staged 0)).SinkAccepts 2 ∧
      (failsAt 2 (staged 0)).sinkAnswerAt 2 = false := ⟨rfl, rfl, failsAt_accepts 2 _⟩

theorem witness_UpByte :
    ((started .up 0).mode = .up ∧ (started .up 0).upFill = .zero) ∧
    (({ started .up 1 with upFill := .one } : State).mode = .up ∧
      ({ started .up 1 with upFill := .one } : State).upFill = .one ∧
      ({ started .up 1 with upFill := .one } : State).SinkAccepts 1) ∧
    (({ started .up 1 with upFill := .two } : State).mode = .up ∧
      ({ started .up 1 with upFill := .two } : State).upFill = .two ∧
      ({ started .up 1 with upFill := .two } : State).SinkAccepts 1) :=
  ⟨⟨rfl, rfl⟩, ⟨rfl, rfl, started_accepts .up 1⟩, rfl, rfl, started_accepts .up 1⟩

theorem witness_EndCommands :
    ((Instr.upEnd = .upEnd ∧ (started .up 0).mode = .up) ∨ (Instr.upEnd = .decEnd ∧ (started .up 0).mode = .dec)) ∧
    ((Instr.decEnd = .upEnd ∧ (started .dec 0).mode = .up) ∨ (Instr.decEnd = .decEnd ∧ (started .dec 0).mode = .dec)) := by
  decide

theorem witness_PackingGivesTheWholeStream : (started .done 4).SinkAccepts (2 * ([10, 4000] : List Code).length) :=
  started_accepts .done 4

theorem witness_UnpackingReadsTheUnits :
    (started .idle 3).SinkAccepts ([0x00, 0xAF, 0xA0] : List Byte).length ∧
      streamCodes [0x00, 0xAF, 0xA0] = some [10, 4000] ∧ streamCodes [0x04] = none ∧ streamCodes [0x04, 0x11] = none :=
  ⟨started_accepts .idle 3, by decide⟩

theorem witness_PackingIsABijection : streamCodes [0xAB, 0xCD, 0xEF, 0x12, 0x30] = some [0xABC, 0xDEF, 0x123] := by decide

/-! The encoder. -/

/-- An encoder whose prefix is `[c]`. -/
def prefixed (c : Byte) (n : Nat) : State := { started .enc n with encS := [c], encSCode := codeOfByte c }

theorem prefixed_inv (c : Byte) (n : Nat) : (prefixed c n).Inv :=
  State.Inv.of_base rfl rfl
    (fun _ _ => by
      rw [show (prefixed c n).encSCode.toNat = c.toNat from codeOfByte_toNat c]
      exact (Dict.read_base _).trans (by rw [if_pos c.isLt]; simp [prefixed]))
    (fun _ => ⟨rfl, rfl⟩) (fun h => by cases h) (fun h => by cases h) (fun _ => rfl)

theorem witness_EncByteExtends_first :
    (started .enc 0).Inv ∧ (started .enc 0).mode = .enc ∧ (started .enc 0).encS = [] ∧
      (started .enc 0).dict.read (0x41 : Code).toNat = some ((started .enc 0).encS ++ [0x41]) :=
  ⟨started_inv .enc 0, rfl, rfl, (Dict.read_base 0x41).trans (by decide)⟩

theorem witness_EncByteExtends_last :
    (full .enc 0).Inv ∧ (full .enc 0).mode = .enc ∧
      fullDict.read (0xFFF : Code).toNat = some ([0x0F] ++ [0xFF]) :=
  ⟨full_inv rfl rfl (.inl rfl) ⟨rfl, rfl, rfl⟩ (fun h => by cases h) (fun _ => rfl), rfl, (fullDict_read 0xFFF).trans (by decide)⟩

theorem witness_EncByteMismatch_even :
    (prefixed 0x41 0).Inv ∧ (prefixed 0x41 0).mode = .enc ∧
      (∀ k, (prefixed 0x41 0).dict.read k ≠ some ((prefixed 0x41 0).encS ++ [0x42])) ∧
      ((prefixed 0x41 0).pkOdd = true → (prefixed 0x41 0).SinkAccepts 3) := by
  refine ⟨prefixed_inv 0x41 0, rfl, fun k h => ?_, fun h => by cases h⟩
  have h := (Dict.read_base k).symm.trans h
  split at h <;> simp [prefixed] at h

theorem witness_EncByteMismatch_odd :
    ({ prefixed 0x42 3 with pkOdd := true, pkStage0 := 0x04, pkStage1 := 0x10 } : State).Inv ∧
      ∀ k, (prefixed 0x42 3).dict.read k ≠ some ((prefixed 0x42 3).encS ++ [0x41]) := by
  refine ⟨State.Inv.of_base rfl rfl (fun hm hs => ((prefixed_inv 0x42 3).encoder hm hs).1) (fun h => by cases h) (fun _ => by decide)
    (fun h => by cases h) (fun _ => rfl), fun k h => ?_⟩
  have h := (Dict.read_base k).symm.trans h
  split at h <;> simp [prefixed] at h

theorem witness_EncByteMismatch_full :
    ({ full .enc 0 with encS := [0], encSCode := 0 } : State).Inv ∧ (full .enc 0).nextCode.toNat = 4096 ∧
      ∀ k, fullDict.read k ≠ some ([0] ++ [0]) := by
  refine ⟨full_inv rfl rfl (.inr ⟨rfl, rfl⟩) ⟨rfl, rfl, rfl⟩ (fun h => by cases h) (fun _ => rfl), by decide, fun k h => ?_⟩
  rw [fullDict_read] at h
  split at h
  · rename_i hk
    unfold fullSym at h
    split at h <;> simp [← BitVec.toNat_inj] at h
    omega
  · cases h

theorem witness_EncEnd :
    (prefixed 0x41 3).Inv ∧ (prefixed 0x41 3).mode = .enc ∧ (prefixed 0x41 3).SinkAccepts 3 ∧
      (started .enc 3).Inv ∧ (started .enc 3).SinkAccepts 3 :=
  ⟨prefixed_inv 0x41 3, rfl, started_accepts .enc 3, started_inv .enc 3, started_accepts .enc 3⟩

theorem witness_SingleByte : (started .fault 2).SinkAccepts 2 := started_accepts .fault 2

theorem witness_Compressing :
    (started .idle 4).SinkAccepts (2 * ([0x41, 0x42] : List Byte).length) ∧ (started .idle 0).SinkAccepts 0 :=
  ⟨started_accepts .idle 4, started_accepts .idle 0⟩

/-! The decoder. -/

/-- A decoder whose prior symbol is `[c]`, with `b0` and then `b1` held as it says. -/
def priored (c : Byte) (f : Fill) (b0 b1 : Byte) (s : State) : State :=
  { s with decHavePrior := true, decPriorCode := codeOfByte c, decPriorSym := [c], upFill := f, upHold0 := b0, upHold1 := b1 }

theorem priored_inv (c : Byte) (f : Fill) (b0 b1 : Byte) (n : Nat) : (priored c f b0 b1 (started .dec n)).Inv :=
  State.Inv.of_base rfl rfl (fun h => by cases h) (fun _ => ⟨rfl, rfl⟩) (fun h => by cases h) (fun _ _ h => by cases h)
    (fun h => by cases h)

theorem priored_full_inv (c : Byte) (f : Fill) (b0 b1 : Byte) (n : Nat) : (priored c f b0 b1 (full .dec n)).Inv :=
  full_inv rfl rfl (.inl rfl) ⟨rfl, rfl, rfl⟩ (fun _ h => by cases h) (fun h => by cases h)

theorem witness_DecByteHoldsTheFirstByte : (started .dec 0).mode = .dec ∧ (started .dec 0).upFill = .zero := by decide

theorem witness_DecFirstCode :
    ({ started .dec 1 with upFill := .one, upHold0 := 0x0F } : State).Inv ∧
      unpackCode 0xF0 ({ started .dec 1 with upFill := .one, upHold0 := 0x0F } : State) = some 255 ∧
      (255 : Code).toNat < 256 ∧ (started .dec 1).SinkAccepts 1 :=
  ⟨(started_inv .dec 1).of_eq rfl rfl (.inl rfl) rfl rfl rfl rfl rfl rfl rfl, by decide, by decide, started_accepts .dec 1⟩

theorem witness_DecPresentCode :
    (priored 0x41 .two 0x04 0x10 (started .dec 1)).Inv ∧
      unpackCode 0x42 (priored 0x41 .two 0x04 0x10 (started .dec 1)) = some 66 ∧
      (66 : Code).toNat < (dictCeilingCheck (priored 0x41 .two 0x04 0x10 (started .dec 1))).nextCode.toNat ∧
      (dictCeilingCheck (priored 0x41 .two 0x04 0x10 (started .dec 1))).dict.read (66 : Code).toNat = some [0x42] ∧
      (started .dec 1).SinkAccepts 1 :=
  ⟨priored_inv _ _ _ _ _, by decide, by decide, (Dict.read_base 66).trans (by decide), started_accepts .dec 1⟩

theorem witness_DecPresentCode_full :
    (priored 0x41 .two 0x04 0x10 (full .dec 1)).Inv ∧
      unpackCode 0xFF (priored 0x41 .two 0x04 0x10 (full .dec 1)) = some 255 ∧
      (dictCeilingCheck (priored 0x41 .two 0x04 0x10 (full .dec 1))).nextCode.toNat = 256 ∧
      (dictCeilingCheck (priored 0x41 .two 0x04 0x10 (full .dec 1))).dict.read (255 : Code).toNat = some [0xFF] :=
  ⟨priored_full_inv _ _ _ _ _, by decide, by decide, (Dict.read_base 255).trans (by decide)⟩

theorem witness_DecCodeAboutToBeCreated :
    (priored 0x41 .two 0x04 0x11 (started .dec 2)).Inv ∧
      unpackCode 0x00 (priored 0x41 .two 0x04 0x11 (started .dec 2)) = some 256 ∧
      (256 : Code).toNat = (dictCeilingCheck (priored 0x41 .two 0x04 0x11 (started .dec 2))).nextCode.toNat ∧
      (started .dec 2).SinkAccepts ((priored 0x41 .two 0x04 0x11 (started .dec 2)).decPriorSym.length + 1) :=
  ⟨priored_inv _ _ _ _ _, by decide, by decide, started_accepts .dec 2⟩

theorem witness_DecCodeAboutToBeCreated_full :
    (priored 0x00 .two 0x00 0x01 (full .dec 2)).Inv ∧
      unpackCode 0x00 (priored 0x00 .two 0x00 0x01 (full .dec 2)) = some 256 ∧
      (256 : Code).toNat = (dictCeilingCheck (priored 0x00 .two 0x00 0x01 (full .dec 2))).nextCode.toNat :=
  ⟨priored_full_inv _ _ _ _ _, by decide, by decide⟩

theorem witness_DecUnderivable_first :
    ({ started .dec 0 with upFill := .one, upHold0 := 0x10 } : State).mode = .dec ∧
      unpackCode 0x00 ({ started .dec 0 with upFill := .one, upHold0 := 0x10 } : State) = some 256 ∧
      (started .dec 0).decHavePrior = false ∧ 256 ≤ (256 : Code).toNat := by decide

theorem witness_DecUnderivable_later :
    unpackCode 0x01 (priored 0x41 .two 0x04 0x11 (started .dec 0)) = some 257 ∧
      (dictCeilingCheck (priored 0x41 .two 0x04 0x11 (started .dec 0))).nextCode.toNat < (257 : Code).toNat ∧
      (dictCeilingCheck (priored 0x41 .two 0x04 0x11 (full .dec 0))).nextCode.toNat < (257 : Code).toNat := by decide

theorem witness_DecompressOfCompress :
    (started .idle 2).SinkAccepts (2 * ([0x41] : List Byte).length) ∧
      (started .done 1).SinkAccepts ([0x41] : List Byte).length :=
  ⟨started_accepts .idle 2, started_accepts .done 1⟩

theorem witness_DecodedSymbols :
    runProgram (encode .decStart :: ([0x04] : List Byte).map fun b => encode (.decByte b)) State.reset =
      .next { streamStart .dec State.reset with upHold0 := 0x04, upFill := .one } := rfl

/-! Faults. -/

theorem witness_Malformed_a : (started .up 0).fault = .none ∧
    exec .upEnd { started .up 0 with upFill := .one } =
      .next (({ started .up 0 with upFill := .one } : State).raise .malformedStream) := ⟨rfl, rfl⟩

theorem witness_Malformed_b : (started .dec 0).fault = .none ∧
    exec .decEnd { started .dec 0 with upFill := .two, upHold1 := 0x11 } =
      .next (({ started .dec 0 with upFill := .two, upHold1 := 0x11 } : State).raise .malformedStream) := ⟨rfl, rfl⟩

theorem witness_Malformed_c : (started .dec 0).fault = .none ∧
    after State.fault (exec (.decByte 0x00) { started .dec 0 with upFill := .one, upHold0 := 0x10 }) =
      some .malformedStream := by decide

theorem witness_Malformed_d : (started .dec 0).fault = .none ∧
    after State.fault (exec (.decByte 0x01) (priored 0x41 .two 0x04 0x11 (started .dec 0))) =
      some .malformedStream := by decide

theorem witness_FaultsEachCommandCanRaise_end :
    ({ started .up 0 with upFill := .one } : State).Inv ∧ ({ started .up 0 with upFill := .one } : State).mode ≠ .fault ∧
      exec .upEnd { started .up 0 with upFill := .one } =
        .next (({ started .up 0 with upFill := .one } : State).raise .malformedStream) :=
  ⟨(started_inv .up 0).of_eq rfl rfl (.inl rfl) rfl rfl rfl rfl rfl rfl rfl, by decide, rfl⟩

theorem witness_FaultsEachCommandCanRaise_sink :
    (failsAt 0 { started .up 0 with upFill := .one }).Inv ∧
      after State.mode (exec (.upByte 0) (failsAt 0 { started .up 0 with upFill := .one })) = some .fault ∧
      after State.mode (exec .encEnd (failsAt 1 (prefixed 0x41 0))) = some .fault :=
  ⟨(started_inv .up 0).of_eq rfl rfl (.inl rfl) rfl rfl rfl rfl rfl rfl rfl, by decide, by decide⟩

theorem witness_SinkFailure :
    (started .dec 2).SinkAccepts ([0x41, 0x42] : List Byte).length ∧ (failsAt 1 State.reset).SinkAccepts 1 ∧
      (failsAt 1 State.reset).sinkAnswerAt 1 = false ∧ (failsAt 0 State.reset).sinkAnswerAt 0 = false :=
  ⟨started_accepts .dec 2, (failsAt_accepts 1 _).1, (failsAt_accepts 1 _).2, (failsAt_accepts 0 _).2⟩

theorem witness_SinkFailure_prefix :
    after State.outBytes (exec .encEnd (failsAt 1 (prefixed 0x41 0))) = some [0x04] ∧
      after (fun v => (v.outBytes, v.fault)) (exec .encEnd
        { failsAt 1 (prefixed 0x41 0) with sinkAnswers := [true, true], sinkDraws := 0 }) = some ([0x04, 0x10], .none) := by
  decide

theorem witness_OutputsOnlyGrow : startMode .upEnd = none ∧ exec .upEnd State.reset = .next State.reset.refuse := ⟨rfl, rfl⟩

/-! Frames: each command has a next state everywhere. -/

theorem witness_PackerCommandsFrame :
    (∃ t, exec (.pkCode 10) (started .pk 0) = .next t) ∧ ∃ t, exec .pkFlush (staged 2) = .next t :=
  ⟨exec_next _ _, exec_next _ _⟩

theorem witness_UnpackerCommandsFrame :
    (∃ t, exec (.upByte 10) (started .up 0) = .next t) ∧ ∃ t, exec .upEnd (started .up 0) = .next t :=
  ⟨exec_next _ _, exec_next _ _⟩

theorem witness_EncoderCommandsFrame :
    (∃ t, exec (.encByte 0x42) (prefixed 0x41 0) = .next t) ∧ ∃ t, exec .encEnd (prefixed 0x41 2) = .next t :=
  ⟨exec_next _ _, exec_next _ _⟩

theorem witness_DecoderCommandsFrame :
    (∃ t, exec (.decByte 0x00) (priored 0x41 .two 0x04 0x11 (started .dec 2)) = .next t) ∧
      ∃ t, exec .decEnd (started .dec 0) = .next t := ⟨exec_next _ _, exec_next _ _⟩

/-! Isolation. -/

theorem witness_StreamOutcome :
    startMode .decStart = some .dec ∧
      (State.reset.issue 0x4000).pending = .command (encode .decStart) :: [] ∧
      ({ full .enc 0 with pending := [.command 0x4000] } : State).pending = (State.reset.issue 0x4000).pending ∧
      (full .enc 0).sinkAnswers = State.reset.sinkAnswers ∧ (full .enc 0).sinkDraws = State.reset.sinkDraws := by
  refine ⟨rfl, by decide, by decide, rfl, rfl⟩

theorem witness_SymbolBound :
    (prefixed 0x41 0).mode = .enc ∧ 1 < (prefixed 0x41 0).encS.length + 1 ∧
      (priored 0x41 .two 0x04 0x11 (started .dec 2)).Inv ∧
      (priored 0x41 .two 0x04 0x11 (started .dec 2)).mode = .dec :=
  ⟨rfl, by decide, priored_inv _ _ _ _ _, rfl⟩

end Sys2Proof.Tests
end

section
/-!
PROOFS. The decoder reads back every encoded command (spec/30_encoding.md R80, R81, R87).
-/
namespace Sys2Proof

/-- The opcode field picks the row, and the row's operand check passes because ARG is the operand, zero-extended. -/
theorem decode_encode (i : Instr) : decode (encode i) = .ok i := by
  have harg := argField_encode i
  unfold decode
  rw [opField_encode]
  cases i with
  | encStart | encEnd | decStart | decEnd | pkStart | pkFlush | upStart | upEnd => exact decodeBare_arg_zero harg
  | encByte c | decByte c | upByte c => exact decodeByteOp_zeroExtend harg
  | pkCode k => exact congrArg (fun a => Except.ok (Instr.pkCode a)) harg
  | reserved0 arg => exact congrArg (fun a => Except.ok (Instr.reserved0 a)) harg
  | reserved7 arg => exact congrArg (fun a => Except.ok (Instr.reserved7 a)) harg
  | reservedB arg => exact congrArg (fun a => Except.ok (Instr.reservedB a)) harg
  | reservedF arg => exact congrArg (fun a => Except.ok (Instr.reservedF a)) harg

end Sys2Proof
end

section
/-!
PROOFS. Decompressing what compressing wrote gives the input back (spec/00_scope.md R12, spec/43_decoder.md R199).
-/
namespace Sys2Proof.Machine

/-- The wire format loses nothing: the codes read from a packed stream are the codes packed, tail included
(30_encoding.md R72, R73). -/
theorem streamCodes_packedStream (ks : List Code) : streamCodes (packedStream ks) = some ks := by
  induction ks using codes_induction with
  | h0 => rfl
  | h1 a => rw [packedStream_single, streamCodes_tail, if_pos (firstByte1_low a), firstCode_tail]
  | h2 a b ks ih =>
    rw [packedStream_pair, streamCodes_group, ih, firstCode_group, secondCode_group, Option.map_some]

theorem compress_of_run {x : List Byte} {s t : State} (h : runProgram (compressProgram x) s = .next t) :
    compress x s = some t.outBytes := by
  rw [compress, h]

theorem decompress_of_run {y : List Byte} {s t : State} (h : runProgram (decompressProgram y) s = .next t)
    (hm : t.mode = .done) : decompress y s = some (.ok t.outBytes) := by
  rw [decompress, h]
  simp only [if_pos hm]

/-- Settles O47: the encoder's run packs a code sequence that decodes to `x`, the wire format gives that sequence back, and
the decoder's run then writes its decoding, `|x|` bytes. -/
theorem decompressOfCompressIsIdentity : Obligations.DecompressOfCompressIsIdentity := by
  intro x s u hs hu
  obtain ⟨t, ht, ks, -, -, hout, ⟨d, hd, rfl⟩, -⟩ := compress_result decode_encode x s hs
  have hcodes : streamCodes t.outBytes = some ks := hout ▸ streamCodes_packedStream ks
  obtain ⟨v, hv, hdone, -, hvout⟩ := decompress_result decode_encode t.outBytes u hcodes hd hu
  exact ⟨t.outBytes, compress_of_run ht, hvout ▸ decompress_of_run hv hdone⟩

end Sys2Proof.Machine
end

section
/-!
PROOFS. Packing a code sequence writes its whole-stream bytes (spec/20_memory.md R56, spec/41_packer.md R140).
-/
namespace Sys2Proof.Machine

/-- A START leaves the packer as it stands before the first code (41_packer.md R131). -/
theorem Packed.start (m : Mode) (s : State) : Packed [] (streamStart m s) where
  even _ := ⟨rfl, rfl, rfl, rfl⟩
  odd h := absurd h (by decide)

/-- The packer driven alone, between two commands of a stream of `n` codes, after the codes `seen`. -/
structure Packing (n : Nat) (seen : List Code) (s : State) : Prop where
  /-- the packer takes commands -/
  mode : s.mode = .pk
  /-- no fault so far -/
  fault : s.fault = .none
  /-- the packer holds the codes -/
  packed : Packed seen s
  /-- the rest of the sink's answers accept -/
  sink : s.SinkAccepts (2 * n - s.outBytes.length)

theorem Packing.start {n : Nat} {s : State} (ha : s.SinkAccepts (2 * n)) : Packing n [] (streamStart .pk s) where
  mode := rfl
  fault := rfl
  packed := .start .pk s
  sink := ha.congr rfl rfl

theorem Packing.pending {n : Nat} {seen : List Code} {s : State} (h : Packing n seen s) (p : List HostEvent) :
    Packing n seen { s with pending := p } where
  mode := h.mode
  fault := h.fault
  packed := h.packed.congr rfl rfl rfl rfl
  sink := h.sink.congr rfl rfl

/-- One more code. Two writes for each of the `n` codes pay for the three bytes of a group. -/
theorem Packing.code {n : Nat} {seen : List Code} {s : State} (h : Packing n seen s) (k : Code) (hn : seen.length < n) :
    ∃ t, exec (.pkCode k) s = .next t ∧ Packing n (seen ++ [k]) t := by
  obtain ⟨hlen, hodd⟩ := h.packed.length
  have hcost : (if s.pkOdd then 3 else 0) ≤ 2 * n - s.outBytes.length := by
    rw [hlen, if_odd hodd]; split <;> omega
  obtain ⟨t, ht, hpt, hframe, hlt⟩ := h.packed.pack k (h.sink.mono hcost)
  have hrest : (s.sinkSkip (if s.pkOdd then 3 else 0)).SinkAccepts (2 * n - t.outBytes.length) :=
    State.SinkAccepts.skip (h.sink.mono (by omega))
  refine ⟨t, by rw [exec_pkCode h.mode, ht, Eff.state_ok], ?_, ?_, hpt, hrest.congr ?_ ?_⟩
  · rw [hframe]; exact h.mode
  · rw [hframe]; exact h.fault
  · rw [hframe]
  · rw [hframe]

/-- The flush, after all `n` codes: what is staged is written and the stream is done (41_packer.md R143). -/
theorem Packing.flush {ks : List Code} {s : State} (h : Packing ks.length ks s) :
    ∃ t, exec .pkFlush s = .next t ∧ t.mode = .done ∧ t.fault = .none ∧ t.outBytes = packedStream ks := by
  obtain ⟨hlen, hodd⟩ := h.packed.length
  have hcost : (if s.pkOdd then 2 else 0) ≤ 2 * ks.length - s.outBytes.length := by
    rw [hlen, if_odd hodd]; split <;> omega
  obtain ⟨t, ht, hout, -, -, hfault, -⟩ := h.packed.flush (h.sink.mono hcost)
  exact ⟨t.finishStream, by rw [exec_pkFlush h.mode, ht]; rfl, rfl, hfault.trans h.fault, hout⟩

/-- Settles O34: PK.START begins a packed stream, every PK.CODE extends it by its code, and PK.FLUSH ends it with the
whole-stream bytes. -/
theorem packingGivesTheWholeStream : Obligations.PackingGivesTheWholeStream := by
  intro ks s ha
  refine runProgram_stream (start := .pkStart) (fin := .pkFlush) (f := .pkCode) (R := Packing ks.length) rfl
    (decode_encode _) (decode_encode _) (fun _ => decode_encode _) ks s ?start ?code ?pending ?flush
  case start => exact fun p => .start (ha.congr rfl rfl)
  case code =>
    rintro seen k tail t hks h
    exact h.code k (by simp [hks])
  case pending => exact fun _ _ p h => h.pending p
  case flush => exact fun _ h => h.flush

end Sys2Proof.Machine
end

section
/-!
The dictionary's statements of 40_dictionary.md. O24 goes through one relation, `TableChange`: everything a step other
than a START can do to the table, said of the two commands that can insert and then of every command.
-/
namespace Sys2Proof.Machine

/-- Two states hold the same table: the same entries and the same `nextCode` (10_state.md R24, R25). -/
def State.SameTable (s t : State) : Prop := t.dict = s.dict ∧ t.nextCode = s.nextCode

theorem State.SameTable.refl (s : State) : s.SameTable s := ⟨rfl, rfl⟩

theorem State.SameTable.trans {s t u : State} (h : s.SameTable t) (h' : t.SameTable u) : s.SameTable u :=
  ⟨h'.1.trans h.1, h'.2.trans h.2⟩

/-- `DictInsert` as an accepted command reaches it: at `nextCode`, right after the ceiling check (42_encoder.md R162,
43_decoder.md R194). -/
def State.insertNext (w : Symbol) (s : State) : State :=
  (dictCeilingCheck s).dictAppend w (dictCeilingCheck s).nextCode

/-- The ceiling check sees the table only. -/
theorem State.SameTable.ceilingCheck {s t : State} (h : s.SameTable t) :
    (dictCeilingCheck s).SameTable (dictCeilingCheck t) := by
  obtain ⟨hd, hn⟩ := h
  rcases dictCeilingCheck_cases s with ⟨hs, es⟩ | ⟨hs, es⟩ <;>
    rcases dictCeilingCheck_cases t with ⟨ht, et⟩ | ⟨ht, et⟩ <;> rw [hn] at ht <;> rw [es, et]
  · exact ⟨hd, hn⟩
  · exact absurd ht hs
  · exact absurd hs ht
  · exact ⟨rfl, rfl⟩

/-- So does the insertion after it. -/
theorem State.SameTable.insertNext {s t : State} (h : s.SameTable t) (w : Symbol) :
    (s.insertNext w).SameTable (t.insertNext w) := by
  obtain ⟨hd, hn⟩ := h.ceilingCheck
  constructor <;> simp [State.insertNext, hd, hn]

/-- What a step other than a START can do to the table. -/
inductive TableChange (s t : State) : Prop where
  /-- nothing -/
  | same (h : s.SameTable t)
  /-- the ceiling check alone: a code that is then found underivable (43_decoder.md R197) -/
  | check (h : (dictCeilingCheck s).SameTable t)
  /-- the ceiling check and one insertion -/
  | insert (w : Symbol) (h : (s.insertNext w).SameTable t)

theorem TableChange.before {s s' t : State} (hs : s.SameTable s') (h : TableChange s' t) : TableChange s t := by
  cases h with
  | same h => exact .same (hs.trans h)
  | check h => exact .check (hs.ceilingCheck.trans h)
  | insert w h => exact .insert w ((hs.insertNext w).trans h)

theorem TableChange.after {s t t' : State} (h : TableChange s t) (ht : t.SameTable t') : TableChange s t' := by
  cases h with
  | same h => exact .same (h.trans ht)
  | check h => exact .check (h.trans ht)
  | insert w h => exact .insert w (h.trans ht)

/-! ### The parts of a command -/

theorem outSeq_sameTable (w : List Byte) (s : State) : s.SameTable (outSeq w s).state :=
  ⟨outSeq_dict w s, outSeq_nextCode w s⟩

theorem pack_sameTable (k : Code) (s : State) : s.SameTable (pack k s).state :=
  ⟨pack_dict k s, pack_nextCode k s⟩

theorem unpackNext_sameTable (b : Byte) (s : State) : s.SameTable (s.unpackNext b) :=
  ⟨State.unpackNext_dict b s, State.unpackNext_nextCode b s⟩

/-- `ENC.BYTE` inserts in the mismatch branch only, once the pack has succeeded (42_encoder.md R162). -/
theorem encWalk_tableChange {s : State} (h : s.Inv) (hm : s.mode = .enc) (c : Byte) :
    TableChange s (encWalk c s).state := by
  rcases encWalk_cases h hm c with ⟨k, _, _, he⟩ | ⟨_, _, he⟩ <;> rw [he]
  · exact .same ⟨rfl, rfl⟩
  · have hp := pack_sameTable s.encSCode s
    cases hpack : pack s.encSCode s with
    | raised t => rw [hpack] at hp; exact .same hp
    | ok _ t =>
      rw [hpack] at hp
      exact .before hp (.insert (s.encS ++ [c]) ⟨rfl, rfl⟩)

/-- The checks of a code and its insertion: nothing for the first code, one insertion for a later one. -/
theorem DecodesTo.tableChange {k : Code} {s v : State} {cur : Symbol} (h : DecodesTo k s cur v) : TableChange s v := by
  obtain ⟨-, -, -, ⟨-, -, -, rfl⟩ | ⟨-, -, -, rfl⟩ | ⟨-, -, -, rfl⟩⟩ := h
  · exact .same (.refl _)
  · exact .insert _ (.refl _)
  · exact .insert _ (.refl _)

theorem decodeCode_tableChange {s : State} (h : s.Inv) (hm : s.mode = .dec) (k : Code) :
    TableChange s (decodeCode k s).state := by
  rcases decodeCode_cases h hm k with ⟨_, _, he⟩ | ⟨_, _, he⟩ | ⟨cur, v, hv, he⟩ <;> rw [he]
  · exact .same ⟨rfl, rfl⟩
  · exact .check ⟨rfl, rfl⟩
  · exact hv.tableChange.after
      (Eff.rel_andThen (R := State.SameTable) .trans (outSeq_sameTable cur v) fun _ _ _ => ⟨rfl, rfl⟩)

/-- Every command but a START. Only `ENC.BYTE` and `DEC.BYTE` change the table (40_dictionary.md R100). -/
theorem exec_tableChange {i : Instr} {s t : State} (h : s.Inv) (hi : startMode i = none) (he : exec i s = .next t) :
    TableChange s t := by
  rcases exec_cases i s with ⟨m, hs, _⟩ | ⟨_, h'⟩ | ⟨c, rfl, hm⟩ | ⟨rfl, hm⟩ | ⟨b, rfl, hm⟩ | ⟨rfl, hm⟩ | ⟨k, rfl, hm⟩ |
    ⟨rfl, hm⟩ | ⟨b, rfl, hm⟩ | ⟨rfl, hm⟩
  · simp [hi] at hs
  · rw [h'] at he; cases he; exact .same ⟨rfl, rfl⟩
  · rw [exec_encByte hm] at he; cases he; exact encWalk_tableChange h hm c
  · rw [exec_encEnd hm] at he; cases he
    exact .same (encEnd_rel (R := State.SameTable) .refl .trans (fun _ _ => ⟨rfl, rfl⟩) (fun _ _ => ⟨rfl, rfl⟩)
      (fun _ _ => ⟨rfl, rfl⟩) (fun _ => ⟨rfl, rfl⟩) (fun _ _ => ⟨rfl, rfl⟩) (fun _ => ⟨rfl, rfl⟩) s)
  · cases hu : unpackCode b s with
    | none => rw [exec_decByte_none hm hu] at he; cases he; exact .same (unpackNext_sameTable b s)
    | some k =>
      rw [exec_decByte_some hm hu] at he; cases he
      exact .before (unpackNext_sameTable b s) (decodeCode_tableChange (h.unpackNext b) (by simpa using hm) k)
  · rw [exec_decEnd hm] at he; cases he
    exact .same (unpackEnd_finish_rel (R := State.SameTable) .refl .trans (fun _ _ => ⟨rfl, rfl⟩) (fun _ => ⟨rfl, rfl⟩) s)
  · rw [exec_pkCode hm] at he; cases he; exact .same (pack_sameTable k s)
  · rw [exec_pkFlush hm] at he; cases he
    exact .same (flush_finish_rel (R := State.SameTable) .refl .trans (fun _ _ => ⟨rfl, rfl⟩) (fun _ _ => ⟨rfl, rfl⟩)
      (fun _ _ => ⟨rfl, rfl⟩) (fun _ => ⟨rfl, rfl⟩) (fun _ => ⟨rfl, rfl⟩) s)
  · cases hu : unpackCode b s with
    | none => rw [exec_upByte_none hm hu] at he; cases he; exact .same (unpackNext_sameTable b s)
    | some k =>
      rw [exec_upByte_some hm hu] at he; cases he
      exact .same ((unpackNext_sameTable b s).trans (outCode_rel (R := State.SameTable) .trans (fun _ _ => ⟨rfl, rfl⟩)
        (fun _ _ => ⟨rfl, rfl⟩) (fun _ _ => ⟨rfl, rfl⟩) k _))
  · rw [exec_upEnd hm] at he; cases he
    exact .same (unpackEnd_finish_rel (R := State.SameTable) .refl .trans (fun _ _ => ⟨rfl, rfl⟩) (fun _ => ⟨rfl, rfl⟩) s)

/-- A step that takes a START builds the base table; every other step is a `TableChange`. -/
theorem step_tableChange {s t : State} (h : s.Inv) (he : step s = .next t) :
    TableChange s t ∨
    ((∃ w rest i m, s.pending = .command w :: rest ∧ decode w = .ok i ∧ startMode i = some m) ∧
      t.dict = Dict.base ∧ t.nextCode = 256) := by
  rcases step_cases s with ⟨_, h'⟩ | ⟨rest, _, h'⟩ | ⟨w, rest, e, _, _, h'⟩ | ⟨w, rest, i, hp, hd, h'⟩ <;> rw [h'] at he
  · cases he; exact .inl (.same (.refl s))
  · cases he
    rcases ioFail_cases { s with pending := rest } with ⟨_, hf⟩ | ⟨_, hf⟩ <;> rw [hf] <;> exact .inl (.same ⟨rfl, rfl⟩)
  · cases he; exact .inl (.same ⟨rfl, rfl⟩)
  · cases hi : startMode i with
    | some m =>
      rw [exec_start hi] at he; cases he
      exact .inr ⟨⟨w, rest, i, m, hp, hd, hi⟩, rfl, rfl⟩
    | none =>
      have hinv : ({ s with pending := rest } : State).Inv := h.of_eq rfl rfl (.inl rfl) rfl rfl rfl rfl rfl rfl rfl
      exact .inl (.before (s' := { s with pending := rest }) ⟨rfl, rfl⟩ (exec_tableChange hinv hi he))

/-! ### What the changes say of the entries -/

/-- The ceiling check and one insertion, below the ceiling: the entry at `nextCode` is the only one written. -/
theorem insertNext_room {s : State} (hr : s.nextCode.toNat < 4096) (w : Symbol) :
    (s.insertNext w).nextCode.toNat = s.nextCode.toNat + 1 ∧
      ∀ k, k ≠ s.nextCode.toNat → (s.insertNext w).dict.read k = s.dict.read k := by
  rcases dictCeilingCheck_cases s with ⟨_, he⟩ | ⟨hn, _⟩
  · rw [State.insertNext, he]
    exact ⟨State.dictAppend_nextCode_toNat hr w _, fun k hk => Dict.read_write_other _ w hk⟩
  · omega

/-- The ceiling check and one insertion, at the ceiling: the base table and the entry at 256. -/
theorem insertNext_full {s : State} (hn : s.nextCode.toNat = 4096) (w : Symbol) :
    (s.insertNext w).nextCode.toNat = 257 ∧
      ∀ k, k ≠ 256 → (s.insertNext w).dict.read k = if k < 256 then some [BitVec.ofNat 8 k] else none := by
  rcases dictCeilingCheck_cases s with ⟨hne, _⟩ | ⟨_, he⟩
  · exact absurd hn hne
  · rw [State.insertNext, he]
    exact ⟨rfl, fun k hk => (Dict.read_write_other Dict.base w hk).trans (Dict.read_base k)⟩

/-- Settles O24: the step is a START or a `TableChange`, and each change is read off below the ceiling and at it. -/
theorem entriesChangeOnlyByResetOrOneInsertion : Obligations.EntriesChangeOnlyByResetOrOneInsertion := by
  intro s t h he
  rcases step_tableChange h he with (hsame | ⟨hd, hn⟩ | ⟨w, hd, hn⟩) | ⟨hstart, hd, hn⟩
  case inl.same => exact .inl hsame
  case inl.check =>
    rcases dictCeilingCheck_cases s with ⟨_, hc⟩ | ⟨hfull, hc⟩ <;> rw [hc] at hd hn
    · exact .inl ⟨hd, hn⟩
    · exact .inr (.inr (.inl ⟨.inl hfull, by rw [hn]; rfl, fun k => by rw [hd]; exact Dict.read_base k⟩))
  case inl.insert =>
    rw [hd, hn]
    rcases h.range.2.lt_or_eq with hroom | hfull
    · exact .inr (.inl ⟨hroom, insertNext_room hroom w⟩)
    · exact .inr (.inr (.inr ⟨hfull, insertNext_full hfull w⟩))
  case inr => exact .inr (.inr (.inl ⟨.inr hstart, by rw [hn]; rfl, fun k => by rw [hd]; exact Dict.read_base k⟩))

/-- Settles O19: the table written is `Dict.base`, whose entries `Dict.read_base` gives. -/
theorem dictResetBuildsTheBaseTable : Obligations.DictResetBuildsTheBaseTable :=
  fun _ => ⟨rfl, Dict.read_base, rfl, rfl⟩

end Sys2Proof.Machine
end

section
/-!
PROOFS. The packer and the unpacker driven one command at a time: what staging a code, writing a unit, flushing a tail,
taking a byte and ending a stream do, and that they do nothing else (spec/41_packer.md R132 to R139, R142 to R146).
-/
namespace Sys2Proof.Machine

/-! ### The packer -/

/-- Settles O28: `Pack(k)` at even parity is `packFirst`, whose two bytes hold the fields of `k`. -/
theorem pkCodeStagesTheFirstCode : Obligations.PkCodeStagesTheFirstCode := by
  intro k s heven
  have hpack : pack k s = .ok () (s.packFirst k) := pack_even heven k
  refine ⟨s.packFirst k, fun hm => ?_, hpack, firstByte0_toNat k, firstByte1_toNat k, rfl, rfl⟩
  rw [exec_pkCode hm, hpack, Eff.state_ok]

/-- Settles O29: `Pack(k)` at odd parity writes `State.unit k`; the staged low nibble is 0, so the OR that completes byte1
adds (I7). -/
theorem pkCodeWritesTheUnit : Obligations.PkCodeWritesTheUnit := by
  intro k s hodd hlow ha
  have hpack : pack k s = .ok () ((s.sinkSkip 3).emit (s.unit k)).packerInit := pack_odd hodd k ha
  refine ⟨_, secondByte1 s.pkStage1 k, secondByte2 k, fun hm => ?_, hpack, secondByte1_toNat hlow k, secondByte2_toNat k, rfl⟩
  rw [exec_pkCode hm, hpack, Eff.state_ok]

/-- A flush that completes ends the stream (41_packer.md R143). -/
theorem exec_pkFlush_of_flush {s t : State} (hm : s.mode = .pk) (hf : flush s = .ok () t) :
    exec .pkFlush s = .next t.finishStream := by
  rw [exec_pkFlush hm, hf, Eff.andThen_ok, Eff.state_ok]

/-- Settles O30: the flush depends on the parity alone. -/
theorem pkFlushWritesTheTail : Obligations.PkFlushWritesTheTail := by
  intro s ha
  cases hp : s.pkOdd with
  | false =>
    have hflush : flush s = .ok () s := flush_even hp
    exact ⟨s, fun hm => exec_pkFlush_of_flush hm hflush, hflush, rfl⟩
  | true =>
    have hflush : flush s = .ok () ((s.sinkSkip 2).emit [s.pkStage0, s.pkStage1]).packerInit := flush_odd hp (ha hp)
    exact ⟨_, fun hm => exec_pkFlush_of_flush hm hflush, hflush, rfl⟩

/-! ### The unpacker -/

theorem unpack_zero {s : State} (h : s.upFill = .zero) (b : Byte) :
    unpack b s = (none, { s with upHold0 := b, upFill := .one }) := by
  simp only [unpack, unpackCode, State.unpackNext, h]

theorem unpack_one {s : State} (h : s.upFill = .one) (b : Byte) :
    unpack b s = (some (firstCode s.upHold0 b), { s with upHold1 := b, upFill := .two }) := by
  simp only [unpack, unpackCode, State.unpackNext, h]

theorem unpack_two {s : State} (h : s.upFill = .two) (b : Byte) :
    unpack b s = (some (secondCode s.upHold1 b), s.unpackerInit) := by
  simp only [unpack, unpackCode, State.unpackNext, h]

/-- A byte that completes no code leaves `UP.BYTE` with the unpacker's registers alone (41_packer.md R145). -/
theorem exec_upByte_of_unpack_none {s t : State} {b : Byte} (hu : unpack b s = (none, t)) (hm : s.mode = .up) :
    exec (.upByte b) s = .next t := by
  obtain ⟨hcode, rfl⟩ := Prod.mk.inj hu
  exact exec_upByte_none hm hcode

/-- A code that a byte completes is appended to `outCodes` when the sink accepts it (41_packer.md R145). -/
theorem exec_upByte_of_unpack_some {s t : State} {b : Byte} {k : Code} (hu : unpack b s = (some k, t)) (hm : s.mode = .up)
    (ha : s.SinkAccepts 1) :
    exec (.upByte b) s = .next { t.sinkSkip 1 with outCodes := s.outCodes ++ [k] } := by
  obtain ⟨hcode, rfl⟩ := Prod.mk.inj hu
  have haccept : (s.unpackNext b).sinkAnswerAt 0 = true :=
    ha.congr (State.unpackNext_sinkAnswers b s) (State.unpackNext_sinkDraws b s) 0 Nat.one_pos
  rw [exec_upByte_some hm hcode, outCode_accepted haccept, Eff.state_ok, ← State.unpackNext_outCodes b s]
  rfl

/-- Settles O32: `Unpack(b)` at each fill, and `UP.BYTE b` through it. -/
theorem upByteDeliversTheCodes : Obligations.UpByteDeliversTheCodes := by
  intro b s
  refine ⟨fun hf => ?zero, fun hf => ?one, fun hf => ?two⟩
  case zero =>
    have hu := unpack_zero hf b
    exact ⟨_, rfl, hu, exec_upByte_of_unpack_none hu⟩
  case one =>
    have hu := unpack_one hf b
    exact ⟨_, _, firstCode_toNat s.upHold0 b, rfl, hu, exec_upByte_of_unpack_some hu⟩
  case two =>
    have hu := unpack_two hf b
    exact ⟨_, _, secondCode_toNat s.upHold1 b, rfl, hu, exec_upByte_of_unpack_some hu⟩

/-! ### The end of a stream -/


/-- Both commands that end an unpacked stream do it through `UnpackEnd()` (41_packer.md R146, 43_decoder.md R198). -/
theorem exec_end_eq_unpackEnd {i : Instr} {s : State} (h : (i = .upEnd ∧ s.mode = .up) ∨ (i = .decEnd ∧ s.mode = .dec)) :
    exec i s = .next ((unpackEnd s).andThen fun _ t => .ok () t.finishStream).state := by
  rcases h with ⟨rfl, hm⟩ | ⟨rfl, hm⟩
  · exact exec_upEnd hm
  · exact exec_decEnd hm

/-- Settles O33: the two outcomes of `unpackEnd_cases`, which the statement's condition tells apart. -/
theorem endCommandsCheckTheLastUnit : Obligations.EndCommandsCheckTheLastUnit := by
  intro s
  rcases unpackEnd_cases s with ⟨hend, hu⟩ | ⟨hbad, hu⟩
  · simp only [if_pos hend]
    refine ⟨hu, fun i hi => ?_⟩
    rw [exec_end_eq_unpackEnd hi, hu]
    rfl
  · have hend : ¬ (s.upFill = .zero ∨ (s.upFill = .two ∧ s.upHold1.toNat % 16 = 0)) := by
      rcases hbad with hone | ⟨htwo, hpad⟩
      · simp [hone]
      · simp [htwo, hpad]
    simp only [if_neg hend]
    refine ⟨hu, fun i hi => ?_⟩
    rw [exec_end_eq_unpackEnd hi, hu]
    rfl

end Sys2Proof.Machine
end

section
/-!
PROOFS. MalformedStream is raised in the four cases of spec/60_exceptions.md R222 and in no other.
-/
namespace Sys2Proof.Machine

/-! ### The cases of R222 -/

/-- R222 (a) and (b): the stream ends inside a unit, after one byte or after a tail whose padding is not zero. -/
def State.BrokenTail (s : State) : Prop := s.upFill = .one ∨ (s.upFill = .two ∧ s.upHold1.toNat % 16 ≠ 0)

/-- R222 (c) and (d): a first code that is not a base code, or a later code above `nextCode` after the ceiling check. -/
def State.Underivable (k : Code) (s : State) : Prop :=
  (s.decHavePrior = false ∧ 256 ≤ k.toNat) ∨ (s.decHavePrior = true ∧ (dictCeilingCheck s).nextCode.toNat < k.toNat)

/-- The four cases, for a command and the state it is issued in. -/
def MalformedCase (i : Instr) (s : State) : Prop :=
  (((i = .upEnd ∧ s.mode = .up) ∨ (i = .decEnd ∧ s.mode = .dec)) ∧ s.BrokenTail) ∨
    ∃ b k, i = .decByte b ∧ s.mode = .dec ∧ unpackCode b s = some k ∧ s.Underivable k

/-- Each case is that of an accepted command other than a START. -/
theorem MalformedCase.accepted {i : Instr} {s : State} (h : MalformedCase i s) :
    startMode i = none ∧ accepts i s.mode = true := by
  rcases h with ⟨⟨rfl, hm⟩ | ⟨rfl, hm⟩, -⟩ | ⟨b, k, rfl, hm, -⟩ <;> simp [startMode, accepts, hm]

/-- The unpacker's registers do not decide whether a code is derivable. -/
theorem State.underivable_unpackNext (b : Byte) (k : Code) (s : State) :
    (s.unpackNext b).Underivable k ↔ s.Underivable k := by
  simp [State.Underivable, dictCeilingCheck_unpackNext]

/-! ### The parts that never raise MalformedStream -/

theorem notMalformed_outCode (k : Code) (s : State) : NotMalformed s (outCode k s) := by
  cases ha : s.sinkAnswerAt 0
  · rw [outCode_failed ha]; exact .inl rfl
  · rw [outCode_accepted ha]; exact State.emitCode_fault _ _

theorem notMalformed_encLast (s : State) : NotMalformed s (encLast s) := by
  unfold encLast
  split
  · exact rfl
  · exact notMalformed_pack _ s

/-- `PK.FLUSH`, from any state. -/
theorem notMalformed_flush_finish (s : State) : NotMalformed s ((flush s).andThen fun _ t => .ok () t.finishStream) :=
  (notMalformed_flush s).andThen fun _ _ => rfl

/-- `ENC.END`, from any state. -/
theorem notMalformed_encEnd (s : State) :
    NotMalformed s ((encLast s).andThen fun _ t => (flush t).andThen fun _ u => .ok () u.finishStream) :=
  (notMalformed_encLast s).andThen fun _ t => notMalformed_flush_finish t

theorem notMalformed_decodeInsert (new : Option Symbol) (s : State) : NotMalformed s (decodeInsert new s) := by
  cases new with
  | none => exact rfl
  | some w => exact notMalformed_insert w s.nextCode s

/-! ### The parts that do -/

theorem unpackEnd_malformed_iff {s : State} (hf : s.fault = .none) :
    ((unpackEnd s).andThen fun _ t => .ok () t.finishStream).state.fault = .malformedStream ↔ s.BrokenTail := by
  rcases unpackEnd_cases s with ⟨hend, hu⟩ | ⟨hbad, hu⟩ <;> rw [hu]
  · refine iff_of_false (by simp [hf]) ?_
    rcases hend with hzero | ⟨htwo, hpad⟩
    · simp [State.BrokenTail, hzero]
    · simp [State.BrokenTail, htwo, hpad]
  · exact iff_of_true rfl hbad

/-- Past the checks of a code, its insertion and its output raise no MalformedStream. -/
theorem decodeCode_malformed_iff {s : State} (hf : s.fault = .none) (k : Code) :
    (decodeCode k s).state.fault = .malformedStream ↔ s.Underivable k := by
  obtain ⟨u, hu, ⟨hbad, hd⟩ | ⟨hgood, hd⟩⟩ := decodeSymbols_any k s
  · rw [decodeCode, hd]
    exact iff_of_true rfl hbad
  · have huf : u.fault = .none := by
      rcases hu with ⟨-, rfl⟩ | ⟨-, rfl⟩ <;> simp [hf]
    refine iff_of_false ?_ hgood
    rcases hd with ⟨d, hd⟩ | hd <;> rw [decodeCode, hd]
    · exact NotMalformed.not ((notMalformed_decodeInsert d.new u).andThen fun _ v =>
        (notMalformed_outSeq d.cur v).andThen fun _ _ => rfl) huf
    · simp

/-! ### The commands -/

theorem exec_malformed_iff {i : Instr} {s t : State} (hf : s.fault = .none) (he : exec i s = .next t) :
    t.fault = .malformedStream ↔ MalformedCase i s := by
  rcases exec_cases i s with ⟨m, hs, h⟩ | ⟨ha, h⟩ | ⟨c, rfl, hm⟩ | ⟨rfl, hm⟩ | ⟨b, rfl, hm⟩ | ⟨rfl, hm⟩ | ⟨k, rfl, hm⟩ |
    ⟨rfl, hm⟩ | ⟨b, rfl, hm⟩ | ⟨rfl, hm⟩
  · rw [h] at he; cases he
    exact iff_of_false (by simp) fun hc => by simp [hc.accepted.1] at hs
  · rw [h] at he; cases he
    exact iff_of_false (by simp [hf]) fun hc => by simp [hc.accepted.2] at ha
  · rw [exec_encByte hm] at he; cases he
    exact iff_of_false ((notMalformed_enc c s).not hf) (by simp [MalformedCase])
  · rw [exec_encEnd hm] at he; cases he
    exact iff_of_false ((notMalformed_encEnd s).not hf) (by simp [MalformedCase])
  · cases hu : unpackCode b s with
    | none =>
      rw [exec_decByte_none hm hu] at he; cases he
      exact iff_of_false (by simp [hf]) (by simp [MalformedCase, hu])
    | some k =>
      rw [exec_decByte_some hm hu] at he; cases he
      rw [decodeCode_malformed_iff (by simp [hf]), State.underivable_unpackNext]
      simp [MalformedCase, hm, hu]
  · rw [exec_decEnd hm] at he; cases he
    rw [unpackEnd_malformed_iff hf]
    simp [MalformedCase, hm]
  · rw [exec_pkCode hm] at he; cases he
    exact iff_of_false ((notMalformed_pack k s).not hf) (by simp [MalformedCase])
  · rw [exec_pkFlush hm] at he; cases he
    exact iff_of_false ((notMalformed_flush_finish s).not hf) (by simp [MalformedCase])
  · refine iff_of_false ?_ (by simp [MalformedCase])
    cases hu : unpackCode b s with
    | none => rw [exec_upByte_none hm hu] at he; cases he; simp [hf]
    | some k => rw [exec_upByte_some hm hu] at he; cases he; exact (notMalformed_outCode k _).not (by simp [hf])
  · rw [exec_upEnd hm] at he; cases he
    rw [unpackEnd_malformed_iff hf]
    simp [MalformedCase, hm]

/-- Settles O49: command by command, the end commands through `UnpackEnd()` and `DEC.BYTE` through the checks of its code. -/
theorem malformedStreamExactlyInFourCases : Obligations.MalformedStreamExactlyInFourCases :=
  fun _ _ _ hf he => exec_malformed_iff hf he

end Sys2Proof.Machine
end

section
/-!
PROOFS. A failed sink write ends the step there, and the outputs it leaves are prefixes of those of a step whose writes are
accepted (spec/60_exceptions.md R227).
-/
namespace Sys2Proof.Machine

/-- A byte sequence is cut at its first failed write. -/
theorem outSeq_failed {w : List Byte} {s : State} {m : Nat} (hm : m < w.length) (ha : s.SinkAccepts m)
    (hf : s.sinkAnswerAt m = false) :
    outSeq w s = .raised (((s.sinkSkip (m + 1)).emit (w.take m)).raise .ioFailure) := by
  rcases outSeq_cases w s with ⟨hall, -⟩ | ⟨n, -, hn, hnf, he⟩
  · exact absurd (hall m hm) (by simp [hf])
  · have hle : m ≤ n := not_lt.1 fun hlt => by simp [ha n hlt] at hnf
    have hge : n ≤ m := not_lt.1 fun hlt => by simp [hn m hlt] at hf
    rw [he, le_antisymm hge hle]

theorem outCode_eq (k : Code) (s : State) : outCode k s =
    if s.sinkAnswerAt 0 = true then .ok () ((s.sinkSkip 1).emitCode k) else .raised ((s.sinkSkip 1).raise .ioFailure) := by
  cases ha : s.sinkAnswerAt 0
  · exact outCode_failed ha
  · exact outCode_accepted ha

/-- Unless the second part raises IOFailure, the first leaves prefixes of what it leaves. -/
theorem Eff.Behind.outputsIn {α : Type} {e e' : Eff α} (h : e.Behind e') (hf : e'.state.fault ≠ .ioFailure) :
    e.state.OutputsIn e'.state := by
  rcases h with ⟨u, rfl, hu⟩ | ⟨a, d, rfl⟩ | ⟨t, rfl, hout⟩
  · exact absurd hu hf
  · rw [mapState_state]; exact ⟨List.prefix_rfl, List.prefix_rfl⟩
  · exact hout

theorem unpackEnd_finish_behind (s : State) (a : List Bool) (d : Nat) :
    ((unpackEnd s).andThen fun _ t => .ok () t.finishStream).Behind
      ((unpackEnd (s.withSink a d)).andThen fun _ t => .ok () t.finishStream) := by
  rw [unpackEnd_withSink, andThen_map _ (fun _ t => Eff.ok () t.finishStream) _ _ fun _ _ => rfl]
  exact .of_map

theorem flush_finish_behind (s : State) (a : List Bool) (d : Nat) :
    ((flush s).andThen fun _ t => .ok () t.finishStream).Behind
      ((flush (s.withSink a d)).andThen fun _ t => .ok () t.finishStream) :=
  (flush_behind s a d).andThen (fun _ _ _ _ => .of_map) fun _ _ => ⟨List.prefix_rfl, List.prefix_rfl⟩

/-- A byte that completes no code. -/
theorem unpackNext_behind (b : Byte) (s : State) (a : List Bool) (d : Nat) :
    (Eff.ok () (s.unpackNext b)).Behind (.ok () ((s.withSink a d).unpackNext b)) := by
  rw [unpackNext_withSink]
  exact .of_map

/-- Every command under two sets of sink answers is a pair of parts, the first behind the second. -/
theorem exec_behind (i : Instr) (s : State) (a : List Bool) (d : Nat) :
    ∃ e e' : Eff Unit, exec i s = .next e.state ∧ exec i (s.withSink a d) = .next e'.state ∧ e.Behind e' := by
  rcases exec_cases i s with ⟨m, hs, h⟩ | ⟨ha, h⟩ | ⟨c, rfl, hm⟩ | ⟨rfl, hm⟩ | ⟨b, rfl, hm⟩ | ⟨rfl, hm⟩ | ⟨k, rfl, hm⟩ |
    ⟨rfl, hm⟩ | ⟨b, rfl, hm⟩ | ⟨rfl, hm⟩
  · exact ⟨.ok () (streamStart m s), .ok () _, h, exec_start hs (s.withSink a d), .of_map⟩
  · exact ⟨.ok () s.refuse, .ok () _, h, exec_not_accepted (s := s.withSink a d) ha, .of_map⟩
  · exact ⟨_, _, exec_encByte hm c, exec_encByte (s := s.withSink a d) hm c, encWalk_behind c s a d⟩
  · exact ⟨_, _, exec_encEnd hm, exec_encEnd (s := s.withSink a d) hm, encEnd_behind s a d⟩
  · cases hu : unpackCode b s with
    | none =>
      exact ⟨.ok () _, .ok () _, exec_decByte_none hm hu, exec_decByte_none (s := s.withSink a d) hm hu,
        unpackNext_behind b s a d⟩
    | some k =>
      refine ⟨_, _, exec_decByte_some hm hu, exec_decByte_some (s := s.withSink a d) hm hu, ?_⟩
      rw [unpackNext_withSink]
      exact decodeCode_behind k _ a d
  · exact ⟨_, _, exec_decEnd hm, exec_decEnd (s := s.withSink a d) hm, unpackEnd_finish_behind s a d⟩
  · exact ⟨_, _, exec_pkCode hm k, exec_pkCode (s := s.withSink a d) hm k, pack_behind k s a d⟩
  · exact ⟨_, _, exec_pkFlush hm, exec_pkFlush (s := s.withSink a d) hm, flush_finish_behind s a d⟩
  · cases hu : unpackCode b s with
    | none =>
      exact ⟨.ok () _, .ok () _, exec_upByte_none hm hu, exec_upByte_none (s := s.withSink a d) hm hu,
        unpackNext_behind b s a d⟩
    | some k =>
      refine ⟨_, _, exec_upByte_some hm hu, exec_upByte_some (s := s.withSink a d) hm hu, ?_⟩
      rw [unpackNext_withSink]
      exact outCode_behind k _ a d
  · exact ⟨_, _, exec_upEnd hm, exec_upEnd (s := s.withSink a d) hm, unpackEnd_finish_behind s a d⟩

/-- Settles O51: the two writes as they are, and every command as a pair of parts, one behind the other. -/
theorem sinkFailureLeavesAPrefix : Obligations.SinkFailureLeavesAPrefix := by
  refine ⟨fun w s => ⟨outSeq_accepted, fun m => outSeq_failed⟩, outCode_eq, ?command⟩
  case command =>
    intro i s t v answers draws ht hv hf
    obtain ⟨e, e', he, he', hbehind⟩ := exec_behind i s answers draws
    obtain rfl : e.state = t := by simpa [he] using ht
    obtain rfl : e'.state = v := Host.Outcome.next.inj (he'.symm.trans hv)
    exact hbehind.outputsIn hf

end Sys2Proof.Machine
end

section
/-!
PROOFS. The event `io_fail`, and what the block accepts in FAULT (spec/60_exceptions.md R226, R228).
-/
namespace Sys2Proof.Machine

theorem Mode.inFlight_iff (m : Mode) : m.inFlight = true ↔ m = .enc ∨ m = .dec ∨ m = .pk ∨ m = .up := by
  simp [Mode.inFlight, or_assoc]

/-- Settles O9: the two outcomes of `ioFail_cases`, told apart by `Mode.inFlight`. -/
theorem ioFailRaisesOnlyInAStream : Obligations.IoFailRaisesOnlyInAStream := by
  intro s
  rcases ioFail_cases s with ⟨hm, he⟩ | ⟨hm, he⟩
  · rw [he, if_pos ((Mode.inFlight_iff _).1 hm)]
    rfl
  · rw [he, if_neg fun h => by simp [(Mode.inFlight_iff _).2 h] at hm]

/-- Only a START is accepted in FAULT (30_encoding.md R81). -/
theorem accepts_fault_of_startMode_none {i : Instr} (h : startMode i = none) : accepts i .fault = false := by
  cases i <;> simp [startMode] at h <;> rfl

/-- Settles O14: a START opens its stream from any mode, and every other command is refused in FAULT. -/
theorem faultIsStickyUntilAStart : Obligations.FaultIsStickyUntilAStart := by
  intro s hm
  refine ⟨fun i m hi => ⟨_, exec_start hi s, rfl, rfl, rfl, rfl, rfl⟩, fun i hi => ?refused, ?ioFail⟩
  case refused => exact exec_not_accepted (by rw [hm]; exact accepts_fault_of_startMode_none hi)
  case ioFail => rw [ioFail, hm]

end Sys2Proof.Machine
end

section
/-!
PROOFS. A stream's outcome does not depend on earlier streams: two runs from one START keep a relation under which every
output and STATUS agree (spec/70_reset_and_hazards.md R252).
-/
namespace Sys2Proof.Machine

/-! ### The relation between the two runs -/

/-- Two states that no stream tells apart: they differ in the refusal mark and in the registers a START leaves as they are,
and in the latter only while they are dead, `encSCode` while `encS` is empty and `decPriorSym` while there is no prior
code (10_state.md R42; log 6). -/
def State.Alike (s u : State) : Prop :=
  ∃ r c kk p, u = patch r c kk p s ∧ (s.encS ≠ [] → c = s.encSCode) ∧ (s.decHavePrior = true → p = s.decPriorSym)

section Alike

variable {s u : State}

theorem State.Alike.mode (h : s.Alike u) : u.mode = s.mode := by obtain ⟨r, c, kk, p, rfl, -⟩ := h; rfl
theorem State.Alike.fault (h : s.Alike u) : u.fault = s.fault := by obtain ⟨r, c, kk, p, rfl, -⟩ := h; rfl
theorem State.Alike.nextCode (h : s.Alike u) : u.nextCode = s.nextCode := by obtain ⟨r, c, kk, p, rfl, -⟩ := h; rfl
theorem State.Alike.encS (h : s.Alike u) : u.encS = s.encS := by obtain ⟨r, c, kk, p, rfl, -⟩ := h; rfl
theorem State.Alike.outBytes (h : s.Alike u) : u.outBytes = s.outBytes := by obtain ⟨r, c, kk, p, rfl, -⟩ := h; rfl
theorem State.Alike.outCodes (h : s.Alike u) : u.outCodes = s.outCodes := by obtain ⟨r, c, kk, p, rfl, -⟩ := h; rfl
theorem State.Alike.status (h : s.Alike u) : u.status = s.status := by obtain ⟨r, c, kk, p, rfl, -⟩ := h; rfl
theorem State.Alike.pending (h : s.Alike u) : u.pending = s.pending := by obtain ⟨r, c, kk, p, rfl, -⟩ := h; rfl
theorem State.Alike.sinkAnswers (h : s.Alike u) : u.sinkAnswers = s.sinkAnswers := by
  obtain ⟨r, c, kk, p, rfl, -⟩ := h; rfl
theorem State.Alike.sinkDraws (h : s.Alike u) : u.sinkDraws = s.sinkDraws := by obtain ⟨r, c, kk, p, rfl, -⟩ := h; rfl
theorem State.Alike.unpackCode (h : s.Alike u) (b : Byte) : unpackCode b u = unpackCode b s := by
  obtain ⟨r, c, kk, p, rfl, -⟩ := h; rfl

/-- While `encS` is not empty its code is live. -/
theorem State.Alike.encSCode (h : s.Alike u) (he : s.encS ≠ []) : u.encSCode = s.encSCode := by
  obtain ⟨r, c, kk, p, rfl, hc, -⟩ := h
  exact hc he

/-- The registers that the relation speaks of. -/
def State.SameHeld (s t : State) : Prop :=
  t.encS = s.encS ∧ t.encSCode = s.encSCode ∧ t.decHavePrior = s.decHavePrior ∧ t.decPriorSym = s.decPriorSym

theorem State.SameHeld.refl (s : State) : s.SameHeld s := ⟨rfl, rfl, rfl, rfl⟩

theorem State.SameHeld.trans {s t v : State} (h : s.SameHeld t) (h' : t.SameHeld v) : s.SameHeld v := by
  obtain ⟨he, hc, hv, hp⟩ := h
  obtain ⟨he', hc', hv', hp'⟩ := h'
  exact ⟨he'.trans he, hc'.trans hc, hv'.trans hv, hp'.trans hp⟩

/-- An update that commutes with every `patch` and leaves those registers keeps two states alike. -/
theorem State.Alike.map (h : s.Alike u) {f : State → State} (hf : ∀ r c kk p s, f (patch r c kk p s) = patch r c kk p (f s))
    (hheld : s.SameHeld (f s)) : (f s).Alike (f u) := by
  obtain ⟨r, c, kk, p, rfl, hc, hp⟩ := h
  obtain ⟨he, hec, hv, hps⟩ := hheld
  exact ⟨r, c, kk, p, hf r c kk p s, by rwa [he, hec], by rwa [hv, hps]⟩

theorem State.Alike.raise (h : s.Alike u) (f : FaultCode) : (s.raise f).Alike (u.raise f) :=
  h.map (fun _ _ _ _ _ => rfl) (.refl s)

theorem State.Alike.refuse (h : s.Alike u) : s.refuse.Alike u.refuse := by
  obtain ⟨r, c, kk, p, rfl, hcond⟩ := h
  exact ⟨true, c, kk, p, rfl, hcond⟩

theorem State.Alike.finishStream (h : s.Alike u) : s.finishStream.Alike u.finishStream :=
  h.map (fun _ _ _ _ _ => rfl) (.refl s)

theorem State.Alike.withPending (h : s.Alike u) (es : List HostEvent) :
    ({ s with pending := es } : State).Alike { u with pending := es } :=
  h.map (f := fun s => { s with pending := es }) (fun _ _ _ _ _ => rfl) (.refl s)

theorem State.Alike.unpackNext (h : s.Alike u) (b : Byte) : (s.unpackNext b).Alike (u.unpackNext b) :=
  h.map (fun r c kk p s => unpackNext_patch r c kk p b s) (by simp [State.SameHeld])

theorem State.Alike.dictCeilingCheck (h : s.Alike u) : (dictCeilingCheck s).Alike (dictCeilingCheck u) :=
  h.map ceil_patch (by simp [State.SameHeld])

/-- `encS` is written together with its code, so what `encSCode` held before is gone. -/
theorem State.Alike.setPrefix (h : s.Alike u) (w : List Byte) (k : Code) : (s.setPrefix w k).Alike (u.setPrefix w k) := by
  obtain ⟨r, c, kk, p, rfl, -, hp⟩ := h
  exact ⟨r, k, kk, p, rfl, fun _ => rfl, hp⟩

/-- A START writes every register but those the relation lets differ (70_reset_and_hazards.md R251). -/
theorem streamStart_alike (m : Mode) (hq : u.pending = s.pending) (ha : u.sinkAnswers = s.sinkAnswers)
    (hd : u.sinkDraws = s.sinkDraws) : (streamStart m s).Alike (streamStart m u) := by
  refine ⟨u.refused, u.encSCode, u.decPriorCode, u.decPriorSym, ?_, fun he => absurd rfl he, fun hv => by simp at hv⟩
  exact State.eq_of_fields rfl rfl rfl rfl rfl rfl rfl rfl rfl rfl rfl rfl rfl rfl rfl rfl rfl rfl hq ha hd

/-! ### The parts of a step -/

/-- Two parts that end the same way, with the same result, in states that are alike. -/
inductive Eff.Alike {α : Type} : Eff α → Eff α → Prop
  /-- both ran to their end -/
  | ok (a : α) {t v : State} (h : t.Alike v) : Eff.Alike (.ok a t) (.ok a v)
  /-- both raised -/
  | raised {t v : State} (h : t.Alike v) : Eff.Alike (.raised t) (.raised v)

theorem Eff.Alike.state {α : Type} {e e' : Eff α} (h : e.Alike e') : e.state.Alike e'.state := by
  cases h with
  | ok a h => exact h
  | raised h => exact h

theorem Eff.Alike.andThen {α β : Type} {e e' : Eff α} {f g : α → State → Eff β} (h : e.Alike e')
    (hfg : ∀ a t v, e = .ok a t → t.Alike v → (f a t).Alike (g a v)) : (e.andThen f).Alike (e'.andThen g) := by
  cases h with
  | ok a h => exact hfg a _ _ rfl h
  | raised h => exact .raised h

/-- A part that commutes with every `patch` and leaves the registers of the relation. -/
theorem State.Alike.part (h : s.Alike u) {α : Type} {e : State → Eff α}
    (he : ∀ r c kk p s, e (patch r c kk p s) = Eff.mapState (patch r c kk p) (e s))
    (hheld : s.SameHeld (e s).state) : (e s).Alike (e u) := by
  obtain ⟨r, c, kk, p, rfl, hc, hp⟩ := h
  obtain ⟨hes, hec, hv, hps⟩ := hheld
  have halike : (e s).state.Alike (patch r c kk p (e s).state) := ⟨r, c, kk, p, rfl, by rwa [hes, hec], by rwa [hv, hps]⟩
  rw [he]
  cases hr : e s with
  | ok a t => rw [hr] at halike; exact .ok a halike
  | raised t => rw [hr] at halike; exact .raised halike

theorem State.Alike.pack (h : s.Alike u) (k : Code) : (pack k s).Alike (pack k u) :=
  h.part (fun r c kk p s => pack_patch r c kk p k s) (by simp [State.SameHeld])

theorem State.Alike.flush (h : s.Alike u) : (flush s).Alike (flush u) :=
  h.part flush_patch (by simp [State.SameHeld])

theorem State.Alike.outCode (h : s.Alike u) (k : Code) : (outCode k s).Alike (outCode k u) :=
  h.part (fun r c kk p s => outCode_patch r c kk p k s)
    (outCode_rel (R := State.SameHeld) .trans (fun _ => .refl) (fun _ => .refl) (fun _ => .refl) k s)

theorem State.Alike.unpackEnd (h : s.Alike u) : (unpackEnd s).Alike (unpackEnd u) :=
  h.part unpackEnd_patch (unpackEnd_rel (R := State.SameHeld) .refl (fun _ => .refl) s)

theorem State.Alike.dictLookupSym (h : s.Alike u) (w : Symbol) : (dictLookupSym w s).Alike (dictLookupSym w u) := by
  refine h.part (fun r c kk p s => lookup_patch r c kk p w s) ?_
  rcases dictLookupSym_any w s with ⟨r, hr⟩ | hr <;> rw [hr] <;> exact .refl s

theorem State.Alike.dictInsert (h : s.Alike u) (w : Symbol) (k : BitVec 13) : (dictInsert w k s).Alike (dictInsert w k u) :=
  h.part (fun r c kk p s => insert_patch r c kk p w k s)
    (dictInsert_rel (R := State.SameHeld) (fun _ => .refl) (fun _ _ => .refl) w k s)

/-! ### The commands -/

/-- With `encS` not empty, the mismatch branch packs a code that both states share. -/
theorem State.Alike.encMismatch (h : s.Alike u) (he : s.encS ≠ []) (b : Byte) (w : Symbol) :
    (encMismatch b w s).Alike (encMismatch b w u) := by
  unfold Machine.encMismatch
  rw [h.encSCode he]
  refine (h.pack s.encSCode).andThen fun _ t v _ ht => ?_
  have hc := ht.dictCeilingCheck
  simp only [hc.nextCode]
  exact (hc.dictInsert w _).andThen fun _ _ _ _ hi => .ok () (hi.setPrefix [b] (codeOfByte b))

/-- The base table holds every one-byte symbol, so a failed lookup means that `encS` was not empty
(42_encoder.md R162 (a)). -/
theorem encS_ne_nil_of_lookup_none (hi : s.Inv) {b : Byte} {t : State}
    (hl : Machine.dictLookupSym (s.encS ++ [b]) s = .ok none t) : s.encS ≠ [] := by
  intro he
  have hb : s.dict.read b.toNat = some [b] := by simpa using hi.base b.toNat b.isLt
  rw [he, List.nil_append, dictLookupSym_found hi hb fun _ hj => hi.read_single hj] at hl
  cases hl

theorem State.Alike.encWalk (h : s.Alike u) (hi : s.Inv) (b : Byte) : (encWalk b s).Alike (encWalk b u) := by
  unfold Machine.encWalk
  simp only [h.encS]
  refine (h.dictLookupSym (s.encS ++ [b])).andThen fun r t v hl ht => ?_
  cases r with
  | some k => exact .ok () (ht.setPrefix _ k)
  | none =>
    have hts : t = s := by
      rcases dictLookupSym_any (s.encS ++ [b]) s with ⟨r, hr⟩ | hr <;> rw [hr] at hl <;> cases hl
      rfl
    subst hts
    exact ht.encMismatch (encS_ne_nil_of_lookup_none hi hl) b _

theorem State.Alike.encLast (h : s.Alike u) : (encLast s).Alike (encLast u) := by
  unfold Machine.encLast
  rw [h.encS]
  split
  · exact .ok () h
  · rename_i he
    rw [h.encSCode he]
    exact h.pack _

theorem State.Alike.flush_finish (h : s.Alike u) :
    ((Machine.flush s).andThen fun _ t => .ok () t.finishStream).Alike
      ((Machine.flush u).andThen fun _ t => .ok () t.finishStream) :=
  h.flush.andThen fun _ _ _ _ ht => .ok () ht.finishStream

theorem State.Alike.unpackEnd_finish (h : s.Alike u) :
    ((Machine.unpackEnd s).andThen fun _ t => .ok () t.finishStream).Alike
      ((Machine.unpackEnd u).andThen fun _ t => .ok () t.finishStream) :=
  h.unpackEnd.andThen fun _ _ _ _ ht => .ok () ht.finishStream

/-- Decoding a code, in any state: `DecodeCode` reads the prior symbol only when there is one. -/
theorem State.Alike.decodeCode (h : s.Alike u) (k : Code) : (decodeCode k s).state.Alike (decodeCode k u).state := by
  obtain ⟨r, c, kk, p, rfl, hc, hp⟩ := h
  obtain ⟨kk', p', hu, hp'⟩ := decodeCode_patch r c kk p k s hp
  obtain ⟨hes, hec⟩ : (Machine.decodeCode k s).state.encS = s.encS ∧
      (Machine.decodeCode k s).state.encSCode = s.encSCode :=
    decodeCode_rel (R := fun s t => t.encS = s.encS ∧ t.encSCode = s.encSCode) (fun _ => ⟨rfl, rfl⟩)
      (fun h h' => ⟨h'.1.trans h.1, h'.2.trans h.2⟩) (fun _ _ => ⟨rfl, rfl⟩) (fun _ _ => ⟨rfl, rfl⟩)
      (fun _ _ => ⟨rfl, rfl⟩) (fun _ => ⟨rfl, rfl⟩) (fun _ _ _ => ⟨rfl, rfl⟩) (fun _ _ _ => ⟨rfl, rfl⟩) k s
  exact ⟨r, c, kk', p', hu, by rwa [hes, hec], hp'⟩

/-- Every command has next states that are alike. -/
theorem State.Alike.exec (h : s.Alike u) (hi : s.Inv) (i : Instr) :
    ∃ t v, exec i s = .next t ∧ exec i u = .next v ∧ t.Alike v := by
  have hmode := h.mode
  rcases exec_cases i s with ⟨m, hs, he⟩ | ⟨ha, he⟩ | ⟨b, rfl, hm⟩ | ⟨rfl, hm⟩ | ⟨b, rfl, hm⟩ | ⟨rfl, hm⟩ | ⟨k, rfl, hm⟩ |
    ⟨rfl, hm⟩ | ⟨b, rfl, hm⟩ | ⟨rfl, hm⟩
  · exact ⟨_, _, he, exec_start hs u, streamStart_alike m h.pending h.sinkAnswers h.sinkDraws⟩
  · exact ⟨_, _, he, exec_not_accepted (by rwa [hmode]), h.refuse⟩
  · exact ⟨_, _, exec_encByte hm b, exec_encByte (hmode.trans hm) b, (h.encWalk hi b).state⟩
  · exact ⟨_, _, exec_encEnd hm, exec_encEnd (hmode.trans hm),
      (h.encLast.andThen fun _ _ _ _ ht => ht.flush_finish).state⟩
  · have hu := h.unpackCode b
    cases hk : Machine.unpackCode b s with
    | none =>
      exact ⟨_, _, exec_decByte_none hm hk, exec_decByte_none (hmode.trans hm) (hu.trans hk), h.unpackNext b⟩
    | some k =>
      exact ⟨_, _, exec_decByte_some hm hk, exec_decByte_some (hmode.trans hm) (hu.trans hk),
        (h.unpackNext b).decodeCode k⟩
  · exact ⟨_, _, exec_decEnd hm, exec_decEnd (hmode.trans hm), h.unpackEnd_finish.state⟩
  · exact ⟨_, _, exec_pkCode hm k, exec_pkCode (hmode.trans hm) k, (h.pack k).state⟩
  · exact ⟨_, _, exec_pkFlush hm, exec_pkFlush (hmode.trans hm), h.flush_finish.state⟩
  · have hu := h.unpackCode b
    cases hk : Machine.unpackCode b s with
    | none => exact ⟨_, _, exec_upByte_none hm hk, exec_upByte_none (hmode.trans hm) (hu.trans hk), h.unpackNext b⟩
    | some k =>
      exact ⟨_, _, exec_upByte_some hm hk, exec_upByte_some (hmode.trans hm) (hu.trans hk),
        ((h.unpackNext b).outCode k).state⟩
  · exact ⟨_, _, exec_upEnd hm, exec_upEnd (hmode.trans hm), h.unpackEnd_finish.state⟩

theorem State.Alike.ioFail (h : s.Alike u) : (ioFail s).Alike (ioFail u) := by
  unfold Machine.ioFail
  rw [h.mode]
  cases s.mode with
  | idle | done | fault => exact h
  | enc | dec | pk | up => exact h.raise .ioFailure

/-! ### Steps and runs -/

theorem State.Inv.withPending (hi : s.Inv) (es : List HostEvent) : ({ s with pending := es } : State).Inv :=
  hi.of_eq rfl rfl (.inl rfl) rfl rfl rfl rfl rfl rfl rfl

theorem State.Inv.ioFail (hi : s.Inv) : (ioFail s).Inv := by
  rcases ioFail_cases s with ⟨-, he⟩ | ⟨-, he⟩ <;> rw [he]
  · exact hi.raise _
  · exact hi

/-- One step keeps the relation, and the invariants that the encoder's part of it needs. -/
theorem State.Alike.step (h : s.Alike u) (hi : s.Inv) :
    ∃ t v, step s = .next t ∧ step u = .next v ∧ t.Inv ∧ t.Alike v := by
  have hq := h.pending
  rcases step_cases s with ⟨hp, he⟩ | ⟨rest, hp, he⟩ | ⟨w, rest, e, hp, hd, he⟩ | ⟨w, rest, i, hp, hd, he⟩
  · exact ⟨_, _, he, step_empty (hq.trans hp), hi, h⟩
  · exact ⟨_, _, he, step_ioFail (hq.trans hp), (hi.withPending rest).ioFail, (h.withPending rest).ioFail⟩
  · exact ⟨_, _, he, step_badWord (hq.trans hp) hd, (hi.withPending rest).refuse, (h.withPending rest).refuse⟩
  · obtain ⟨t, v, ht, hv, htv⟩ := (h.withPending rest).exec (hi.withPending rest) i
    exact ⟨t, v, he.trans ht, (step_command (hq.trans hp) hd).trans hv, exec_inv (hi.withPending rest) ht, htv⟩

theorem State.Alike.run (h : s.Alike u) (hi : s.Inv) (n : Nat) :
    ∃ t v, run n s = .next t ∧ run n u = .next v ∧ t.Alike v := by
  induction n generalizing s u with
  | zero => exact ⟨s, u, rfl, rfl, h⟩
  | succ n ih =>
    obtain ⟨s', u', hs, hu, hi', h'⟩ := h.step hi
    rw [run_next hs, run_next hu]
    exact ih h' hi'

end Alike

/-- Settles O57: the START makes the two states alike, whatever they were, and the run over the events after it keeps them
so. -/
theorem streamOutcomeIgnoresEarlierStreams : Obligations.StreamOutcomeIgnoresEarlierStreams := by
  intro i m es s u hi hs hu ha hd
  have halike : (streamStart m { s with pending := es }).Alike (streamStart m { u with pending := es }) :=
    streamStart_alike m rfl ha hd
  obtain ⟨s', u', hs', hu', h⟩ := halike.run (streamStart_inv m _) es.length
  exact ⟨s', u', (run_command hs (decode_encode i) (exec_start hi _) _).trans hs',
    (run_command (hu.trans hs) (decode_encode i) (exec_start hi _) _).trans hu',
    h.outBytes, h.outCodes, h.mode, h.fault, h.status⟩

end Sys2Proof.Machine
end

section
/-!
PROOFS. The command word: decoding and encoding are inverse to each other, and the legal words are the words of the twelve
commands (spec/30_encoding.md R80 to R87).
-/
namespace Sys2Proof

/-- Settles O1: the decoder reads back every encoded command. -/
theorem decodeOfEncodeIsIdentity : Obligations.DecodeOfEncodeIsIdentity := decode_encode

/-! ### What decodes is encoded by its word -/

theorem decodeBare_eq_ok {i j : Instr} {w : CmdWord} : decodeBare i w = .ok j ↔ argField w = 0 ∧ i = j := by
  rw [decodeBare]
  split
  next h => exact ⟨fun hj => ⟨h, Except.ok.inj hj⟩, fun ⟨_, hj⟩ => congrArg _ hj⟩
  next h => exact iff_of_false (fun hj => by cases hj) fun ⟨h0, _⟩ => h h0

theorem decodeByteOp_eq_ok {mk : Byte → Instr} {j : Instr} {w : CmdWord} :
    decodeByteOp mk w = .ok j ↔ argHigh (argField w) = 0 ∧ mk (argByte (argField w)) = j := by
  rw [decodeByteOp]
  split
  next h => exact ⟨fun hj => ⟨h, Except.ok.inj hj⟩, fun ⟨_, hj⟩ => congrArg _ hj⟩
  next h => exact iff_of_false (fun hj => by cases hj) fun ⟨h0, _⟩ => h h0

/-- An ARG whose high bits are 0 is its low byte, zero-extended (30_encoding.md R82). -/
theorem argByte_zeroExtend_of_argHigh {a : BitVec 12} (h : argHigh a = 0) : (argByte a).zeroExtend 12 = a := by
  have hhigh : a.toNat / 256 = 0 := by rw [← argHigh_toNat, h]; rfl
  apply BitVec.eq_of_toNat_eq
  rw [BitVec.toNat_setWidth, argByte_toNat]
  omega

/-- The command a word decodes to has the word's two fields as its opcode and its ARG (30_encoding.md R81, R82). -/
theorem fields_of_decode {w : CmdWord} {i : Instr} (h : decode w = .ok i) :
    i.opcode = opField w ∧ i.arg = argField w := by
  have hop : ∀ {n : Nat}, (opField w).toNat = n → BitVec.ofNat 4 n = opField w := by
    rintro n rfl
    simp
  unfold decode at h
  split at h
  case h_1 ho | h_8 ho | h_10 ho | h_12 ho => cases h; exact ⟨hop ho, rfl⟩
  case h_3 ho | h_6 ho | h_14 ho =>
    obtain ⟨harg, rfl⟩ := decodeByteOp_eq_ok.1 h
    exact ⟨hop ho, argByte_zeroExtend_of_argHigh harg⟩
  case h_16 =>
    cases h
    have hlt := (opField w).isLt
    have h15 : (opField w).toNat = 15 := by simp only [imp_false] at *; omega
    exact ⟨hop h15, rfl⟩
  all_goals
    rename_i ho
    obtain ⟨harg, rfl⟩ := decodeBare_eq_ok.1 h
    exact ⟨hop ho, harg.symm⟩

/-- Settles O2: the two fields of a word are the whole of it. -/
theorem encodeOfDecodeIsTheWord : Obligations.EncodeOfDecodeIsTheWord := by
  intro w i h
  obtain ⟨hop, harg⟩ := fields_of_decode h
  apply BitVec.eq_of_toNat_eq
  rw [encode_toNat, hop, harg, opField_toNat, argField_toNat]
  omega

/-! ### The legal words -/

theorem legalWord_iff (w : CmdWord) : Machine.legalWord w = true ↔
    w.toNat / 4096 = 0x9 ∨ w.toNat / 256 = 0x20 ∨ w.toNat / 256 = 0x50 ∨ w.toNat / 256 = 0xD0 ∨
      w.toNat ∈ [0x1000, 0x3000, 0x4000, 0x6000, 0x8000, 0xA000, 0xC000, 0xE000] := by
  simp only [Machine.legalWord, Bool.or_eq_true, decide_eq_true_eq, List.contains_iff_mem, or_assoc]

/-- The word of a command is legal by its bits (30_encoding.md R85). -/
theorem legalWord_encode {i : Instr} (h : i.wellFormed = true) : Machine.legalWord (encode i) = true := by
  cases i with
  | encStart | encEnd | decStart | decEnd | pkStart | pkFlush | upStart | upEnd => decide
  | encByte c | decByte c | upByte c =>
    have hc := c.isLt
    rw [legalWord_iff, encode_toNat]
    simp only [Instr.opcode, Instr.arg, BitVec.toNat_setWidth, BitVec.ofNat_eq_ofNat, BitVec.toNat_ofNat]
    omega
  | pkCode k =>
    have hk := k.isLt
    rw [legalWord_iff, encode_toNat]
    simp only [Instr.opcode, Instr.arg, BitVec.ofNat_eq_ofNat, BitVec.toNat_ofNat]
    omega
  | reserved0 arg | reserved7 arg | reservedB arg | reservedF arg => cases h

/-- A word is the word of `i` when its number is (30_encoding.md R87). -/
theorem eq_encode {w : CmdWord} {i : Instr} (h : w.toNat = i.opcode.toNat * 4096 + i.arg.toNat) : w = encode i :=
  BitVec.eq_of_toNat_eq (h.trans (encode_toNat i).symm)

/-- A word with `ARG[11:8]` zero is the word of the command with its low byte as operand (30_encoding.md R82). -/
theorem eq_encode_byte {w : CmdWord} {i : Instr} {op : Nat} (hw : w.toNat / 256 = op * 16) (hop : i.opcode.toNat = op)
    (harg : i.arg = (BitVec.ofNat 8 w.toNat).zeroExtend 12) : w = encode i := by
  refine eq_encode ?_
  rw [hop, harg, BitVec.toNat_setWidth, BitVec.toNat_ofNat]
  omega

/-- A word that is legal by its bits is the word of a command (30_encoding.md R85). -/
theorem exists_encode_of_legalWord {w : CmdWord} (h : Machine.legalWord w = true) :
    ∃ i : Instr, i.wellFormed = true ∧ w = encode i := by
  rcases (legalWord_iff w).1 h with hw | hw | hw | hw | hw
  · refine ⟨.pkCode (argField w), rfl, eq_encode ?_⟩
    simp only [Instr.opcode, Instr.arg, argField_toNat, BitVec.ofNat_eq_ofNat, BitVec.toNat_ofNat]
    omega
  · exact ⟨.encByte (BitVec.ofNat 8 w.toNat), rfl, eq_encode_byte hw rfl rfl⟩
  · exact ⟨.decByte (BitVec.ofNat 8 w.toNat), rfl, eq_encode_byte hw rfl rfl⟩
  · exact ⟨.upByte (BitVec.ofNat 8 w.toNat), rfl, eq_encode_byte hw rfl rfl⟩
  · simp only [List.mem_cons, List.not_mem_nil, or_false] at hw
    rcases hw with hw | hw | hw | hw | hw | hw | hw | hw
    · exact ⟨.encStart, rfl, eq_encode hw⟩
    · exact ⟨.encEnd, rfl, eq_encode hw⟩
    · exact ⟨.decStart, rfl, eq_encode hw⟩
    · exact ⟨.decEnd, rfl, eq_encode hw⟩
    · exact ⟨.pkStart, rfl, eq_encode hw⟩
    · exact ⟨.pkFlush, rfl, eq_encode hw⟩
    · exact ⟨.upStart, rfl, eq_encode hw⟩
    · exact ⟨.upEnd, rfl, eq_encode hw⟩

/-- Settles O3: both sides say that the word is `encode` of a command. -/
theorem legalWordsAreTheCommandWords : Obligations.LegalWordsAreTheCommandWords := by
  intro w
  constructor
  · intro h
    obtain ⟨i, hi, rfl⟩ := exists_encode_of_legalWord h
    exact ⟨i, decode_encode i, hi⟩
  · rintro ⟨i, hd, hi⟩
    rw [← encodeOfDecodeIsTheWord w i hd]
    exact legalWord_encode hi

/-- Settles O4: the seven words, decoded. -/
theorem specWordsDecode : Obligations.SpecWordsDecode :=
  ⟨rfl, rfl, rfl, rfl, rfl, rfl, rfl⟩

end Sys2Proof
end

section
/-!
PROOFS. The assembler makes only legal command words (spec/30_encoding.md R85, R86, R90).
-/
namespace Sys2Proof.Machine

/-- Each element of a `mapM` that succeeds is what `f` answers at an element of the list. -/
theorem mem_of_mapM_eq_some {α β : Type} {f : α → Option β} {l : List α} {r : List β} (h : l.mapM f = some r) {b : β}
    (hb : b ∈ r) : ∃ a ∈ l, f a = some b := by
  induction l generalizing r with
  | nil =>
    rw [List.mapM_nil] at h
    cases h
    cases hb
  | cons a l ih =>
    rw [List.mapM_cons] at h
    obtain ⟨c, hc, h⟩ := Option.bind_eq_some_iff.1 h
    obtain ⟨t, ht, h⟩ := Option.bind_eq_some_iff.1 h
    cases h
    rcases List.mem_cons.1 hb with rfl | hb
    · exact ⟨a, List.mem_cons_self, hc⟩
    · obtain ⟨a', ha', hf⟩ := ih ht hb
      exact ⟨a', List.mem_cons_of_mem a ha', hf⟩

/-! ### One line -/

/-- The opcodes of the commands with an operand of a form (30_encoding.md R81). -/
def OperandForm.opcodes : OperandForm → List (BitVec 4)
  | .bare => [0x1, 0x3, 0x4, 0x6, 0x8, 0xA, 0xC, 0xE]
  | .byte => [0x2, 0x5, 0xD]
  | .code => [0x9]

theorem opcode_mem_opcodes : ∀ r ∈ mnemonicTable, r.2.1 ∈ r.2.2.opcodes := by decide

theorem operandValue_le {f : OperandForm} {t : List Char} {v : Nat} (h : operandValue f t = some v) :
    v ≤ operandMax f := by
  unfold operandValue at h
  simpa using (Option.filter_eq_some_iff.1 h).2

theorem legalWord_bare : ∀ op ∈ OperandForm.bare.opcodes, legalWord (BitVec.ofNat 16 (op.toNat * 4096)) = true := by
  decide

theorem legalWord_byte {op : BitVec 4} (hop : op ∈ OperandForm.byte.opcodes) {v : Nat} (hv : v ≤ 255) :
    legalWord (BitVec.ofNat 16 (op.toNat * 4096 + v)) = true := by
  rw [legalWord_iff, BitVec.toNat_ofNat]
  simp only [OperandForm.opcodes, List.mem_cons, List.not_mem_nil, or_false] at hop
  rcases hop with rfl | rfl | rfl <;> simp only [BitVec.ofNat_eq_ofNat, BitVec.toNat_ofNat] <;> omega

theorem legalWord_code {op : BitVec 4} (hop : op ∈ OperandForm.code.opcodes) {v : Nat} (hv : v ≤ 4095) :
    legalWord (BitVec.ofNat 16 (op.toNat * 4096 + v)) = true := by
  rw [legalWord_iff, BitVec.toNat_ofNat]
  obtain rfl : op = 0x9 := by simpa [OperandForm.opcodes] using hop
  simp only [BitVec.ofNat_eq_ofNat, BitVec.toNat_ofNat]
  omega

theorem legalWord_of_commandWord {op : BitVec 4} {f : OperandForm} {operand : List Char} {w : CmdWord}
    (hop : op ∈ f.opcodes) (h : commandWord op f operand = some w) : legalWord w = true := by
  cases f with
  | bare =>
    simp only [commandWord, Option.ite_none_right_eq_some, Option.some.injEq] at h
    obtain ⟨-, rfl⟩ := h
    exact legalWord_bare op hop
  | byte =>
    obtain ⟨v, hv, rfl⟩ := Option.map_eq_some_iff.1 h
    exact legalWord_byte hop (operandValue_le hv)
  | code =>
    obtain ⟨v, hv, rfl⟩ := Option.map_eq_some_iff.1 h
    exact legalWord_code hop (operandValue_le hv)

theorem legalWord_of_assembleLine {line : List Char} {w : CmdWord} (h : assembleLine line = .word w) :
    legalWord w = true := by
  unfold assembleLine at h
  split at h
  split at h
  · cases h
  split at h
  · cases h
  next op f hrow =>
    split at h
    next hw =>
      cases h
      exact legalWord_of_commandWord (opcode_mem_opcodes _ (List.mem_of_find?_eq_some hrow)) hw
    · cases h

/-- The words of a START, one command per operand, and an end command. -/
theorem legalWord_of_mem_program {α : Type} {start fin : Instr} {f : α → Instr} {as : List α} {w : CmdWord}
    (hs : start.wellFormed = true) (hfin : fin.wellFormed = true) (hf : ∀ a, (f a).wellFormed = true)
    (hw : w ∈ encode start :: (as.map (fun a => encode (f a)) ++ [encode fin])) : legalWord w = true := by
  simp only [List.mem_cons, List.mem_append, List.mem_map, List.not_mem_nil, or_false] at hw
  rcases hw with rfl | ⟨a, -, rfl⟩ | rfl
  · exact legalWord_encode hs
  · exact legalWord_encode (hf a)
  · exact legalWord_encode hfin

theorem legalWord_of_expandLine {line : List Char} {ws : List CmdWord} (h : expandLine line = some ws) {w : CmdWord}
    (hw : w ∈ ws) : legalWord w = true := by
  unfold expandLine at h
  split at h
  split at h
  · obtain ⟨x, -, rfl⟩ := Option.map_eq_some_iff.1 h
    exact legalWord_of_mem_program rfl rfl (fun _ => rfl) hw
  split at h
  · obtain ⟨y, -, rfl⟩ := Option.map_eq_some_iff.1 h
    exact legalWord_of_mem_program rfl rfl (fun _ => rfl) hw
  split at h
  · obtain ⟨ks, -, rfl⟩ := Option.map_eq_some_iff.1 h
    exact legalWord_of_mem_program rfl rfl (fun _ => rfl) hw
  split at h
  · obtain ⟨y, -, rfl⟩ := Option.map_eq_some_iff.1 h
    exact legalWord_of_mem_program rfl rfl (fun _ => rfl) hw
  · cases h

theorem legalWord_of_lineWords {line : List Char} {ws : List CmdWord} (h : lineWords line = some ws) {w : CmdWord}
    (hw : w ∈ ws) : legalWord w = true := by
  unfold lineWords at h
  split at h
  next he =>
    cases h
    exact legalWord_of_expandLine he hw
  next =>
    split at h
    next => cases h; cases hw
    next hl =>
      cases h
      obtain rfl := List.mem_singleton.1 hw
      exact legalWord_of_assembleLine hl
    next => cases h

/-- Settles O7: a word of the source is a word of one of its lines. -/
theorem assembledWordsAreLegal : Obligations.AssembledWordsAreLegal := by
  intro source ws h w hw
  obtain ⟨lines, hlines, rfl⟩ := Option.map_eq_some_iff.1 h
  obtain ⟨line, hline, hmem⟩ := List.mem_flatten.1 hw
  obtain ⟨_, -, hwords⟩ := mem_of_mapM_eq_some hlines hline
  exact legalWord_of_lineWords hwords hmem

end Sys2Proof.Machine
end

section
/-!
PROOFS. The step and its outcomes: which command runs, what is refused, and that the refusal mark stays
(spec/30_encoding.md R80 to R85, R91; spec/60_exceptions.md R220, R235, R240).
-/
namespace Sys2Proof.Machine

/-! ### Refusal -/

/-- A term that is no command is refused in every mode (30_encoding.md R83). -/
theorem exec_of_not_wellFormed {i : Instr} (h : i.wellFormed = false) (s : State) : exec i s = .next s.refuse := by
  cases i with
  | reserved0 arg | reserved7 arg | reservedB arg | reservedF arg => rfl
  | _ => cases h

/-- A command leaves the refusal mark as it was or sets it (10_state.md R23). -/
theorem exec_refused_of_accepts {i : Instr} {s t : State} (ha : accepts i s.mode = true) (he : exec i s = .next t) :
    t.refused = s.refused := by
  cases hs : startMode i with
  | some m => rw [exec_start hs] at he; cases he; rfl
  | none =>
    exact exec_rel (R := fun s t => t.refused = s.refused) (fun _ => rfl) (fun h h' => h'.trans h) (fun _ _ => rfl)
      (fun _ _ => rfl) (fun _ _ => rfl) (fun _ => rfl) (fun _ _ => rfl) (fun _ => rfl) (fun _ _ _ => rfl)
      (fun _ _ _ => rfl) (fun _ _ _ => rfl) (fun _ => rfl) (fun _ _ => rfl) (fun b s => State.unpackNext_refused b s)
      hs ha he

theorem exec_keeps_refused {i : Instr} {s t : State} (he : exec i s = .next t) (hr : s.refused = true) :
    t.refused = true := by
  by_cases ha : accepts i s.mode = true
  · rw [exec_refused_of_accepts ha he, hr]
  · rw [exec_not_accepted (Bool.eq_false_iff.2 ha)] at he
    cases he
    rfl

theorem ioFail_refused (s : State) : (ioFail s).refused = s.refused := by
  rcases ioFail_cases s with ⟨-, h⟩ | ⟨-, h⟩ <;> rw [h]
  rfl

/-- Settles O12: a command that is not accepted is refused, and the parts of an accepted one leave the mark alone. -/
theorem acceptanceTableDecidesRefusal : Obligations.AcceptanceTableDecidesRefusal := by
  intro i s
  refine ⟨exec_not_accepted, fun ha => ?_⟩
  obtain ⟨t, ht⟩ := exec_next i s
  exact ⟨t, ht, exec_refused_of_accepts ha ht⟩

/-- Settles O13: no event clears the mark. -/
theorem refusalMarkIsNeverCleared : Obligations.RefusalMarkIsNeverCleared := by
  intro s t he hr
  rcases step_cases s with ⟨-, h⟩ | ⟨rest, -, h⟩ | ⟨w, rest, e, -, -, h⟩ | ⟨w, rest, i, -, -, h⟩ <;> rw [h] at he
  · cases he; exact hr
  · cases he; exact (ioFail_refused _).trans hr
  · cases he; rfl
  · exact exec_keeps_refused he hr

/-- Settles O6: each is refused by its arm of `exec`. -/
theorem reservedOpcodesAreRefused : Obligations.ReservedOpcodesAreRefused :=
  fun _ s => ⟨exec_of_not_wellFormed rfl s, exec_of_not_wellFormed rfl s, exec_of_not_wellFormed rfl s,
    exec_of_not_wellFormed rfl s⟩

/-- Settles O5: an illegal word decodes to no term or to a reserved opcode, and either is refused. -/
theorem illegalWordOnlySetsTheRefusalMark : Obligations.IllegalWordOnlySetsTheRefusalMark := by
  intro s w rest hp hw
  cases hd : decode w with
  | error e => exact step_badWord hp hd
  | ok i =>
    have hi : i.wellFormed = false := Bool.eq_false_iff.2 fun h =>
      Bool.eq_false_iff.1 hw ((legalWordsAreTheCommandWords w).2 ⟨i, hd, h⟩)
    exact (step_command hp hd).trans (exec_of_not_wellFormed hi _)

/-! ### The step -/

/-- Settles O8: the step of a queued word or of `io_fail`, and `exec` keeps the queue. -/
theorem stepRunsTheDecodedCommand : Obligations.StepRunsTheDecodedCommand :=
  ⟨fun _ _ _ _ hp hd => ⟨step_command hp hd, fun _ => exec_pending⟩, fun _ _ => step_ioFail⟩

/-- Settles O10: the step with an empty queue. -/
theorem stepWithoutEventHoldsTheState : Obligations.StepWithoutEventHoldsTheState := fun _ => step_empty

/-- Settles O11: each kind of step has a next state, and so has every command. -/
theorem everyStepHasANextState : Obligations.EveryStepHasANextState := by
  intro s
  rcases step_cases s with ⟨-, h⟩ | ⟨rest, -, h⟩ | ⟨w, rest, e, -, -, h⟩ | ⟨w, rest, i, -, -, h⟩ <;> rw [h]
  · exact ⟨_, rfl⟩
  · exact ⟨_, rfl⟩
  · exact ⟨_, rfl⟩
  · exact exec_next i _

end Sys2Proof.Machine
end

section
/-!
PROOFS. Power-on, START and STATUS (spec/10_state.md R40 to R42; spec/70_reset_and_hazards.md R250, R251).
-/
namespace Sys2Proof.Machine

/-- Only a START is accepted in IDLE (30_encoding.md R81). -/
theorem accepts_idle_of_startMode_none {i : Instr} (h : startMode i = none) : accepts i .idle = false := by
  cases i with
  | encStart | decStart | pkStart | upStart => cases h
  | _ => rfl

/-- Settles O15: the fields by definition; a START opens its stream, and nothing else is accepted in IDLE. -/
theorem powerOnState : Obligations.PowerOnState := by
  refine ⟨rfl, rfl, rfl, rfl, rfl, rfl, fun i => ?_⟩
  cases hi : startMode i with
  | some m => exact ⟨_, exec_start hi _, rfl⟩
  | none => exact exec_not_accepted (accepts_idle_of_startMode_none hi)

/-- Settles O16: every START is `streamStart`, read field by field. -/
theorem startCommandsOpenAFreshStream : Obligations.StartCommandsOpenAFreshStream := by
  intro i m s hi
  exact ⟨_, exec_start hi s, rfl, rfl, rfl, rfl, Dict.read_base, rfl, rfl, rfl, rfl, rfl, rfl, rfl, rfl, rfl, rfl, rfl,
    rfl, rfl, rfl, rfl, rfl⟩

/-! ### STATUS -/

theorem toNat_append_eq_add {m n : Nat} (x : BitVec m) (y : BitVec n) : (x ++ y).toNat = x.toNat * 2 ^ n + y.toNat := by
  rw [BitVec.toNat_append, ← Nat.shiftLeft_add_eq_or_of_lt y.isLt, Nat.shiftLeft_eq]

/-- The fields of STATUS outside IDLE at their positions (10_state.md R40). -/
theorem status_toNat {s : State} (hm : s.mode ≠ .idle) :
    s.status.toNat = s.nextCode.toNat * 2 ^ 9 + s.decHavePrior.toNat * 2 ^ 8 + (fillBits s.upFill).toNat * 2 ^ 6 +
      s.pkOdd.toNat * 2 ^ 5 + (faultBits s.fault).toNat * 2 ^ 3 + (modeBits s.mode).toNat := by
  rw [State.status, if_neg hm]
  simp only [toNat_append_eq_add, BitVec.toNat_ofBool, BitVec.toNat_ofNat]
  omega

/-- Settles O18: STATUS is the sum of its fields at their positions, and each is within its width. -/
theorem statusShowsTheFieldsOutsideIdle : Obligations.StatusShowsTheFieldsOutsideIdle := by
  intro s
  by_cases hm : s.mode = .idle
  · rw [if_pos hm, State.status, if_pos hm]
  · rw [if_neg hm, status_toNat hm]
    have hnext := s.nextCode.isLt
    have hprior := s.decHavePrior.toNat_lt
    have hfill := (fillBits s.upFill).isLt
    have hodd := s.pkOdd.toNat_lt
    have hfault := (faultBits s.fault).isLt
    have hmode := (modeBits s.mode).isLt
    omega

theorem startMode_ne_idle {i : Instr} {m : Mode} (h : startMode i = some m) : m ≠ .idle := by
  rintro rfl
  cases i <;> cases h

/-- Settles O17: after a START `nextCode` is 256 and the other fields of STATUS but the mode are 0. -/
theorem statusAfterStart : Obligations.StatusAfterStart := by
  intro i m s t hi he
  rw [exec_start hi] at he
  cases he
  rw [status_toNat (s := streamStart m s) (startMode_ne_idle hi)]
  simp [fillBits, faultBits]

end Sys2Proof.Machine
end

section
/-!
PROOFS. The dictionary operations one at a time, from any state with a table in canonical form
(spec/40_dictionary.md R103, R104, R107, R108).
-/
namespace Sys2Proof.Machine

/-- Settles O20: the two outcomes of `dictCeilingCheck_cases`. -/
theorem ceilingCheckResetsOnlyAFullTable : Obligations.CeilingCheckResetsOnlyAFullTable := by
  intro s
  rcases dictCeilingCheck_cases s with ⟨hn, he⟩ | ⟨hn, he⟩
  · exact ⟨fun h => absurd h hn, fun _ => he⟩
  · exact ⟨fun _ => he, fun h => absurd hn h⟩

/-- Settles O23: the three branches of `DictLookupCode`. -/
theorem dictLookupCodeReadsBelowNextCode : Obligations.DictLookupCodeReadsBelowNextCode := by
  intro k s
  refine ⟨fun hk => ?violation, fun hk hlt => ?present, fun hk hle => ?absent⟩
  case violation => exact if_pos hk
  case present => rw [dictLookupCode, if_neg (by omega), if_pos hlt]
  case absent => rw [dictLookupCode, if_neg (by omega), if_neg (by omega)]

/-- Two codes for one symbol are a violation, whatever else the table holds (40_dictionary.md R107). -/
theorem dictLookupSym_twice {s : State} (hd : s.dict.wf = true) {w : Symbol} {j k : Nat} (hne : j ≠ k)
    (hj : j < s.nextCode.toNat ∧ s.dict.read j = some w) (hk : k < s.nextCode.toNat ∧ s.dict.read k = some w) :
    dictLookupSym w s = .raised (s.raise .protocolInvariant) := by
  have hjmem := (Dict.mem_codesOf hd).2 hj
  have hkmem := (Dict.mem_codesOf hd).2 hk
  unfold dictLookupSym
  split
  next hc => simp [hc] at hjmem
  next i hc =>
    rw [hc, List.mem_singleton] at hjmem hkmem
    exact absurd (hjmem.trans hkmem.symm) hne
  next => rfl

/-- Settles O22: the codes found are none, one, or more. -/
theorem dictLookupSymIsByContent : Obligations.DictLookupSymIsByContent := by
  intro w s hd
  refine ⟨fun hnone => ?none, fun k hlt hr huniq => ?one, fun j k hjk hlt hj hk => ?two⟩
  case none => rw [dictLookupSym, (Dict.codesOf_eq_nil hd).2 hnone]
  case one =>
    rw [dictLookupSym, (Dict.codesOf_eq_singleton hd).2 ⟨⟨hlt, hr⟩, huniq⟩]
    simp
  case two => exact dictLookupSym_twice hd hjk.ne ⟨hjk.trans hlt, hj⟩ ⟨hlt, hk⟩

/-- A symbol the table holds is found, or found twice; never answered with `none` (40_dictionary.md R107). -/
theorem dictLookupSym_held {s : State} (hd : s.dict.wf = true) {w : Symbol} {j : Nat}
    (hj : j < s.nextCode.toNat ∧ s.dict.read j = some w) :
    (∃ k, dictLookupSym w s = .ok (some k) s) ∨ dictLookupSym w s = .raised (s.raise .protocolInvariant) := by
  rcases dictLookupSym_any w s with ⟨_ | k, h⟩ | h
  · have hmem := (Dict.mem_codesOf hd).2 hj
    unfold dictLookupSym at h
    split at h
    next hc => simp [hc] at hmem
    all_goals cases h
  · exact .inl ⟨k, h⟩
  · exact .inr h

/-- The check of `DictInsert` that is made in ENC mode only (40_dictionary.md R104). -/
theorem dictInsert_held {s : State} (hd : s.dict.wf = true) {w : Symbol} (hm : s.mode = .enc) {j : Nat}
    (hj : j < s.nextCode.toNat ∧ s.dict.read j = some w) (k : BitVec 13) :
    dictInsert w k s = .raised (s.raise .protocolInvariant) := by
  rw [dictInsert, if_pos hm]
  rcases dictLookupSym_held hd hj with ⟨i, hl⟩ | hl <;> rw [hl] <;> exact ite_self _

/-- With both checks passed, `DictInsert` writes (40_dictionary.md R104). -/
theorem dictInsert_appends {s : State} (hd : s.dict.wf = true) {w : Symbol} (hroom : s.nextCode.toNat < 4096)
    (hw : s.mode = .enc → ∀ j, j < s.nextCode.toNat → s.dict.read j ≠ some w) :
    dictInsert w s.nextCode s = .ok () (s.dictAppend w s.nextCode) := by
  have hchecks : ¬ (s.nextCode ≠ s.nextCode ∨ Config.ceiling ≤ s.nextCode.toNat) := by
    simp only [ne_eq, not_true_eq_false, false_or, Config.ceiling]
    omega
  rw [dictInsert, if_neg hchecks]
  by_cases hm : s.mode = .enc
  · rw [if_pos hm, dictLookupSym, (Dict.codesOf_eq_nil hd).2 (hw hm)]
    rfl
  · rw [if_neg hm]

/-- Settles O21: each check that fails raises; with none failing, `DictInsert` is `dictAppend` at `nextCode`. -/
theorem dictInsertChecksAndWrites : Obligations.DictInsertChecksAndWrites := by
  intro w k s hd
  split
  next hbad =>
    rcases hbad with hk | hfull | ⟨hm, j, hj⟩
    · exact if_pos (.inl hk)
    · exact if_pos (.inr hfull)
    · exact dictInsert_held hd hm hj k
  next hgood =>
    simp only [not_or, not_not, not_and, not_exists, not_le] at hgood
    obtain ⟨rfl, hroom, hw⟩ := hgood
    exact ⟨_, dictInsert_appends hd hroom hw, State.dictAppend_nextCode_toNat hroom w _, Dict.read_write s.dict _ w, rfl⟩

end Sys2Proof.Machine
end

section
/-!
PROOFS. What every step keeps and never raises, from a state that meets the invariants (spec/10_state.md R39;
spec/60_exceptions.md R223, R230).
-/
namespace Sys2Proof.Machine

/-- Settles O26: every kind of step keeps the invariants. -/
theorem invariantsAreKeptByEveryStep : Obligations.InvariantsAreKeptByEveryStep := by
  intro s t hi he
  rcases step_cases s with ⟨-, h⟩ | ⟨rest, -, h⟩ | ⟨w, rest, e, -, -, h⟩ | ⟨w, rest, i, -, -, h⟩ <;> rw [h] at he
  · cases he; exact hi
  · cases he; exact (hi.withPending rest).ioFail
  · cases he; exact (hi.withPending rest).refuse
  · exact exec_inv (hi.withPending rest) he

/-- Settles O25: the power-on table is the base table. -/
theorem invariantsHoldAtPowerOn : Obligations.InvariantsHoldAtPowerOn :=
  State.Inv.of_base rfl rfl (fun hm => nomatch hm) (fun _ => ⟨rfl, rfl⟩) (fun hp => nomatch hp) (fun hm => nomatch hm)
    (fun hm => nomatch hm)

/-- No command raises PROTOCOL_INVARIANT: a START clears the fault, a refusal leaves it, and the rest is `exec_fault`. -/
theorem exec_protocolInvariant {i : Instr} {s t : State} (hi : s.Inv) (he : exec i s = .next t)
    (hf : t.fault = .protocolInvariant) : s.fault = .protocolInvariant := by
  cases hs : startMode i with
  | some m => rw [exec_start hs] at he; cases he; cases hf
  | none =>
    by_cases ha : accepts i s.mode = true
    · rcases exec_fault hi hs ha he with ⟨hsame, -⟩ | ⟨-, hio, -⟩ | ⟨-, hmal, -⟩
      · exact hsame.symm.trans hf
      · cases hio.symm.trans hf
      · cases hmal.symm.trans hf
    · rw [exec_not_accepted (Bool.eq_false_iff.2 ha)] at he
      cases he
      exact hf

/-- Settles O27: no kind of step raises it. -/
theorem protocolInvariantIsNeverRaised : Obligations.ProtocolInvariantIsNeverRaised := by
  intro s t hi he hf
  rcases step_cases s with ⟨-, h⟩ | ⟨rest, -, h⟩ | ⟨w, rest, e, -, -, h⟩ | ⟨w, rest, i, -, -, h⟩ <;> rw [h] at he
  · cases he; exact hf
  · cases he
    rcases ioFail_cases { s with pending := rest } with ⟨-, hio⟩ | ⟨-, hio⟩ <;> rw [hio] at hf
    · cases hf
    · exact hf
  · cases he; exact hf
  · exact exec_protocolInvariant (s := { s with pending := rest }) (hi.withPending rest) he hf

theorem wellFormed_of_accepts {i : Instr} {m : Mode} (h : accepts i m = true) : i.wellFormed = true := by
  cases i with
  | reserved0 arg | reserved7 arg | reservedB arg | reservedF arg => cases h
  | _ => rfl

theorem startMode_ne_fault {i : Instr} {m : Mode} (h : startMode i = some m) : m ≠ .fault := by
  rintro rfl
  cases i <;> cases h

/-- Settles O50: a command that ends in FAULT was accepted and is no START, and `exec_fault` says what it raised. -/
theorem faultsEachCommandCanRaise : Obligations.FaultsEachCommandCanRaise := by
  intro i s t hi hm he hf
  have hs : startMode i = none := by
    cases hs : startMode i with
    | none => rfl
    | some m => rw [exec_start hs] at he; cases he; exact absurd hf (startMode_ne_fault hs)
  have ha : accepts i s.mode = true := by
    by_contra ha
    rw [exec_not_accepted (Bool.eq_false_iff.2 ha)] at he
    cases he
    exact hm hf
  refine ⟨hs, wellFormed_of_accepts ha, ?_⟩
  rcases exec_fault hi hs ha he with ⟨-, hne⟩ | ⟨-, hio, hup, hdec⟩ | ⟨-, hmal, hcmd⟩
  · exact absurd hf hne
  · exact ⟨fun h => (h.elim hdec hup).elim, fun _ => .inr hio, fun _ => hio⟩
  · refine ⟨fun _ => hmal, fun _ => .inl hmal, fun h => ?_⟩
    rcases hcmd with rfl | rfl | ⟨b, rfl⟩ <;> simp at h

/-- `ENC.END` leaves the decoder without a prior code (10_state.md R33). -/
theorem exec_encEnd_decHavePrior {s t : State} (hm : s.mode = .enc) (he : exec .encEnd s = .next t) :
    t.decHavePrior = s.decHavePrior := by
  rw [exec_encEnd hm] at he
  cases he
  exact encEnd_rel (R := fun s t => t.decHavePrior = s.decHavePrior) (fun _ => rfl) (fun h h' => h'.trans h)
    (fun _ _ => rfl) (fun _ _ => rfl) (fun _ _ => rfl) (fun _ => rfl) (fun _ _ => rfl) (fun _ => rfl) s

/-- Settles O59: the invariants hold in the state after, which has no prior code, so I5's second case applies. -/
theorem injectiveTableAfterEncEnd : Obligations.InjectiveTableAfterEncEnd := by
  intro s t hi hm he _ j k w _ _ hj hk
  have hprior : t.decHavePrior = false := (exec_encEnd_decHavePrior hm he).trans (hi.noPrior hm)
  exact (exec_inv hi he).injective (.inr hprior) j k w hj hk

end Sys2Proof.Machine
end

section
/-!
PROOFS. The packer and the unpacker on whole streams, and a write that fails inside a unit
(spec/41_packer.md R133, R138 to R140; spec/60_exceptions.md R225, R227).
-/
namespace Sys2Proof.Machine

/-- `Pack(k)` at odd parity, cut at its first failed write. -/
theorem pack_failed {s : State} (hp : s.pkOdd = true) (k : Code) {m : Nat} (hm : m < 3) (ha : s.SinkAccepts m)
    (hf : s.sinkAnswerAt m = false) :
    pack k s = .raised (((s.sinkSkip (m + 1)).emit ((s.unit k).take m)).raise .ioFailure) := by
  rw [pack, if_pos hp]
  change (outSeq (s.unit k) s).andThen _ = _
  rw [outSeq_failed (w := s.unit k) hm ha hf, Eff.andThen_raised]

/-- Settles O31: the unit's output is cut at the failed write, and the packer is cleared only after the last one. -/
theorem pkCodeSinkFailureLeavesTheFirstBytes : Obligations.PkCodeSinkFailureLeavesTheFirstBytes := by
  intro k s m hm hp hlt ha hf
  refine ⟨_, exec_pkCode hm k, ?_, ?_⟩ <;> rw [pack_failed hp k hlt ha hf] <;> rfl

/-! ### The wire format both ways -/

theorem firstByte0_firstCode (b0 b1 : Byte) : firstByte0 (firstCode b0 b1) = b0 := by
  apply BitVec.eq_of_toNat_eq
  rw [firstByte0_toNat, firstCode_toNat]
  omega

/-- A tail's second byte, when its padding is zero (30_encoding.md R73). -/
theorem firstByte1_firstCode {b0 b1 : Byte} (h : b1.toNat % 16 = 0) : firstByte1 (firstCode b0 b1) = b1 := by
  apply BitVec.eq_of_toNat_eq
  rw [firstByte1_toNat, firstCode_toNat]
  omega

theorem secondByte1_codes (b0 b1 b2 : Byte) : secondByte1 (firstByte1 (firstCode b0 b1)) (secondCode b1 b2) = b1 := by
  apply BitVec.eq_of_toNat_eq
  rw [secondByte1_toNat (firstByte1_low _), firstByte1_toNat, firstCode_toNat, secondCode_toNat]
  omega

theorem secondByte2_secondCode (b1 b2 : Byte) : secondByte2 (secondCode b1 b2) = b2 := by
  apply BitVec.eq_of_toNat_eq
  rw [secondByte2_toNat, secondCode_toNat]
  omega

/-- The codes of a well-formed stream pack to that stream (41_packer.md R140). -/
theorem packedStream_of_streamCodes {y : List Byte} {ks : List Code} (h : streamCodes y = some ks) :
    packedStream ks = y := by
  induction y using bytes_induction generalizing ks with
  | h0 => cases h; rfl
  | h1 a => cases h
  | h2 a b =>
    rw [streamCodes_tail, Option.ite_none_right_eq_some] at h
    obtain ⟨hpad, h⟩ := h
    cases h
    rw [packedStream_single, firstByte0_firstCode, firstByte1_firstCode hpad]
  | h3 a b c y ih =>
    rw [streamCodes_group] at h
    obtain ⟨ls, hls, rfl⟩ := Option.map_eq_some_iff.1 h
    rw [packedStream_pair, ih hls, firstByte0_firstCode, secondByte1_codes, secondByte2_secondCode]

/-- Settles O36: the two directions of the wire format, and the packed length. -/
theorem packingIsABijection : Obligations.PackingIsABijection :=
  ⟨streamCodes_packedStream, fun _ _ => packedStream_of_streamCodes, packedStream_length⟩

/-! ### Unpacking a stream -/

/-- The unpacker driven alone, between two commands of a stream of `n` bytes, after the bytes `seen`. -/
structure Unpacking (n : Nat) (seen : List Byte) (s : State) : Prop where
  /-- the unpacker takes commands -/
  mode : s.mode = .up
  /-- no fault so far -/
  fault : s.fault = .none
  /-- the codes delivered are those the bytes complete -/
  codes : Unpacked seen s.outCodes s
  /-- the rest of the sink's answers accept: at most one code for each byte -/
  sink : s.SinkAccepts (n - seen.length)

theorem Unpacking.start {n : Nat} {s : State} (ha : s.SinkAccepts n) : Unpacking n [] (streamStart .up s) where
  mode := rfl
  fault := rfl
  codes := (Unpacked.init s).congr rfl rfl rfl
  sink := ha.congr rfl rfl

theorem Unpacking.pending {n : Nat} {seen : List Byte} {s : State} (h : Unpacking n seen s) (p : List HostEvent) :
    Unpacking n seen { s with pending := p } where
  mode := h.mode
  fault := h.fault
  codes := h.codes.congr rfl rfl rfl
  sink := h.sink.congr rfl rfl

/-- One more byte: the code it completes, if any, is delivered. -/
theorem Unpacking.byte {n : Nat} {seen : List Byte} {s : State} (h : Unpacking n seen s) (b : Byte)
    (hn : seen.length < n) :
    ∃ t, exec (.upByte b) s = .next t ∧ Unpacking n (seen ++ [b]) t := by
  have hnext := h.codes.next b
  have hsink : s.SinkAccepts (1 + (n - (seen ++ [b]).length)) := by
    refine h.sink.mono ?_
    rw [List.length_append, List.length_singleton]
    omega
  cases hu : unpackCode b s with
  | none =>
    rw [hu, Option.toList_none, List.append_nil] at hnext
    refine ⟨_, exec_upByte_none h.mode hu, ?_, ?_, ?_, ?_⟩
    · rw [State.unpackNext_mode, h.mode]
    · rw [State.unpackNext_fault, h.fault]
    · rwa [State.unpackNext_outCodes]
    · exact (hsink.mono (Nat.le_add_left _ _)).congr (by simp) (by simp)
  | some k =>
    rw [hu, Option.toList_some] at hnext
    have haccept : (s.unpackNext b).sinkAnswerAt 0 = true := by
      rw [State.sinkAnswerAt_congr (s := s) (by simp) (by simp)]
      exact hsink 0 (by omega)
    refine ⟨_, exec_upByte_some h.mode hu, ?_⟩
    rw [outCode_accepted haccept, Eff.state_ok]
    refine ⟨?_, ?_, ?_, ?_⟩
    · simpa using h.mode
    · simpa using h.fault
    · simpa using hnext.congr (t := ((s.unpackNext b).sinkSkip 1).emitCode k) rfl rfl rfl
    · exact hsink.skip.congr (by simp) (by simp)

/-- The end command after the whole of `y`. -/
theorem Unpacking.end {n : Nat} {y : List Byte} {s : State} (h : Unpacking n y s) :
    ∃ t, exec .upEnd s = .next t ∧
      match streamCodes y with
      | some ks => t.mode = .done ∧ t.fault = .none ∧ t.outCodes = ks
      | none => t.mode = .fault ∧ t.fault = .malformedStream := by
  refine ⟨_, exec_upEnd h.mode, ?_⟩
  rcases h.codes.end with ⟨hy, hu⟩ | ⟨hy, hu⟩ <;> rw [hy, hu]
  · exact ⟨rfl, h.fault, rfl⟩
  · exact ⟨rfl, rfl⟩

/-- Settles O35: UP.START begins an unpacked stream, every UP.BYTE extends it by its byte, and UP.END checks its end. -/
theorem unpackingReadsTheUnits : Obligations.UnpackingReadsTheUnits := by
  intro y s ha
  refine runProgram_stream (start := .upStart) (fin := .upEnd) (f := .upByte) (R := Unpacking y.length) rfl
    (decode_encode _) (decode_encode _) (fun _ => decode_encode _) y s ?start ?byte ?pending ?fin
  case start => exact fun p => .start (ha.congr rfl rfl)
  case byte =>
    rintro seen b tail t hy h
    exact h.byte b (by simp [hy])
  case pending => exact fun _ _ p h => h.pending p
  case fin => exact fun _ h => h.end

end Sys2Proof.Machine
end

section
/-!
PROOFS. The encoder one command at a time, and what COMPRESS leaves (spec/42_encoder.md R162 to R166).
-/
namespace Sys2Proof.Machine

/-! ### The ceiling check and one insertion -/

/-- The entry inserted stands at the `nextCode` that the ceiling check leaves (40_dictionary.md R103, R104). -/
theorem insertNext_read (s : State) (w : Symbol) (j : Nat) : (s.insertNext w).dict.read j =
    if j = (dictCeilingCheck s).nextCode.toNat then some w else (dictCeilingCheck s).dict.read j :=
  Dict.read_write _ _ w j

theorem insertNext_nextCode {s : State} (hi : s.Inv) (w : Symbol) :
    (s.insertNext w).nextCode.toNat = (dictCeilingCheck s).nextCode.toNat + 1 :=
  State.dictAppend_nextCode_toNat (dictCeilingCheck_room hi) w _

/-- The ceiling check writes the table only. -/
theorem dictCeilingCheck_frame (s : State) :
    dictCeilingCheck s = { s with dict := (dictCeilingCheck s).dict, nextCode := (dictCeilingCheck s).nextCode } := by
  rcases dictCeilingCheck_cases s with ⟨-, h⟩ | ⟨-, h⟩ <;> rw [h]
  rfl

/-- The table after the check and the insertion, below the ceiling and at it. -/
theorem insertNext_table {s : State} (hi : s.Inv) (w : Symbol) :
    if s.nextCode.toNat = 4096 then
      (s.insertNext w).nextCode.toNat = 257 ∧ ∀ k, (s.insertNext w).dict.read k =
        if k = 256 then some w else if k < 256 then some [BitVec.ofNat 8 k] else none
    else
      (s.insertNext w).nextCode.toNat = s.nextCode.toNat + 1 ∧
        ∀ k, (s.insertNext w).dict.read k = if k = s.nextCode.toNat then some w else s.dict.read k := by
  simp only [insertNext_nextCode hi, insertNext_read]
  rcases dictCeilingCheck_cases s with ⟨hn, he⟩ | ⟨hn, he⟩
  · rw [if_neg hn, he]
    exact ⟨rfl, fun _ => rfl⟩
  · rw [if_pos hn, he]
    refine ⟨rfl, fun k => ?_⟩
    rw [← Dict.read_base k]
    rfl

/-! ### ENC.BYTE -/

/-- A known symbol extends `encS` (42_encoder.md R162). -/
theorem exec_encByte_known {s : State} (hi : s.Inv) (hm : s.mode = .enc) {c : Byte} {k : Code}
    (hk : s.dict.read k.toNat = some (s.encS ++ [c])) :
    exec (.encByte c) s = .next (s.setPrefix (s.encS ++ [c]) k) := by
  rw [exec_encByte hm]
  rcases encWalk_cases hi hm c with ⟨j, -, hj, he⟩ | ⟨-, hw, -⟩
  · obtain rfl : j = k := BitVec.eq_of_toNat_eq (hi.unique hm hj hk)
    rw [he, Eff.state_ok]
  · exact absurd hk (hw k.toNat)

/-- The base table holds every one-byte symbol at its own code (10_state.md R39 I2). -/
theorem State.Inv.read_codeOfByte {s : State} (hi : s.Inv) (c : Byte) : s.dict.read (codeOfByte c).toNat = some [c] := by
  rw [codeOfByte_toNat, hi.base c.toNat c.isLt, BitVec.ofNat_toNat, BitVec.setWidth_eq]

/-- Settles O37: the lookup finds the one code that holds the symbol; with `encS` empty that is the byte's own. -/
theorem encByteExtendsAKnownSymbol : Obligations.EncByteExtendsAKnownSymbol := by
  intro c s hi hm
  refine ⟨fun k hk => exec_encByte_known hi hm hk, fun hs => ?_⟩
  have hk : s.dict.read (codeOfByte c).toNat = some (s.encS ++ [c]) := by
    rw [hs]
    exact hi.read_codeOfByte c
  refine ⟨_, exec_encByte_known hi hm hk, codeOfByte_toNat c, ?_⟩
  rw [hs]
  rfl

/-- The mismatch branch after the pack writes the table, `encS` and `encSCode` only. -/
theorem afterMismatch_frame (c : Byte) (w : Symbol) (s : State) :
    s.afterMismatch c w =
      { s with
        dict := (s.afterMismatch c w).dict, nextCode := (s.afterMismatch c w).nextCode,
        encS := (s.afterMismatch c w).encS, encSCode := (s.afterMismatch c w).encSCode } :=
  congrArg (fun u => (u.dictAppend w (dictCeilingCheck s).nextCode).setPrefix [c] (codeOfByte c))
    (dictCeilingCheck_frame s)

/-- An unknown symbol, once the code of `encS` is packed (42_encoder.md R162). -/
theorem exec_encByte_unknown {s t : State} (hi : s.Inv) (hm : s.mode = .enc) {c : Byte}
    (hw : ∀ k, s.dict.read k ≠ some (s.encS ++ [c])) (hp : pack s.encSCode s = .ok () t) :
    exec (.encByte c) s = .next (t.afterMismatch c (s.encS ++ [c])) := by
  rw [exec_encByte hm]
  rcases encWalk_cases hi hm c with ⟨k, -, hk, -⟩ | ⟨-, -, he⟩
  · exact absurd hk (hw k.toNat)
  · rw [he, hp, Eff.andThen_ok, Eff.state_ok]

/-- The table after the mismatch branch: packing does not touch it. -/
theorem afterMismatch_table {s t : State} (hi : t.Inv) (ht : s.SameTable t) (c : Byte) (w : Symbol) :
    if s.nextCode.toNat = 4096 then
      (t.afterMismatch c w).nextCode.toNat = 257 ∧ ∀ k, (t.afterMismatch c w).dict.read k =
        if k = 256 then some w else if k < 256 then some [BitVec.ofNat 8 k] else none
    else
      (t.afterMismatch c w).nextCode.toNat = s.nextCode.toNat + 1 ∧
        ∀ k, (t.afterMismatch c w).dict.read k = if k = s.nextCode.toNat then some w else s.dict.read k := by
  obtain ⟨hd, hn⟩ := ht
  rw [← hd, ← hn]
  exact insertNext_table hi w

/-- Settles O38: the pack at either parity, then the ceiling check, the insertion and the new `encS`. -/
theorem encByteMismatchEmitsAndInserts : Obligations.EncByteMismatchEmitsAndInserts := by
  intro c s hi hm hw ha
  cases hp : s.pkOdd with
  | false =>
    have hpack := pack_even hp s.encSCode
    have hframe := afterMismatch_frame c (s.encS ++ [c]) (s.packFirst s.encSCode)
    refine ⟨_, exec_encByte_unknown hi hm hw hpack, rfl, codeOfByte_toNat c,
      afterMismatch_table (hi.packFirst _) ⟨rfl, rfl⟩ c _, ?_⟩
    rw [if_neg Bool.false_ne_true]
    refine ⟨?_, ?_, ?_⟩
    · rw [hframe]; exact firstByte0_toNat s.encSCode
    · rw [hframe]; exact firstByte1_toNat s.encSCode
    · rw [hframe]; rfl
  | true =>
    have hpack := pack_odd hp s.encSCode (ha hp)
    have hframe := afterMismatch_frame c (s.encS ++ [c]) ((s.sinkSkip 3).emit (s.unit s.encSCode)).packerInit
    refine ⟨_, exec_encByte_unknown hi hm hw hpack, rfl, codeOfByte_toNat c,
      afterMismatch_table ((hi.sinkSkip 3).emit _).packerInit ⟨rfl, rfl⟩ c _, ?_⟩
    rw [if_pos rfl]
    exact ⟨_, _, secondByte1_toNat (hi.packerOdd hp) s.encSCode, secondByte2_toNat s.encSCode, hframe⟩

/-! ### ENC.END -/

/-- `ENC.END` whose two parts complete (42_encoder.md R164). -/
theorem exec_encEnd_of_parts {s t u : State} (hm : s.mode = .enc) (hl : encLast s = .ok () t) (hf : flush t = .ok () u) :
    exec .encEnd s = .next u.finishStream := by
  rw [exec_encEnd hm, hl, Eff.andThen_ok, hf, Eff.andThen_ok, Eff.state_ok]

theorem encLast_nil {s : State} (h : s.encS = []) : encLast s = .ok () s := if_pos h

theorem encLast_pack {s : State} (h : s.encS ≠ []) : encLast s = pack s.encSCode s := if_neg h

/-- Settles O39: with `encS` empty or not, at either parity. -/
theorem encEndEmitsTheFinalPrefix : Obligations.EncEndEmitsTheFinalPrefix := by
  intro s hi hm ha
  by_cases hs : s.encS = [] <;> cases hp : s.pkOdd
  case pos.false =>
    refine ⟨_, [], exec_encEnd_of_parts hm (encLast_nil hs) (flush_even hp), ?_, ?_⟩
    · obtain ⟨h0, h1⟩ := hi.packerEven hp
      simp [State.finishStream, hp, h0, h1]
    · rw [if_pos hs, if_neg Bool.false_ne_true]
  case pos.true =>
    refine ⟨_, [s.pkStage0, s.pkStage1],
      exec_encEnd_of_parts hm (encLast_nil hs) (flush_odd hp (ha.mono (by decide))), rfl, ?_⟩
    rw [if_pos hs, if_pos rfl]
  case neg.false =>
    have hflush := flush_odd (s := s.packFirst s.encSCode) rfl ((ha.mono (by decide)).congr rfl rfl)
    refine ⟨_, [firstByte0 s.encSCode, firstByte1 s.encSCode],
      exec_encEnd_of_parts hm ((encLast_pack hs).trans (pack_even hp _)) hflush, rfl, ?_⟩
    rw [if_neg hs, if_neg Bool.false_ne_true]
    exact ⟨_, _, firstByte0_toNat s.encSCode, firstByte1_toNat s.encSCode, rfl⟩
  case neg.true =>
    refine ⟨_, s.unit s.encSCode,
      exec_encEnd_of_parts hm ((encLast_pack hs).trans (pack_odd hp _ ha)) (flush_even rfl), rfl, ?_⟩
    rw [if_neg hs, if_pos rfl]
    exact ⟨_, _, secondByte1_toNat (hi.packerOdd hp) s.encSCode, secondByte2_toNat s.encSCode, rfl⟩

/-! ### Whole inputs -/

/-- A first code that decodes is the code of the byte written (43_decoder.md R193). -/
theorem codeOfByte_of_decodeAll_single {k : Code} {d : Decoding} {b : Byte} (hd : decodeAll [k] = some d)
    (hout : d.out = [b]) : k = codeOfByte b := by
  have hstep : Decoding.init.step k = some d := by simpa [decodeAll] using hd
  simp only [Decoding.step, Decoding.init, Option.ite_none_right_eq_some, Option.some.injEq] at hstep
  obtain ⟨hk, rfl⟩ := hstep
  simp only [List.nil_append, List.cons.injEq, and_true] at hout
  apply BitVec.eq_of_toNat_eq
  rw [codeOfByte_toNat, ← hout, BitVec.toNat_ofNat]
  omega

/-- The tail of a base code (42_encoder.md R166). -/
theorem packedStream_codeOfByte (b : Byte) : packedStream [codeOfByte b] = [b >>> 4, (b &&& 0xF) <<< 4] := by
  have h0 : firstByte0 (codeOfByte b) = b >>> 4 := by
    apply BitVec.eq_of_toNat_eq
    rw [firstByte0_toNat, codeOfByte_toNat, BitVec.toNat_ushiftRight, Nat.shiftRight_eq_div_pow]
  have h1 : firstByte1 (codeOfByte b) = (b &&& 0xF) <<< 4 := by
    have hand : (b &&& 0xF).toNat = b.toNat % 16 := Nat.and_two_pow_sub_one_eq_mod b.toNat 4
    apply BitVec.eq_of_toNat_eq
    rw [firstByte1_toNat, codeOfByte_toNat, BitVec.toNat_shiftLeft, hand, Nat.shiftLeft_eq]
    omega
  rw [packedStream_single, h0, h1]

/-- Settles O40: one byte gives one code, the byte's own. -/
theorem singleByteCompressesToItsCode : Obligations.SingleByteCompressesToItsCode := by
  intro b s ha
  obtain ⟨t, ht, ks, hdone, -, hout, ⟨d, hd, hdout⟩, hle, hge, -⟩ := compress_result decode_encode [b] s ha
  obtain ⟨hpos, -⟩ := hge (by simp)
  obtain ⟨k, rfl⟩ : ∃ k, ks = [k] := List.length_eq_one_iff.1 (le_antisymm hle hpos)
  rw [codeOfByte_of_decodeAll_single hd hdout, packedStream_codeOfByte] at hout
  exact ⟨t, ht, hdone, hout⟩

/-- Settles O41: the number of codes packed is the `m` of the statement. -/
theorem compressingCountsCodesAndInsertions : Obligations.CompressingCountsCodesAndInsertions := by
  intro x s ha
  obtain ⟨t, ht, ks, hdone, hfault, hout, -, hle, hcount, hempty⟩ := compress_result decode_encode x s ha
  refine ⟨t, ht, hdone, hfault, ?_⟩
  split
  next hx => rw [hout, hempty hx, packedStream_nil]
  next hx =>
    obtain ⟨hpos, hnext⟩ := hcount hx
    exact ⟨ks.length, hpos, hle, by rw [hout, packedStream_length], hnext⟩

end Sys2Proof.Machine
end

section
/-!
PROOFS. The decoder one byte at a time, and how long its symbols can be (spec/43_decoder.md R192 to R197, R201).
-/
namespace Sys2Proof.Machine

/-! ### One byte -/

/-- Settles O42: the unpacker at a unit boundary. -/
theorem decByteHoldsTheFirstByte : Obligations.DecByteHoldsTheFirstByte := by
  intro b s hm hf
  obtain ⟨hcode, hnext⟩ := Prod.mk.inj (unpack_zero hf b)
  rw [exec_decByte_none hm hcode, hnext]

theorem unpackNext_sinkAccepts {s : State} {n : Nat} (h : s.SinkAccepts n) (b : Byte) : (s.unpackNext b).SinkAccepts n :=
  h.congr (State.unpackNext_sinkAnswers b s) (State.unpackNext_sinkDraws b s)

/-- A derivable code whose symbol the sink accepts: `v` is the state with the insertion made (43_decoder.md R194). -/
theorem exec_decByte_decodes {s v : State} {b : Byte} {k : Code} {cur : Symbol} (hm : s.mode = .dec)
    (hu : unpackCode b s = some k)
    (hd : decodeCode k (s.unpackNext b) = (outSeq cur v).andThen fun _ t => .ok () (t.setPrior k cur))
    (ha : v.SinkAccepts cur.length) :
    exec (.decByte b) s = .next (((v.sinkSkip cur.length).emit cur).setPrior k cur) := by
  rw [exec_decByte_some hm hu, hd, outSeq_accepted ha, Eff.andThen_ok, Eff.state_ok]

/-- Settles O43: the first code is a base code, read from the table. -/
theorem decFirstCodeIsOutputVerbatim : Obligations.DecFirstCodeIsOutputVerbatim := by
  intro b k s hi hm hp hu hk ha
  have hm' : (s.unpackNext b).mode = .dec := by simpa using hm
  rcases decodeCode_cases (hi.unpackNext b) hm' k with ⟨-, hk', -⟩ | ⟨hp', -, -⟩ | ⟨cur, v, ⟨-, -, -, hv⟩, he⟩
  · omega
  · simp [hp] at hp'
  · rcases hv with ⟨-, -, rfl, rfl⟩ | ⟨hp', -⟩ | ⟨hp', -⟩
    · rw [exec_decByte_decodes hm hu he (unpackNext_sinkAccepts ha b), ← State.unpackNext_outBytes b s]
      rfl
    · simp [hp] at hp'
    · simp [hp] at hp'

/-- Decoding a later code writes the table, the output and the decoder's registers only. -/
theorem decoded_frame (k : Code) (cur w : Symbol) (s : State) :
    (((s.insertNext w).sinkSkip cur.length).emit cur).setPrior k cur =
      { s.sinkSkip cur.length with
        outBytes := s.outBytes ++ cur, dict := (s.insertNext w).dict, nextCode := (s.insertNext w).nextCode,
        decPriorCode := k, decPriorSym := cur, decHavePrior := true } :=
  congrArg (fun u => (((u.dictAppend w (dictCeilingCheck s).nextCode).sinkSkip cur.length).emit cur).setPrior k cur)
    (dictCeilingCheck_frame s)

theorem insertNext_unpackNext_read (b : Byte) (s : State) (w : Symbol) (j : Nat) :
    ((s.unpackNext b).insertNext w).dict.read j =
      if j = (dictCeilingCheck s).nextCode.toNat then some w else (dictCeilingCheck s).dict.read j := by
  rw [insertNext_read, dictCeilingCheck_unpackNext, State.unpackNext_nextCode, State.unpackNext_dict]

theorem insertNext_unpackNext_nextCode {s : State} (hi : s.Inv) (b : Byte) (w : Symbol) :
    ((s.unpackNext b).insertNext w).nextCode.toNat = (dictCeilingCheck s).nextCode.toNat + 1 := by
  rw [insertNext_nextCode (hi.unpackNext b), dictCeilingCheck_unpackNext, State.unpackNext_nextCode]

/-- A later code with symbol `cur` and new entry `w`, the sink accepting (43_decoder.md R194). -/
theorem exec_decByte_later {s : State} {b : Byte} {k : Code} {cur w : Symbol} (hi : s.Inv) (hm : s.mode = .dec)
    (hu : unpackCode b s = some k)
    (hd : decodeCode k (s.unpackNext b) =
      (outSeq cur ((s.unpackNext b).insertNext w)).andThen fun _ t => .ok () (t.setPrior k cur))
    (ha : s.SinkAccepts cur.length) :
    ∃ t, exec (.decByte b) s = .next t ∧ t.outBytes = s.outBytes ++ cur ∧
      t.nextCode.toNat = (dictCeilingCheck s).nextCode.toNat + 1 ∧
      (∀ j, t.dict.read j =
        if j = (dictCeilingCheck s).nextCode.toNat then some w else (dictCeilingCheck s).dict.read j) ∧
      t = { (s.unpackNext b).sinkSkip cur.length with
        outBytes := t.outBytes, dict := t.dict, nextCode := t.nextCode, decPriorCode := k, decPriorSym := cur,
        decHavePrior := true } := by
  have hsink : ((s.unpackNext b).insertNext w).SinkAccepts cur.length :=
    ha.congr (by simp [State.insertNext]) (by simp [State.insertNext])
  refine ⟨_, exec_decByte_decodes hm hu hd hsink, ?_, insertNext_unpackNext_nextCode hi b w,
    insertNext_unpackNext_read b s w, ?_⟩
  · rw [decoded_frame, State.unpackNext_outBytes]
  · rw [decoded_frame]

/-- Settles O44: the code is present, so its entry is `cur`. -/
theorem decPresentCodeInsertsAndEmits : Obligations.DecPresentCodeInsertsAndEmits := by
  intro b k s cur hi hm hp hu hk hcur ha
  have hm' : (s.unpackNext b).mode = .dec := by simpa using hm
  have hceil := dictCeilingCheck_unpackNext b s
  rcases decodeCode_cases (hi.unpackNext b) hm' k with ⟨hp', -⟩ | ⟨-, hk', -⟩ | ⟨cur', v, ⟨-, -, -, hv⟩, he⟩
  · simp [hp] at hp'
  · rw [hceil, State.unpackNext_nextCode] at hk'
    omega
  · rcases hv with ⟨hp', -⟩ | ⟨-, -, hread, rfl⟩ | ⟨-, hk', -⟩
    · simp [hp] at hp'
    · rw [hceil, State.unpackNext_dict, hcur] at hread
      cases hread
      rw [State.unpackNext_decPriorSym] at he
      exact exec_decByte_later hi hm hu he ha
    · rw [hceil, State.unpackNext_nextCode] at hk'
      omega

/-- Settles O45: the code is `nextCode` itself, so its symbol is the new entry. -/
theorem decCodeAboutToBeCreated : Obligations.DecCodeAboutToBeCreated := by
  intro b k s hi hm hp hu hk ha
  have hm' : (s.unpackNext b).mode = .dec := by simpa using hm
  have hceil := dictCeilingCheck_unpackNext b s
  rcases decodeCode_cases (hi.unpackNext b) hm' k with ⟨hp', -⟩ | ⟨-, hk', -⟩ | ⟨cur, v, ⟨-, -, -, hv⟩, he⟩
  · simp [hp] at hp'
  · rw [hceil, State.unpackNext_nextCode] at hk'
    omega
  · rcases hv with ⟨hp', -⟩ | ⟨-, hk', -⟩ | ⟨-, -, rfl, rfl⟩
    · simp [hp] at hp'
    · rw [hceil, State.unpackNext_nextCode] at hk'
      omega
    · rw [State.unpackNext_decPriorSym] at he
      have hlen : (s.decPriorSym ++ s.decPriorSym.take 1).length ≤ s.decPriorSym.length + 1 := by simp
      obtain ⟨t, ht⟩ := exec_decByte_later hi hm hu he (ha.mono hlen)
      exact ⟨t, _, rfl, ht⟩

/-- Settles O46: `decodeSymbols_any` says which codes are underivable and what is written before the fault. -/
theorem decUnderivableCodeIsMalformed : Obligations.DecUnderivableCodeIsMalformed := by
  intro b k s hm hu
  have hceil : (dictCeilingCheck (s.unpackNext b)).nextCode = (dictCeilingCheck s).nextCode := by
    rw [dictCeilingCheck_unpackNext, State.unpackNext_nextCode]
  have hprior := State.unpackNext_decHavePrior b s
  obtain ⟨u, hwhich, ⟨-, he⟩ | ⟨hgood, -⟩⟩ := decodeSymbols_any k (s.unpackNext b)
  · have hexec : exec (.decByte b) s = .next (u.raise .malformedStream) := by
      rw [exec_decByte_some hm hu, decodeCode, he, Eff.andThen_raised, Eff.state_raised]
    rcases hwhich with ⟨hp, rfl⟩ | ⟨hp, rfl⟩ <;> rw [hprior] at hp
    · exact ⟨fun _ _ => hexec, fun hp' _ => by simp [hp] at hp'⟩
    · exact ⟨fun hp' _ => by simp [hp] at hp', fun _ _ => hexec⟩
  · rw [hprior, hceil] at hgood
    exact ⟨fun hp hk => absurd (.inl ⟨hp, hk⟩) hgood, fun hp hk => absurd (.inr ⟨hp, hk⟩) hgood⟩

/-! ### The length of symbols -/

/-- No entry above the base and no prior symbol is longer than `n` (43_decoder.md R201). -/
structure State.SymbolsWithin (n : Nat) (s : State) : Prop where
  /-- the entries -/
  entries : ∀ k w, 256 ≤ k → s.dict.read k = some w → w.length ≤ n
  /-- the prior symbol -/
  prior : s.decHavePrior = true → s.decPriorSym.length ≤ n

theorem State.SymbolsWithin.mono {s : State} {m n : Nat} (h : s.SymbolsWithin m) (hmn : m ≤ n) : s.SymbolsWithin n where
  entries k w hk hr := (h.entries k w hk hr).trans hmn
  prior hp := (h.prior hp).trans hmn

/-- Only the table and the prior symbol decide it. -/
theorem State.SymbolsWithin.congr {s t : State} {n : Nat} (h : s.SymbolsWithin n) (hd : t.dict = s.dict)
    (hp : t.decHavePrior = s.decHavePrior) (hs : t.decPriorSym = s.decPriorSym) : t.SymbolsWithin n where
  entries := by rw [hd]; exact h.entries
  prior := by rw [hp, hs]; exact h.prior

theorem streamStart_symbolsWithin (m : Mode) (s : State) : (streamStart m s).SymbolsWithin 0 where
  entries k w hk hr := by
    rw [streamStart_dict, Dict.read_base, if_neg (by omega)] at hr
    cases hr
  prior hp := nomatch hp

theorem State.SymbolsWithin.ceilingCheck {s : State} {n : Nat} (h : s.SymbolsWithin n) :
    (dictCeilingCheck s).SymbolsWithin n := by
  rcases dictCeilingCheck_cases s with ⟨-, he⟩ | ⟨-, he⟩ <;> rw [he]
  · exact h
  · refine ⟨fun k w hk hr => ?_, h.prior⟩
    rw [State.dictReset_dict, Dict.read_base, if_neg (by omega)] at hr
    cases hr

theorem State.SymbolsWithin.append {s : State} {n : Nat} (h : s.SymbolsWithin n) {w : Symbol} (hw : w.length ≤ n)
    (k : BitVec 13) : (s.dictAppend w k).SymbolsWithin n where
  entries j v hj hr := by
    rw [State.dictAppend_dict, Dict.read_write] at hr
    split at hr
    · cases hr; exact hw
    · exact h.entries j v hj hr
  prior := h.prior

/-- A present symbol is a base symbol, of one byte, or an entry above the base. -/
theorem State.SymbolsWithin.read_length {s : State} {n : Nat} (h : s.SymbolsWithin n) (hi : s.Inv) {k : Nat} {w : Symbol}
    (hr : s.dict.read k = some w) : w.length ≤ n + 1 := by
  rcases lt_or_ge k 256 with hk | hk
  · rw [hi.base k hk] at hr
    cases hr
    simp
  · exact (h.entries k w hk hr).trans (Nat.le_succ n)

/-- The code's symbol and the insertion are at most one byte longer than what was there. -/
theorem DecodesTo.symbolsWithin {k : Code} {s v : State} {cur : Symbol} {n : Nat} (h : DecodesTo k s cur v)
    (hi : s.Inv) (hm : s.mode = .dec) (hs : s.SymbolsWithin n) : cur.length ≤ n + 1 ∧ v.SymbolsWithin (n + 1) := by
  have hs' := hs.mono (Nat.le_succ n)
  have htake : ∀ w : Symbol, (w.take 1).length ≤ 1 := fun w => by rw [List.length_take]; omega
  obtain ⟨-, -, -, ⟨-, -, rfl, rfl⟩ | ⟨hp, -, hr, rfl⟩ | ⟨hp, -, rfl, rfl⟩⟩ := h
  · exact ⟨by simp, hs'⟩
  · have hprior := hs.prior hp
    have hnew := htake cur
    exact ⟨hs.ceilingCheck.read_length (dictCeilingCheck_inv hi (by simp [hm])) hr,
      hs'.ceilingCheck.append (by rw [List.length_append]; omega) _⟩
  · have hprior := hs.prior hp
    have hnew := htake s.decPriorSym
    have hlen : (s.decPriorSym ++ s.decPriorSym.take 1).length ≤ n + 1 := by rw [List.length_append]; omega
    exact ⟨hlen, hs'.ceilingCheck.append hlen _⟩

/-- Decoding one code, whatever the sink answers. -/
theorem State.SymbolsWithin.decodeCode {s : State} {n : Nat} (h : s.SymbolsWithin n) (hi : s.Inv) (hm : s.mode = .dec)
    (k : Code) : (decodeCode k s).state.SymbolsWithin (n + 1) := by
  have h' := h.mono (Nat.le_succ n)
  rcases decodeCode_cases hi hm k with ⟨-, -, he⟩ | ⟨-, -, he⟩ | ⟨cur, v, hv, he⟩ <;> rw [he]
  · exact h'.congr rfl rfl rfl
  · exact h'.ceilingCheck.congr rfl rfl rfl
  · obtain ⟨hcur, hvs⟩ := hv.symbolsWithin hi hm h
    rcases outSeq_cases cur v with ⟨-, ho⟩ | ⟨m, -, -, -, ho⟩ <;> rw [ho]
    · exact ⟨hvs.entries, fun _ => hcur⟩
    · exact hvs.congr rfl rfl rfl

/-- Decoding a code leaves the unpacker alone (40_dictionary.md R100). -/
theorem decodeCode_keeps_unpacker (k : Code) (s : State) :
    (decodeCode k s).state.upFill = s.upFill ∧ (decodeCode k s).state.upHold0 = s.upHold0 ∧
      (decodeCode k s).state.upHold1 = s.upHold1 :=
  decodeCode_rel (R := fun s t => t.upFill = s.upFill ∧ t.upHold0 = s.upHold0 ∧ t.upHold1 = s.upHold1)
    (fun _ => ⟨rfl, rfl, rfl⟩) (fun ⟨h1, h2, h3⟩ ⟨h1', h2', h3'⟩ => ⟨h1'.trans h1, h2'.trans h2, h3'.trans h3⟩)
    (fun _ _ => ⟨rfl, rfl, rfl⟩) (fun _ _ => ⟨rfl, rfl, rfl⟩) (fun _ _ => ⟨rfl, rfl, rfl⟩) (fun _ => ⟨rfl, rfl, rfl⟩)
    (fun _ _ _ => ⟨rfl, rfl, rfl⟩) (fun _ _ _ => ⟨rfl, rfl, rfl⟩) k s

/-- The decoder after the bytes `seen`, faulted or not: its symbols are no longer than the number of codes they
complete. -/
structure DecodingWithin (seen : List Byte) (s : State) : Prop where
  /-- the invariants -/
  inv : s.Inv
  /-- while no fault has ended the stream, the unpacker holds what the bytes leave over -/
  codes : s.mode = .dec → ∃ ks, Unpacked seen ks s
  /-- the bound -/
  within : s.SymbolsWithin (2 * seen.length / 3)

theorem DecodingWithin.start (s : State) : DecodingWithin [] (streamStart .dec s) where
  inv := streamStart_inv _ _
  codes _ := ⟨[], (Unpacked.init s).congr rfl rfl rfl⟩
  within := streamStart_symbolsWithin _ _

theorem DecodingWithin.pending {seen : List Byte} {s : State} (h : DecodingWithin seen s) (p : List HostEvent) :
    DecodingWithin seen { s with pending := p } where
  inv := h.inv.withPending p
  codes hm := by
    obtain ⟨ks, hks⟩ := h.codes hm
    exact ⟨ks, hks.congr rfl rfl rfl⟩
  within := h.within.congr rfl rfl rfl

theorem codeCount_append (seen : List Byte) (b : Byte) : 2 * seen.length / 3 ≤ 2 * (seen ++ [b]).length / 3 := by
  rw [List.length_append]
  omega

/-- One more byte; after a fault it is refused. -/
theorem DecodingWithin.byte {seen : List Byte} {s : State} (h : DecodingWithin seen s) (b : Byte) :
    ∃ t, exec (.decByte b) s = .next t ∧ DecodingWithin (seen ++ [b]) t := by
  have hmono := h.within.mono (codeCount_append seen b)
  by_cases hm : s.mode = .dec
  · obtain ⟨ks, hks⟩ := h.codes hm
    have hnext := hks.next b
    cases hu : unpackCode b s with
    | none =>
      exact ⟨_, exec_decByte_none hm hu, h.inv.unpackNext b, fun _ => ⟨_, hnext⟩,
        hmono.congr (by simp) (by simp) (by simp)⟩
    | some k =>
      rw [hu, Option.toList_some] at hnext
      have hcount : 2 * seen.length / 3 + 1 = 2 * (seen ++ [b]).length / 3 := by
        rw [← hks.length, ← hnext.length, List.length_append, List.length_singleton]
      have hi := h.inv.unpackNext b
      have hm' : (s.unpackNext b).mode = .dec := by simpa using hm
      obtain ⟨hfill, hhold0, hhold1⟩ := decodeCode_keeps_unpacker k (s.unpackNext b)
      refine ⟨_, exec_decByte_some hm hu, decodeCode_inv hi hm' k, fun _ => ⟨_, hnext.congr hfill hhold0 hhold1⟩, ?_⟩
      rw [← hcount]
      exact (h.within.congr (by simp) (by simp) (by simp) : (s.unpackNext b).SymbolsWithin _).decodeCode hi hm' k
  · exact ⟨_, exec_not_accepted (i := .decByte b) (by simp [accepts, hm]), h.inv.refuse, fun hm' => absurd hm' hm,
      hmono.congr rfl rfl rfl⟩

/-- Settles O48: DEC.START begins with the bound 0, and every DEC.BYTE keeps it by the codes completed so far. -/
theorem decodedSymbolsAreNoLongerThanTheCodeCount : Obligations.DecodedSymbolsAreNoLongerThanTheCodeCount := by
  intro y s t ht
  obtain ⟨u, hu, h, -⟩ := run_operands (f := .decByte) (all := y) (R := DecodingWithin) (fun _ => decode_encode _)
    (fun _ b _ _ _ h => h.byte b) (fun _ _ p h => h.pending p) y rfl
    (.start { s with pending := y.map (fun b => HostEvent.command (encode (.decByte b))) ++ s.pending }) rfl
  have hrun : runProgram (encode .decStart :: y.map fun b => encode (.decByte b)) s = .next u := by
    rw [runProgram, List.length_cons, List.length_map]
    refine (run_command (rest := y.map (fun b => HostEvent.command (encode (.decByte b))) ++ s.pending) ?_
      (decode_encode .decStart) (exec_start rfl _) _).trans hu
    simp [State.issueAll, Function.comp_def]
  obtain rfl : u = t := by simpa [hrun] using ht
  exact ⟨h.within.entries, h.within.prior⟩

end Sys2Proof.Machine
end

section
/-!
PROOFS. What a command leaves alone, from any state and for any sink answers: the outputs only grow, and each unit's
commands write that unit's registers (spec/10_state.md R35; spec/40_dictionary.md R100). Each is a relation that the parts
of a command meet (Laws/Parts).
-/
namespace Sys2Proof.Machine

/-! ### The outputs -/

/-- The byte stream grows and the code stream stays. -/
def State.BytesGrow (s t : State) : Prop := s.outBytes <+: t.outBytes ∧ t.outCodes = s.outCodes

theorem State.BytesGrow.refl (s : State) : s.BytesGrow s := ⟨List.prefix_rfl, rfl⟩

theorem State.BytesGrow.trans {s t u : State} (h : s.BytesGrow t) (h' : t.BytesGrow u) : s.BytesGrow u :=
  ⟨h.1.trans h'.1, h'.2.trans h.2⟩

theorem emit_bytesGrow (w : List Byte) (s : State) : s.BytesGrow (s.emit w) := ⟨List.prefix_append _ _, rfl⟩

theorem unpackNext_bytesGrow (b : Byte) (s : State) : s.BytesGrow (s.unpackNext b) := by
  simp [State.BytesGrow]

/-- A delivered code is appended, or the write fails; no byte is written. -/
theorem outCode_outputs (k : Code) (s : State) :
    (outCode k s).state.outBytes = s.outBytes ∧
      ((outCode k s).state.outCodes = s.outCodes ∨ (outCode k s).state.outCodes = s.outCodes ++ [k]) := by
  cases ha : s.sinkAnswerAt 0
  · rw [outCode_failed ha]; exact ⟨rfl, .inl rfl⟩
  · rw [outCode_accepted ha]; exact ⟨rfl, .inr rfl⟩

/-- Settles O52: only UP.BYTE writes a code, and then no byte; every other part of a command only adds bytes. -/
theorem outputsOnlyGrowWithinAStream : Obligations.OutputsOnlyGrowWithinAStream := by
  intro i s t hi he
  have bytes : s.BytesGrow t → s.outBytes <+: t.outBytes ∧ (t.outCodes = s.outCodes ∨
      (s.mode = .up ∧ t.outBytes = s.outBytes ∧ ∃ k, t.outCodes = s.outCodes ++ [k])) := fun h => ⟨h.1, .inl h.2⟩
  rcases exec_cases i s with ⟨m, hs, -⟩ | ⟨-, h⟩ | ⟨c, rfl, hm⟩ | ⟨rfl, hm⟩ | ⟨b, rfl, hm⟩ | ⟨rfl, hm⟩ | ⟨k, rfl, hm⟩ |
    ⟨rfl, hm⟩ | ⟨b, rfl, hm⟩ | ⟨rfl, hm⟩
  · simp [hi] at hs
  · rw [h] at he; cases he; exact bytes (.refl s)
  · rw [exec_encByte hm] at he; cases he
    exact bytes (encWalk_rel (R := State.BytesGrow) .refl .trans (fun _ => .refl) (fun _ => .refl) emit_bytesGrow .refl
      (fun _ => .refl) .refl (fun _ _ => .refl) (fun _ _ => .refl) c s)
  · rw [exec_encEnd hm] at he; cases he
    exact bytes (encEnd_rel (R := State.BytesGrow) .refl .trans (fun _ => .refl) (fun _ => .refl) emit_bytesGrow .refl
      (fun _ => .refl) .refl s)
  · cases hu : unpackCode b s with
    | none => rw [exec_decByte_none hm hu] at he; cases he; exact bytes (unpackNext_bytesGrow b s)
    | some k =>
      rw [exec_decByte_some hm hu] at he; cases he
      exact bytes ((unpackNext_bytesGrow b s).trans (decodeCode_rel (R := State.BytesGrow) .refl .trans (fun _ => .refl)
        (fun _ => .refl) emit_bytesGrow .refl (fun _ _ => .refl) (fun _ _ => .refl) k _))
  · rw [exec_decEnd hm] at he; cases he
    exact bytes (unpackEnd_finish_rel (R := State.BytesGrow) .refl .trans (fun _ => .refl) .refl s)
  · rw [exec_pkCode hm] at he; cases he
    exact bytes (pack_rel (R := State.BytesGrow) .trans (fun _ => .refl) (fun _ => .refl) emit_bytesGrow .refl
      (fun _ => .refl) k s)
  · rw [exec_pkFlush hm] at he; cases he
    exact bytes (flush_finish_rel (R := State.BytesGrow) .refl .trans (fun _ => .refl) (fun _ => .refl) emit_bytesGrow
      .refl .refl s)
  · cases hu : unpackCode b s with
    | none => rw [exec_upByte_none hm hu] at he; cases he; exact bytes (unpackNext_bytesGrow b s)
    | some k =>
      rw [exec_upByte_some hm hu] at he; cases he
      obtain ⟨hbytes, hcodes⟩ := outCode_outputs k (s.unpackNext b)
      rw [State.unpackNext_outBytes] at hbytes
      rw [State.unpackNext_outCodes] at hcodes
      refine ⟨by rw [hbytes], hcodes.imp_right fun h => ⟨hm, hbytes, k, h⟩⟩
  · rw [exec_upEnd hm] at he; cases he
    exact bytes (unpackEnd_finish_rel (R := State.BytesGrow) .refl .trans (fun _ => .refl) .refl s)

/-! ### The frame of one command -/

/-- A command accepted in one mode only: it is refused, or it is what it is in that mode. -/
theorem exec_rel_of_mode {R : State → State → Prop} {i : Instr} {m : Mode} {s t u : State}
    (ha : accepts i s.mode = decide (s.mode = m)) (hrefuse : R s s.refuse) (hx : s.mode = m → exec i s = .next u)
    (hu : R s u) (he : exec i s = .next t) : R s t := by
  by_cases hm : s.mode = m
  · rw [hx hm] at he
    cases he
    exact hu
  · rw [exec_not_accepted (ha.trans (decide_eq_false hm))] at he
    cases he
    exact hrefuse

/-- `s` with what the packer's commands and `ENC.END` may write taken from `t`. -/
def State.withPacker (s t : State) : State :=
  { s with
    pkOdd := t.pkOdd, pkStage0 := t.pkStage0, pkStage1 := t.pkStage1, outBytes := t.outBytes, mode := t.mode,
    fault := t.fault, refused := t.refused, sinkAnswers := t.sinkAnswers, sinkDraws := t.sinkDraws }

/-- `s` with what the unpacker's commands may write taken from `t`. -/
def State.withUnpacker (s t : State) : State :=
  { s with
    upFill := t.upFill, upHold0 := t.upHold0, upHold1 := t.upHold1, outCodes := t.outCodes, mode := t.mode,
    fault := t.fault, refused := t.refused, sinkAnswers := t.sinkAnswers, sinkDraws := t.sinkDraws }

/-- `s` with what `ENC.BYTE` may write taken from `t`. -/
def State.withEncoder (s t : State) : State :=
  { s with
    dict := t.dict, nextCode := t.nextCode, encS := t.encS, encSCode := t.encSCode, pkOdd := t.pkOdd,
    pkStage0 := t.pkStage0, pkStage1 := t.pkStage1, outBytes := t.outBytes, mode := t.mode, fault := t.fault,
    refused := t.refused, sinkAnswers := t.sinkAnswers, sinkDraws := t.sinkDraws }

/-- `s` with what `DEC.BYTE` may write taken from `t`. -/
def State.withDecoder (s t : State) : State :=
  { s with
    dict := t.dict, nextCode := t.nextCode, upFill := t.upFill, upHold0 := t.upHold0, upHold1 := t.upHold1,
    decHavePrior := t.decHavePrior, decPriorCode := t.decPriorCode, decPriorSym := t.decPriorSym,
    outBytes := t.outBytes, mode := t.mode, fault := t.fault, refused := t.refused,
    sinkAnswers := t.sinkAnswers, sinkDraws := t.sinkDraws }

/-- `s` with what `DEC.END` may write taken from `t`. -/
def State.withEnd (s t : State) : State := { s with mode := t.mode, fault := t.fault, refused := t.refused }

theorem State.withPacker_withPacker (s t u : State) : (s.withPacker t).withPacker u = s.withPacker u := rfl
theorem State.withUnpacker_withUnpacker (s t u : State) : (s.withUnpacker t).withUnpacker u = s.withUnpacker u := rfl
theorem State.withEncoder_withEncoder (s t u : State) : (s.withEncoder t).withEncoder u = s.withEncoder u := rfl
theorem State.withDecoder_withDecoder (s t u : State) : (s.withDecoder t).withDecoder u = s.withDecoder u := rfl
theorem State.withEnd_withEnd (s t u : State) : (s.withEnd t).withEnd u = s.withEnd u := rfl

/-- Nothing was written but what `copy` takes from the later state. -/
def Frame (copy : State → State → State) (s t : State) : Prop := t = copy s t

/-- Frames compose, since the later copy overwrites the earlier one. -/
theorem Frame.trans {copy : State → State → State} (hcopy : ∀ s t u, copy (copy s t) u = copy s u) {s t u : State}
    (h : Frame copy s t) (h' : Frame copy t u) : Frame copy s u :=
  calc u = copy t u := h'
    _ = copy (copy s t) u := congrArg (fun x => copy x u) h
    _ = copy s u := hcopy s t u

/-- A byte that completes no code writes the unpacker's registers only (41_packer.md R138). -/
theorem unpackNext_frame (b : Byte) (s : State) :
    s.unpackNext b =
      { s with
        upFill := (s.unpackNext b).upFill, upHold0 := (s.unpackNext b).upHold0,
        upHold1 := (s.unpackNext b).upHold1 } := by
  unfold State.unpackNext
  cases s.upFill <;> rfl

/-! ### The four units -/

theorem pack_packerFrame (k : Code) (s : State) : Frame State.withPacker s (pack k s).state :=
  pack_rel (R := Frame State.withPacker) (.trans State.withPacker_withPacker) (fun _ _ => rfl) (fun _ _ => rfl)
    (fun _ _ => rfl) (fun _ => rfl) (fun _ _ => rfl) k s

theorem flush_finish_packerFrame (s : State) :
    Frame State.withPacker s ((flush s).andThen fun _ t => .ok () t.finishStream).state :=
  flush_finish_rel (R := Frame State.withPacker) (fun _ => rfl) (.trans State.withPacker_withPacker) (fun _ _ => rfl)
    (fun _ _ => rfl) (fun _ _ => rfl) (fun _ => rfl) (fun _ => rfl) s

theorem encEnd_packerFrame (s : State) : Frame State.withPacker s
    ((encLast s).andThen fun _ t => (flush t).andThen fun _ u => .ok () u.finishStream).state :=
  encEnd_rel (R := Frame State.withPacker) (fun _ => rfl) (.trans State.withPacker_withPacker) (fun _ _ => rfl)
    (fun _ _ => rfl) (fun _ _ => rfl) (fun _ => rfl) (fun _ _ => rfl) (fun _ => rfl) s

theorem encWalk_encoderFrame (c : Byte) (s : State) : Frame State.withEncoder s (encWalk c s).state :=
  encWalk_rel (R := Frame State.withEncoder) (fun _ => rfl) (.trans State.withEncoder_withEncoder) (fun _ _ => rfl)
    (fun _ _ => rfl) (fun _ _ => rfl) (fun _ => rfl) (fun _ _ => rfl) (fun _ => rfl) (fun _ _ _ => rfl)
    (fun _ _ _ => rfl) c s

theorem unpackNext_unpackerFrame (b : Byte) (s : State) : Frame State.withUnpacker s (s.unpackNext b) := by
  rw [unpackNext_frame]
  rfl

theorem outCode_unpackerFrame (k : Code) (s : State) : Frame State.withUnpacker s (outCode k s).state :=
  outCode_rel (R := Frame State.withUnpacker) (.trans State.withUnpacker_withUnpacker) (fun _ _ => rfl) (fun _ _ => rfl)
    (fun _ _ => rfl) k s

theorem unpackNext_decoderFrame (b : Byte) (s : State) : Frame State.withDecoder s (s.unpackNext b) := by
  rw [unpackNext_frame]
  rfl

theorem decodeCode_decoderFrame (k : Code) (s : State) : Frame State.withDecoder s (decodeCode k s).state :=
  decodeCode_rel (R := Frame State.withDecoder) (fun _ => rfl) (.trans State.withDecoder_withDecoder) (fun _ _ => rfl)
    (fun _ _ => rfl) (fun _ _ => rfl) (fun _ => rfl) (fun _ _ _ => rfl) (fun _ _ _ => rfl) k s

theorem unpackEnd_finish_endFrame (s : State) :
    Frame State.withEnd s ((unpackEnd s).andThen fun _ t => .ok () t.finishStream).state :=
  unpackEnd_finish_rel (R := Frame State.withEnd) (fun _ => rfl) (.trans State.withEnd_withEnd) (fun _ _ => rfl)
    (fun _ => rfl) s

/-- What an end command leaves alone, the unpacker's commands may leave alone too. -/
theorem unpackEnd_finish_unpackerFrame (s : State) :
    Frame State.withUnpacker s ((unpackEnd s).andThen fun _ t => .ok () t.finishStream).state := by
  have h := unpackEnd_finish_endFrame s
  rw [h]
  rfl

/-- Settles O53: packing, flushing and ending the stream write nothing else, and neither does a refusal. -/
theorem packerCommandsFrame : Obligations.PackerCommandsFrame := by
  rintro i s t (⟨k, rfl⟩ | rfl) he
  · exact exec_rel_of_mode (R := Frame State.withPacker) (m := .pk) rfl rfl (exec_pkCode · k) (pack_packerFrame k s) he
  · exact exec_rel_of_mode (R := Frame State.withPacker) (m := .pk) rfl rfl exec_pkFlush (flush_finish_packerFrame s) he

/-- Settles O54: taking a byte, delivering a code and ending the stream write nothing else, and neither does a refusal. -/
theorem unpackerCommandsFrame : Obligations.UnpackerCommandsFrame := by
  rintro i s t (⟨b, rfl⟩ | rfl) he
  · refine exec_rel_of_mode (R := Frame State.withUnpacker) (m := .up) rfl rfl (exec_upByte · b) ?_ he
    have hnext := unpackNext_unpackerFrame b s
    cases unpackCode b s with
    | none => exact hnext
    | some k => exact hnext.trans State.withUnpacker_withUnpacker (outCode_unpackerFrame k _)
  · exact exec_rel_of_mode (R := Frame State.withUnpacker) (m := .up) rfl rfl exec_upEnd
      (unpackEnd_finish_unpackerFrame s) he

/-- Settles O55: the walk, and the final pack and flush; `ENC.END` writes what the packer's commands write. -/
theorem encoderCommandsFrame : Obligations.EncoderCommandsFrame := by
  refine fun s t => ⟨fun ⟨c, he⟩ => ?byte, fun he => ?fin⟩
  case byte =>
    exact exec_rel_of_mode (R := Frame State.withEncoder) (m := .enc) rfl rfl (exec_encByte · c)
      (encWalk_encoderFrame c s) he
  case fin =>
    exact exec_rel_of_mode (R := Frame State.withPacker) (m := .enc) rfl rfl exec_encEnd (encEnd_packerFrame s) he

/-- Settles O56: the unpacker and the decoding of a code, and the check of the last unit. -/
theorem decoderCommandsFrame : Obligations.DecoderCommandsFrame := by
  refine fun s t => ⟨fun ⟨b, he⟩ => ?byte, fun he => ?fin⟩
  case byte =>
    refine exec_rel_of_mode (R := Frame State.withDecoder) (m := .dec) rfl rfl (exec_decByte · b) ?_ he
    have hnext := unpackNext_decoderFrame b s
    cases unpackCode b s with
    | none => exact hnext
    | some k => exact hnext.trans State.withDecoder_withDecoder (decodeCode_decoderFrame k _)
  case fin =>
    exact exec_rel_of_mode (R := Frame State.withEnd) (m := .dec) rfl rfl exec_decEnd (unpackEnd_finish_endFrame s) he

end Sys2Proof.Machine
end

section
/-!
PROOFS. A finite symbol bound refuses a command whole, before any of its writes (spec/60_exceptions.md R236).
-/
namespace Sys2Proof.Machine

theorem tooLong_some (n : Nat) (w : Symbol) : tooLong (some n) w = decide (n < w.length) := rfl

/-- `ENC.BYTE` with a finite bound (42_encoder.md R162 (d)). -/
theorem encByteWithin_some {s : State} (hm : s.mode = .enc) (n : Nat) (c : Byte) :
    encByteWithin (some n) c s =
      if n < s.encS.length + 1 then .next s.refuse else exec (.encByte c) s := by
  rw [encByteWithin, acceptIn_accepted hm, tooLong_some, List.length_append, List.length_singleton, exec_encByte hm,
    Eff.finish_eq]
  simp only [decide_eq_true_eq]

/-- `DEC.BYTE` with a finite bound (43_decoder.md R201). -/
theorem decByteWithin_some {s : State} (hm : s.mode = .dec) (n : Nat) (b : Byte) :
    decByteWithin (some n) b s =
      if ∃ k, unpackCode b s = some k ∧ decodeTooLong (some n) k (s.unpackNext b) = true then .next s.refuse
      else exec (.decByte b) s := by
  rw [decByteWithin, acceptIn_accepted hm, exec_decByte hm]
  simp only [unpack]
  cases hu : unpackCode b s with
  | none => simp
  | some k => simp only [Option.some.injEq, exists_eq_left', Eff.finish_eq]

/-- When decoding `k` would hold a symbol longer than `n`: by the code's class (60_exceptions.md R236). -/
theorem decodeTooLong_some_iff {s : State} (hi : s.Inv) (hm : s.mode = .dec) (n : Nat) (k : Code) :
    decodeTooLong (some n) k s = true ↔
      (s.decHavePrior = false ∧ k.toNat < 256 ∧ n < 1) ∨
      (s.decHavePrior = true ∧ k.toNat ≤ (dictCeilingCheck s).nextCode.toNat ∧ n < s.decPriorSym.length + 1) ∨
      (s.decHavePrior = true ∧ ∃ cur, (dictCeilingCheck s).dict.read k.toNat = some cur ∧ n < cur.length) := by
  have hnone : ∀ {j : Nat}, (dictCeilingCheck s).nextCode.toNat ≤ j → (dictCeilingCheck s).dict.read j = none :=
    (dictCeilingCheck_inv hi (by simp [hm])).read_none
  unfold decodeTooLong
  rcases decodeSymbols_cases hi hm k with ⟨hp, hk, he⟩ | ⟨hp, hk, he⟩ | ⟨hp, hk, b, w, hr, he⟩ | ⟨hp, hk, b, w, hs, he⟩ |
    ⟨hp, hk, he⟩
  · simp [he, hp, hk]
  · simp [he, hp, hk, tooLong_some]
  · simp [he, hp, hk.le, hr, tooLong_some, or_comm]
  · simp [he, hp, hk, hs, hnone le_rfl, tooLong_some]
  · simp [he, hp, hk, hnone hk.le]

/-- Settles O58: the check comes first, and its condition is the statement's. -/
theorem symbolBoundRefusesTheWholeCommand : Obligations.SymbolBoundRefusesTheWholeCommand := by
  refine ⟨fun n c s hm => encByteWithin_some hm n c, fun n b s hi hm => ?dec, fun _ _ => rfl, fun _ _ => rfl⟩
  case dec =>
    have hm' : (s.unpackNext b).mode = .dec := by simpa using hm
    have hbound := decByteWithin_some hm n b
    simp only [decodeTooLong_some_iff (hi.unpackNext b) hm', dictCeilingCheck_unpackNext, State.unpackNext_nextCode,
      State.unpackNext_dict, State.unpackNext_decHavePrior, State.unpackNext_decPriorSym] at hbound
    exact hbound

end Sys2Proof.Machine
end
